-- ==== Sys2Proof/Word.lean ====
section
/-! DEFINITION. The word types of XPORT (spec/00_scope.md R7, R10): every value is an unsigned
bit vector of a stated width. Field extraction and byte order are in Decode.lean and
Machine/Operands.lean. -/

namespace Sys2Proof

/-- One byte: the unit of the chip address space and of the wire (20_memory.md R61). -/
abbrev Byte := BitVec 8

/-- A block select, `BSB_W` = 5 bits (20_memory.md R61). -/
abbrev Bsb := BitVec 5

/-- An offset, a byte count, a ring pointer or a size: 16 bits (00_scope.md R7). -/
abbrev Word := BitVec 16

/-- A frame header `H = off ‖ CTRL`, 24 bits (30_encoding.md R103). -/
abbrev Header := BitVec 24

/-- A command descriptor, 64 bits (30_encoding.md R109). -/
abbrev Descriptor := BitVec 64

end Sys2Proof
end

