-- ==== Sys2Proof/Config.lean ====
section
/-! DEFINITION. What an instance of XPORT fixes: the record of parameters (00_scope.md R7, R8), the
environment's moves, and the free values of the model (constants with no body, applied to a counter
of State or to an index). -/

namespace Sys2Proof.Config

/-- Byte locations of one block (20_memory.md R61). -/
abbrev blockSize : Nat := 65536

/-- Byte locations of the chip address space that a five-bit block select reaches: 32 blocks
(20_memory.md R61). -/
abbrev chipSize : Nat := 32 * 65536

end Sys2Proof.Config

namespace Sys2Proof

/-- The layout of a frame header (30_encoding.md R101, R103): `OFF_W` and `CTRL_W`, the widths of the
offset and of the control byte (00_scope.md R7); `BSB_W` and `BSB_POS`, the width and the lowest bit of
the block-select field of the control byte; `RWB_POS`, the bit of the direction; `OM`, what the bits
outside those two fields hold (R8). -/
structure CtrlLayout where
  offW : Nat
  ctrlW : Nat
  bsbW : Nat
  bsbPos : Nat
  rwbPos : Nat
  om : Byte
  deriving DecidableEq, Repr

/-- The widths of 00_scope.md R7 and the default layout of R8: a 16-bit offset and an 8-bit control
byte, block select 7:3, direction 2, `OM` = 00 in 1:0 (log 12). -/
def CtrlLayout.default : CtrlLayout where
  offW := 16
  ctrlW := 8
  bsbW := 5
  bsbPos := 3
  rwbPos := 2
  om := 0

/-- The parameters of 00_scope.md R7 and R8 that are not registers of 10_state.md R30 (log 13).
`ptrW`, `sizeW`, `hdrLen`, `window`, `inlineMax`, `fMin`, `fMax` and `minPayload` are the numbers of R7
beside those of the layout, parameters of the step relation by 10_state.md R23 (91_not_in_source.md N4,
90_conflicts.md C10). `phyAlive` is the table of the configuration function
`PhyAlive` of 43_fifo_sequences.md R225: bit `b` answers for the byte `b`. `sizeRetryMax` is the cap
on the retries of a size query, none when unbounded (42_size_query.md R193). -/
structure Params where
  ctrl : CtrlLayout
  bsbCommon : Bsb
  bsbS0Reg : Bsb
  bsbS0Tx : Bsb
  bsbS0Rx : Bsb
  regCr : Word
  regIr : Word
  regTxFsr : Word
  regTxWr : Word
  regRxRsr : Word
  regRxRd : Word
  regPhyCfg : Word
  cmdSend : Byte
  cmdRecv : Byte
  irSendOk : Byte
  irRecv : Byte
  ptrMod : Nat
  phyAlive : BitVec 256
  sizeRetryMax : Option Nat
  ptrW : Nat
  sizeW : Nat
  hdrLen : Nat
  window : Nat
  inlineMax : Nat
  fMin : Nat
  fMax : Nat
  minPayload : Nat
  deriving DecidableEq, Repr

/-- The values of R7 and the defaults of R8 (00_scope.md; 20_memory.md R64); `PhyAlive` true of
every byte (OPEN in R8; DESIGN CHOICE, log 13). -/
def Params.default : Params where
  ctrl := .default
  bsbCommon := 0
  bsbS0Reg := 1
  bsbS0Tx := 2
  bsbS0Rx := 3
  regCr := 0x0001
  regIr := 0x0002
  regTxFsr := 0x0020
  regTxWr := 0x0024
  regRxRsr := 0x0026
  regRxRd := 0x0028
  regPhyCfg := 0x002E
  cmdSend := 0x20
  cmdRecv := 0x40
  irSendOk := 0x10
  irRecv := 0x04
  ptrMod := 65536
  phyAlive := BitVec.allOnes 256
  sizeRetryMax := none
  ptrW := 16
  sizeW := 16
  hdrLen := 2
  window := 16384
  inlineMax := 4
  fMin := 14
  fMax := 25
  minPayload := 1

/-- The bytes of a stored ring pointer: `PTR_W` bits (00_scope.md R7, 20_memory.md R65). -/
def Params.ptrLen (P : Params) : Nat := P.ptrW / 8

/-- The bytes of a size register: `SIZE_W` bits (00_scope.md R7, 42_size_query.md R190). -/
def Params.sizeLen (P : Params) : Nat := P.sizeW / 8

/-- The status of an operation (60_exceptions.md R250). -/
inductive Status where
  | ok
  | timeout
  | invalidArgument
  | noMemory
  | unsupported
  | hardwareFault
  | corruptHeader
  deriving DecidableEq, Repr, Inhabited

/-- One move of an agent that is no requester: the port that has the next turns and how many, a
change the chip makes of one of its own locations (20_memory.md R72), the failure of the frame in
progress (40_transport.md R143), or the end of a port's wait by `Timeout` before its count of ticks
says so (R149, 60_exceptions.md R266; log 4). The order of the moves is the arbiter's and
scheduler's choice (R134, 20_memory.md R79). -/
inductive Env where
  | turn (port count : Nat)
  | chip (addr : Nat) (value : Byte)
  | fault
  | expire (port : Nat)
  deriving DecidableEq, Repr, Inhabited

end Sys2Proof

namespace Sys2Proof.Config

/-- Free value: the environment's `n`-th move after the end of the list `events` (log 2). -/
opaque freeEnv : Nat → Env

/-- Free value: what the chip holds at an address nothing has been written to since the epoch of its
block (20_memory.md R70, 10_state.md R37, 93 U2, U3, U19; log 6, log 11, log 25). -/
opaque chipByte : Nat → Nat → Byte

/-- Free value: a byte of `WBUF` (port, index) the requester has not supplied (log 9). -/
opaque wbufByte : Nat → Nat → Byte

/-- Free value: what the slave drives on MISO outside a read payload (30_encoding.md R104; log 21). -/
opaque misoByte : Nat → Byte

/-- Free value: `LOCK_OWNER` as read while the lock is free (10_state.md R29, R30; log 18). -/
opaque ownerBits : Nat → BitVec 4

/-- Free value: a chip location addressed by a frame that a reset cut short
(10_state.md R38, 93 U11; log 20). -/
opaque cutByte : Nat → Byte

/-- Free value: whether a size query that exceeds a finite `SIZE_RETRY_MAX` ends with `HardwareFault`
or with `Timeout`; the spec does not say (00_scope.md R8, 42_size_query.md R193; log 14). -/
opaque capFault : Nat → Bool

end Sys2Proof.Config
end

