-- ==== Sys2Proof/Syntax.lean ====
section
/-! DEFINITION. The instructions: one constructor per row of spec/opcode_table.json
(30_encoding.md R116), its operands in the order bsb, off, len of R114. -/

namespace Sys2Proof

/-- The two frame kinds of format WIRE (30_encoding.md R103) and the nine operations of format
HCMD (R110). -/
inductive Instr where
  | wireRd (bsb : Bsb) (off : Word)
  | wireWr (bsb : Bsb) (off : Word)
  | xferRd (bsb : Bsb) (off len : Word)
  | xferWr (bsb : Bsb) (off len : Word)
  | bufRd (bsb : Bsb) (off len : Word)
  | bufWr (bsb : Bsb) (off len : Word)
  | getTxFree
  | getRxSize
  | sockCmd (code : Byte) (tmo : Word)
  | txEnq (len : Word)
  | rxDeq
  deriving DecidableEq, Repr

end Sys2Proof
end

