-- ==== Sys2Proof/Decode.lean ====
section
/-! DEFINITION. Decoding and encoding of the two formats of 30_encoding.md: the 24-bit frame
header (R101, R103, R106) and the 64-bit command descriptor (R109, R110). Decoding is total; a
word that is no instruction is answered `none` (R112, R113). -/

namespace Sys2Proof

/-- The direction of a frame or a transport call (30_encoding.md R101: `RWB`). -/
inductive Dir where
  | rd
  | wr
  deriving DecidableEq, Repr

/-- `RWB`: 0 = read, 1 = write (30_encoding.md R101). -/
def Dir.bit : Dir → BitVec 1
  | .rd => 0#1
  | .wr => 1#1

/-- The widest block select an operand can hold, five bits (10_state.md R20, 30_encoding.md R109), as
a field of the control byte: `BSB_W` bits of it, shifted to `BSB_POS` (R101). -/
def CtrlLayout.bsbBits (L : CtrlLayout) (bsb : Bsb) : Byte :=
  (bsb.setWidth 8 &&& ((1#8 <<< L.bsbW) - 1#8)) <<< L.bsbPos

/-- The direction at `RWB_POS` (30_encoding.md R101). -/
def CtrlLayout.rwbBits (L : CtrlLayout) (dir : Dir) : Byte := dir.bit.setWidth 8 <<< L.rwbPos

/-- The bits of the control byte that an operand can set: the low five bits of the block-select field,
and the direction. A wider field has further bits, which belong to no block select that an operand
holds (log 12). -/
def CtrlLayout.fields (L : CtrlLayout) : Byte := L.bsbBits 31#5 ||| L.rwbBits .wr

/-- The layout can carry every address: the header's three bytes (30_encoding.md R100) hold a 16-bit
offset (10_state.md R20) and the control byte, every five-bit block select fits its field, the two
fields lie in the control byte without overlap, and `OM` is zero on them (R101). R7's widths with R8's
default can. -/
def CtrlLayout.ok (L : CtrlLayout) : Bool :=
  decide (L.offW = 16) && decide (L.ctrlW = 8) &&
  decide (5 ≤ L.bsbW) && decide (L.bsbPos + L.bsbW ≤ 8) && decide (L.rwbPos < 8) &&
  (decide (L.rwbPos < L.bsbPos) || decide (L.bsbPos + L.bsbW ≤ L.rwbPos)) &&
  decide (L.om &&& ((((1#8 <<< L.bsbW) - 1#8) <<< L.bsbPos) ||| L.rwbBits .wr) = 0#8)

/-- `CTRL = (bsb << BSB_POS) OR (rwb << RWB_POS) OR OM` (30_encoding.md R101). -/
def ctrlByte (L : CtrlLayout) (dir : Dir) (bsb : Bsb) : Byte := L.bsbBits bsb ||| L.rwbBits dir ||| L.om

/-- The header of a frame, `off ‖ CTRL` with `OFF_W` and `CTRL_W` bits (30_encoding.md R103, R106). -/
def header (L : CtrlLayout) (dir : Dir) (bsb : Bsb) (off : Word) : Header :=
  ((off.setWidth 24 &&& ((1#24 <<< L.offW) - 1#24)) <<< L.ctrlW) ||| (ctrlByte L dir bsb).setWidth 24

/-- The last byte of a header, bits 7:0 (30_encoding.md R100). -/
def ctrlOf (h : Header) : Byte := h.extractLsb' 0 8

/-- The control byte of a header, its low `CTRL_W` bits (30_encoding.md R101). -/
def CtrlLayout.ctrlBits (L : CtrlLayout) (h : Header) : Byte := ctrlOf h &&& ((1#8 <<< L.ctrlW) - 1#8)

/-- The offset of a header, the `OFF_W` bits above the control byte (30_encoding.md R103). -/
def CtrlLayout.offBits (L : CtrlLayout) (h : Header) : Word :=
  ((h >>> L.ctrlW) &&& ((1#24 <<< L.offW) - 1#24)).setWidth 16

/-- Header byte `i` in wire order: `OFF_HI`, `OFF_LO`, `CTRL` (30_encoding.md R100). -/
def headerByte (h : Header) (i : Nat) : Byte :=
  match i with
  | 0 => h.extractLsb' 16 8
  | 1 => h.extractLsb' 8 8
  | _ => ctrlOf h

/-- The header bytes of a frame in wire order (30_encoding.md R100, R106). -/
def headerBytes (L : CtrlLayout) (dir : Dir) (bsb : Bsb) (off : Word) : List Byte :=
  [0, 1, 2].map (headerByte (header L dir bsb off))

/-- The direction and the Register Address a header names; `none` where a bit outside the two fields
differs from `OM` (30_encoding.md R103, R113). With `BSB_W` above 5 a header whose block-select field
holds 32 or more is `none` too, and executing it is the fault frameMalformed: no operand holds such a
block select, and the spec does not say what the header is (DESIGN CHOICE, log 12). -/
def wireTarget (L : CtrlLayout) (h : Header) : Option (Dir × Bsb × Word) :=
  if L.ctrlBits h &&& ~~~L.fields = L.om then
    some (if (L.ctrlBits h).getLsbD L.rwbPos then .wr else .rd,
      ((L.ctrlBits h >>> L.bsbPos) &&& ((1#8 <<< L.bsbW) - 1#8)).setWidth 5, L.offBits h)
  else none

/-- The chip side's decoder: a frame header (30_encoding.md R103, R116). -/
def decodeWire (L : CtrlLayout) (h : Header) : Option Instr :=
  match wireTarget L h with
  | some (.rd, bsb, off) => some (.wireRd bsb off)
  | some (.wr, bsb, off) => some (.wireWr bsb off)
  | none => none

/-- The same decoder on the bytes of a frame in wire order: the instruction and the payload that
follows the three header bytes (30_encoding.md R100). -/
def decodeWireBytes (L : CtrlLayout) : List Byte → Option (Instr × List Byte)
  | b0 :: b1 :: b2 :: payload => (decodeWire L (b0 ++ (b1 ++ b2))).map (fun i => (i, payload))
  | _ => none

/-- Descriptor field `OPC`, bits 63:56 (30_encoding.md R109). -/
def opcOf (d : Descriptor) : Byte := d.extractLsb' 56 8

/-- Descriptor field `BSB`, bits 55:51. -/
def bsbOf (d : Descriptor) : Bsb := d.extractLsb' 51 5

/-- The reserved bits 50:48, which must be zero. -/
def rsvOf (d : Descriptor) : BitVec 3 := d.extractLsb' 48 3

/-- Descriptor field `OFF`, bits 47:32. -/
def offOf (d : Descriptor) : Word := d.extractLsb' 32 16

/-- Descriptor field `LEN`, bits 31:16. -/
def lenOf (d : Descriptor) : Word := d.extractLsb' 16 16

/-- Descriptor field `AUX`, bits 15:0. -/
def auxOf (d : Descriptor) : Word := d.extractLsb' 0 16

/-- A descriptor from its fields (30_encoding.md R109). -/
def descriptor (opc : Byte) (bsb : Bsb) (off len aux : Word) : Descriptor :=
  opc ++ (bsb ++ (0#3 ++ (off ++ (len ++ aux))))

/-- The XPORT side's decoder: a command descriptor. A field the operation does not use must be
zero (30_encoding.md R110, R112). -/
def decodeCmd (d : Descriptor) : Option Instr :=
  if rsvOf d ≠ 0 then none
  else if opcOf d = 0x01 then
    if auxOf d = 0 then some (.xferRd (bsbOf d) (offOf d) (lenOf d)) else none
  else if opcOf d = 0x02 then
    if auxOf d = 0 then some (.xferWr (bsbOf d) (offOf d) (lenOf d)) else none
  else if opcOf d = 0x11 then
    if auxOf d = 0 then some (.bufRd (bsbOf d) (offOf d) (lenOf d)) else none
  else if opcOf d = 0x12 then
    if auxOf d = 0 then some (.bufWr (bsbOf d) (offOf d) (lenOf d)) else none
  else if opcOf d = 0x21 then
    if bsbOf d = 0 ∧ offOf d = 0 ∧ lenOf d = 0 ∧ auxOf d = 0 then some .getTxFree else none
  else if opcOf d = 0x22 then
    if bsbOf d = 0 ∧ offOf d = 0 ∧ lenOf d = 0 ∧ auxOf d = 0 then some .getRxSize else none
  else if opcOf d = 0x30 then
    if bsbOf d = 0 ∧ offOf d = 0 ∧ (lenOf d).extractLsb' 8 8 = 0 then
      some (.sockCmd ((lenOf d).extractLsb' 0 8) (auxOf d))
    else none
  else if opcOf d = 0x41 then
    if bsbOf d = 0 ∧ offOf d = 0 ∧ auxOf d = 0 then some (.txEnq (lenOf d)) else none
  else if opcOf d = 0x42 then
    if bsbOf d = 0 ∧ offOf d = 0 ∧ lenOf d = 0 ∧ auxOf d = 0 then some .rxDeq else none
  else none

/-- The words of an instruction: a frame header or a command descriptor (30_encoding.md R116). -/
inductive Encoded where
  | wire (h : Header)
  | cmd (d : Descriptor)
  deriving DecidableEq, Repr

/-- Decoding of either format, with the control-byte layout of the machine. -/
def decode (L : CtrlLayout) : Encoded → Option Instr
  | .wire h => decodeWire L h
  | .cmd d => decodeCmd d

/-- The encoder, from R103 and from R109, R110 of 30_encoding.md. -/
def encode (L : CtrlLayout) : Instr → Encoded
  | .wireRd bsb off => .wire (header L .rd bsb off)
  | .wireWr bsb off => .wire (header L .wr bsb off)
  | .xferRd bsb off len => .cmd (descriptor 0x01 bsb off len 0)
  | .xferWr bsb off len => .cmd (descriptor 0x02 bsb off len 0)
  | .bufRd bsb off len => .cmd (descriptor 0x11 bsb off len 0)
  | .bufWr bsb off len => .cmd (descriptor 0x12 bsb off len 0)
  | .getTxFree => .cmd (descriptor 0x21 0 0 0 0)
  | .getRxSize => .cmd (descriptor 0x22 0 0 0 0)
  | .sockCmd code tmo => .cmd (descriptor 0x30 0 0 (0#8 ++ code) tmo)
  | .txEnq len => .cmd (descriptor 0x41 0 0 len 0)
  | .rxDeq => .cmd (descriptor 0x42 0 0 0 0)

/-- The instruction the decoder reads from a word numbered as spec/opcode_table.json numbers it:
format WIRE is one 24-bit word, with the table's own layout of the control byte, format HCMD one
64-bit word. -/
def decodeTableWord (nbits w : Nat) : Option Instr :=
  if nbits ≤ 32 then
    if w < 2 ^ 24 then decodeWire .default (BitVec.ofNat 24 w) else none
  else if w < 2 ^ 64 then decodeCmd (BitVec.ofNat 64 w)
  else none

end Sys2Proof
end

