-- ==== Sys2Proof/Machine/State.lean ====
section
/-! DEFINITION. The state of XPORT as plain data (10_state.md), the reasons a step can stop, and
the state after reset (10_state.md R37). -/

namespace Sys2Proof.Machine

/-- The phases of the frame engine (10_state.md R24); `finish` is the phase END. -/
inductive Phase where
  | idle
  | hdr
  | data
  | finish
  deriving DecidableEq, Repr

/-- One transport call `Xfer(p, rw, bsb, off, n, wdata)` (40_transport.md R130). -/
structure Call where
  dir : Dir
  bsb : Bsb
  off : Word
  count : Nat
  data : List Byte
  deriving DecidableEq, Repr

/-- What a port is doing: at rest (no operation, or its frame is on the bus), asking for the lock
(40_transport.md R133), or waiting between two polls (43_fifo_sequences.md R211). -/
inductive Act where
  | rest
  | asking (call : Call)
  | pausing (left : Nat)
  deriving DecidableEq, Repr

/-- Who called `BufRd` (41_ring_accessor.md R176): the requester, or RX.DEQ for the frame-length
header (43_fifo_sequences.md R232) or for the payload (R234). -/
inductive RdCont where
  | own
  | rxHeader (rsr rd : Word)
  | rxPayload (rsr rd hv : Word)
  deriving DecidableEq, Repr

/-- Who called `BufWr` (41_ring_accessor.md R175): the requester, or TX.ENQ with the pointer it
read (43_fifo_sequences.md R222). -/
inductive WrCont where
  | own
  | tx (wr len : Word)
  deriving DecidableEq, Repr

/-- Who called `SizeQuery` (42_size_query.md R191). -/
inductive SizeCont where
  | own
  | tx (len : Word)
  | rx
  deriving DecidableEq, Repr

/-- Who called `SockCmd` (43_fifo_sequences.md R211): the requester, TX.ENQ (R223), or RX.DEQ with
the results it will deliver (R235, R236). -/
inductive CmdCont where
  | own
  | tx
  | rx (rsr hv : Word) (payload : List Byte)
  deriving DecidableEq, Repr

/-- `SEQ[p].STEP` with the temporaries of the running operation (10_state.md R26): which transport
call is pending and what is done with its answer. `r` counts retries: the pairs of a size query that
disagreed (42_size_query.md R193), the misses of a send-complete poll (43_fifo_sequences.md R225). -/
inductive Seq where
  | none
  | xferRd
  | xferWr
  | ringRdWhole (k : RdCont)
  | ringRdTail (win : Bsb) (rest : Nat) (k : RdCont)
  | ringRdHead (tail : List Byte) (k : RdCont)
  | ringWrWhole (k : WrCont)
  | ringWrTail (win : Bsb) (rest : List Byte) (k : WrCont)
  | ringWrHead (k : WrCont)
  | sizeFirst (reg : Word) (r : Nat) (k : SizeCont)
  | sizeSecond (reg : Word) (a : List Byte) (r : Nat) (k : SizeCont)
  | cmdWrite (tmo : Nat) (k : CmdCont)
  | cmdPoll (t tmo : Nat) (k : CmdCont)
  | txPtr (len : Word)
  | txStore
  | txPoll (r : Nat)
  | txLive (r : Nat)
  | txClear
  | rxPtr (rsr : Word)
  | rxStore (rsr hv : Word) (payload : List Byte)
  deriving DecidableEq, Repr

/-- One requester port: operand registers (10_state.md R20), result registers (R22), step counter
(R26) and lock wait counter (R29). `result` and `lenOut` are `none` where R22 and R197 say that
they hold no value; a byte past the end of `rbuf` holds no value. -/
structure Port where
  opc : Byte
  bsb : Bsb
  off : Word
  len : Word
  aux : Word
  wbuf : List Byte
  busy : Bool
  done : Bool
  err : Status
  result : Option Word
  lenOut : Option Word
  rbuf : List Byte
  seq : Seq
  act : Act
  lockWait : Nat
  deriving DecidableEq, Repr

/-- The configuration registers 0 to 7 (10_state.md R30). -/
structure Cfg where
  fsclk : BitVec 8
  en : Bool
  cfgErr : Bool
  lockTmo : BitVec 32
  cmdTmo : Word
  pollInt : Word
  txPollMax : Word
  txPollLive : Word
  maxFrame : Word
  deriving DecidableEq, Repr

/-- `LOCK.HELD` and `LOCK.OWNER` (10_state.md R29). -/
structure Lock where
  held : Bool
  owner : Nat
  deriving DecidableEq, Repr

/-- The frame engine and its pins (10_state.md R24, R25, R33, R34, R35). `staged` is the header of
a frame whose transport call owns the lock and whose chip select is not yet active. The fields
`hdr` to `data` are the frame in progress, `sent` the bytes the master has driven in it and `got`
the payload bytes it has collected (`rdata`, 40_transport.md R137). -/
structure Engine where
  ph : Phase
  idx : Word
  bit : BitVec 3
  sho : Byte
  shi : Byte
  rxInline : Vector Byte 4
  csn : Bool
  sclk : Bool
  mosi : Bool
  staged : Option Header
  hdr : Header
  dir : Dir
  bsb : Bsb
  off : Word
  count : Nat
  data : List Byte
  sent : List Byte
  got : List Byte
  deriving DecidableEq, Repr

/-- One frame of the wire trace (00_scope.md R14): the bytes the master drove, header first, the
payload bytes the slave returned in a read frame, and whether the frame is complete or was cut
short (40_transport.md R143). -/
structure Frame where
  master : List Byte
  slave : List Byte
  whole : Bool
  deriving DecidableEq, Repr

/-- What happens next from outside the sequencers: a move of an agent that is no requester, or a
requester's access to the registers of 10_state.md R30 and to the buffers of R20 and R22, or the
reset input (70_reset_and_hazards.md R290) with what it leaves at the chip locations of a frame it
cuts (10_state.md R38). -/
inductive Event where
  | env (move : Env)
  | write (reg : Nat) (value : BitVec 64)
  | read (reg : Nat)
  | fill (port : Nat) (bytes : List Byte)
  | readBuf (port index : Nat)
  | reset (cut : List Byte)
  deriving DecidableEq, Repr

/-- The chip's memory. `cells` lists bytes at strictly rising addresses; an address is
`bsb * 65536 + off` (20_memory.md R60, R61). An address that is not listed holds the free value of
its block's entry in `epochs`, which a frame that leaves the block unknown renews (93 U2, U3, U19;
log 6, log 11, log 25). -/
structure Memory where
  cells : List Host.Cell
  epochs : Vector Nat 32
  deriving DecidableEq, Repr

/-- A chip of which nothing is known. -/
def Memory.empty : Memory where
  cells := []
  epochs := Vector.replicate 32 0

/-- The state. `params`, `mem` and `trace` are no registers of XPORT (10_state.md R23); `events`,
`sel`, `hostData` and `free` are the model's own (log 2, log 16, log 23). -/
structure State where
  params : Params
  cfg : Cfg
  more : Bool
  lock : Lock
  eng : Engine
  ports : List Port
  mem : Memory
  trace : List Frame
  events : List Event
  sel : Nat
  hostData : BitVec 64
  free : Nat
  deriving DecidableEq, Repr

/-- Why a step stops. None of them is raised inside an operation: operations end with a status
(60_exceptions.md R256), and the status `CorruptHeader` stops the step after. -/
inductive Fault where
  /-- A frame header is executed while no port owns the lock (10_state.md R29: chip select is
  active only while the lock is held). Raised by execWireRd and execWireWr; safe. -/
  | frameWithoutLock
  /-- A frame header is executed while another frame is on the wire (40_transport.md R138: one
  frame per activation). Raised by execWireRd and execWireWr; safe. -/
  | frameOverlap
  /-- A frame header whose bits outside the operand fields are not `OM` (a block select above 31 in a wider
  field among them, log 12), with no payload byte, fewer than `MIN_PAYLOAD`, more than 65535, or with a span
  past offset 65535 (30_encoding.md R113, 40_transport.md R131). Raised by execWireRd,
  execWireWr and the fetch of a staged header; safe. -/
  | frameMalformed
  /-- An operation has ended with `CorruptHeader`: the state is faulted and the machine stops there
  (43_fifo_sequences.md R233, 60_exceptions.md R251, 93 U8). Raised by the fetch of the next step;
  safe. -/
  | corruptHeader
  /-- Access to a register number that 10_state.md R30 does not list, or to a port that does not
  exist. Raised by register and buffer accesses and by starting an operation; safe. -/
  | noSuchRegister
  /-- A read of the write-only `PORT[p].CMD` (10_state.md R30). Raised by register reads; safe. -/
  | writeOnlyRegister
  /-- A read of `RESULT`, `LEN_OUT` or a byte of `RBUF` that holds no value (10_state.md R22,
  93 U6). Raised by register and buffer reads; safe. -/
  | noValue
  /-- A read of `RESULT`, `LEN_OUT` or `RBUF` while the port is busy (70_reset_and_hazards.md
  R308). Raised by register and buffer reads; safe. -/
  | resultWhileBusy
  deriving DecidableEq, Repr

/-- Why a step has no meaning in the model. -/
inductive Refusal where
  /-- An instruction that has no meaning yet. Raised by exec; safe. -/
  | notModelled (mnemonic : String)
  /-- A requester writes `WBUF` while its port is busy (10_state.md R21, 93 U12: refuse). Raised by
  the buffer write; safe. -/
  | wbufWhileBusy
  deriving DecidableEq, Repr

/-- What the next step runs: an instruction in the state it is executed in, or anything else with
its outcome. -/
inductive Fetched where
  | run (i : Instr) (s : State)
  | other (o : Host.Outcome State Fault Refusal)

/-- A port after reset (10_state.md R37); the fields R37 calls unspecified are zero or empty
(DESIGN CHOICE, log 7). -/
def Port.reset : Port where
  opc := 0
  bsb := 0
  off := 0
  len := 0
  aux := 0
  wbuf := []
  busy := false
  done := false
  err := .ok
  result := some 0
  lenOut := some 0
  rbuf := []
  seq := .none
  act := .rest
  lockWait := 0

/-- The configuration registers after reset (10_state.md R37); registers 2 to 7 are zero
(DESIGN CHOICE, log 7). -/
def Cfg.reset : Cfg where
  fsclk := 0
  en := false
  cfgErr := false
  lockTmo := 0
  cmdTmo := 0
  pollInt := 0
  txPollMax := 0
  txPollLive := 0
  maxFrame := 0

/-- The engine after reset: IDLE, `CSn` = 1, `SCLK` = 0, `MOSI` = 0 (10_state.md R37); the rest is
zero or empty (DESIGN CHOICE, log 7). -/
def Engine.reset : Engine where
  ph := .idle
  idx := 0
  bit := 0
  sho := 0
  shi := 0
  rxInline := #v[0, 0, 0, 0]
  csn := true
  sclk := false
  mosi := false
  staged := none
  hdr := 0
  dir := .rd
  bsb := 0
  off := 0
  count := 0
  data := []
  sent := []
  got := []

/-- The state after reset (10_state.md R37, 70_reset_and_hazards.md R290): two ports (00_scope.md
R8, `NREQ`), the default parameters, nothing known of the chip's contents. -/
def State.reset : State where
  params := .default
  cfg := .reset
  more := false
  lock := ⟨false, 0⟩
  eng := .reset
  ports := [.reset, .reset]
  mem := .empty
  trace := []
  events := []
  sel := 0
  hostData := 0
  free := 0

end Sys2Proof.Machine
end

