-- ==== Sys2Proof/Machine/Operands.lean ====
section
/-! DEFINITION. Operand arithmetic: byte order (20_memory.md R65), chip addresses (R60), the
argument checks of the operations, ring reduction and split (41_ring_accessor.md R171, R172), and
pointer sums (43_fifo_sequences.md R222, R235). -/

namespace Sys2Proof.Machine

/-- `hi8(v) = v[15:8]` (00_scope.md R10). -/
def hi8 (v : Word) : Byte := v.extractLsb' 8 8

/-- `lo8(v) = v[7:0]` (00_scope.md R10). -/
def lo8 (v : Word) : Byte := v.extractLsb' 0 8

/-- `be16(b0, b1) = b0 * 256 + b1` (00_scope.md R10, 30_encoding.md R107). -/
def be16 (b0 b1 : Byte) : Word := BitVec.ofNat 16 (b0.toNat * 256 + b1.toNat)

/-- The number the bytes of a register read stand for, the most significant first: `be16` of two bytes
(20_memory.md R65, 30_encoding.md R107). More bytes, which R7's widths exclude, are cut to the last two
(DESIGN CHOICE, log 13). -/
def numOf (bytes : List Byte) : Word := bytes.foldl (fun v b => v * 256#16 + b.setWidth 16) 0

/-- The `n` bytes that store a number, the most significant first: `[hi8(v), lo8(v)]` for two bytes
(20_memory.md R65). -/
def bytesOf (n : Nat) (v : Word) : List Byte :=
  (List.range n).map (fun i => (v >>> (8 * (n - 1 - i))).setWidth 8)

/-- The key of chip location `(bsb, off + i)` (20_memory.md R60, R69). -/
def chipAddr (bsb : Bsb) (off : Word) (i : Nat) : Nat :=
  bsb.toNat * Config.blockSize + off.toNat + i

/-- The argument checks of a transport call but for the enable (40_transport.md R131): at least one
payload byte and `MIN_PAYLOAD` (00_scope.md R7; above 1 a DESIGN CHOICE, log 13), none past offset 65535; a count is at most 65535, the
largest value `LEN` holds. -/
def xferArgsOk (P : Params) (off : Word) (n : Nat) : Bool :=
  decide (n ≠ 0) && decide (P.minPayload ≤ n) && decide (n ≤ 65535) && decide (off.toNat + n ≤ 65536)

/-- The window check of a buffer operation (41_ring_accessor.md R177). -/
def windowOk (P : Params) (win : Bsb) : Bool := win == P.bsbS0Tx || win == P.bsbS0Rx

/-- The length check of a buffer operation (41_ring_accessor.md R177). -/
def lengthOk (P : Params) (n : Nat) : Bool := decide (n ≤ P.window)

/-- `o = off mod WINDOW` (41_ring_accessor.md R171), as a 16-bit offset. -/
def ringOff (P : Params) (off : Word) : Word := BitVec.ofNat 16 (off.toNat % P.window)

/-- Whether a span of `n` bytes at ring offset `o` crosses the end of the window: the strict
comparison of 41_ring_accessor.md R172. -/
def crosses (P : Params) (o : Word) (n : Nat) : Bool := decide (P.window < o.toNat + n)

/-- `first = WINDOW - o`: the bytes of the tail before the wrap (41_ring_accessor.md R172). -/
def tailLen (P : Params) (o : Word) : Nat := P.window - o.toNat

/-- The spec leaves the chip's answer to a frame of `n` bytes at `(bsb, off)` open: the frame passes
offset `WINDOW` of a window, or its block is none that the spec names (93 U2, U3; 20_memory.md R62,
70_reset_and_hazards.md R303). -/
def wild (P : Params) (bsb : Bsb) (off : Word) (n : Nat) : Bool :=
  if windowOk P bsb then decide (P.window < off.toNat + n)
  else !(bsb == P.bsbCommon || bsb == P.bsbS0Reg)

/-- A pointer sum, modulo `PTR_MOD`, stored in 16 bits (43_fifo_sequences.md R222, R232, R235). -/
def ptrAdd (P : Params) (ptr : Word) (n : Nat) : Word := BitVec.ofNat 16 ((ptr.toNat + n) % P.ptrMod)

/-- `WBUF[i .. i+n-1]` of port `p` (10_state.md R20); a byte the requester has not supplied is a
free value (log 9). -/
def wbufBytes (p : Nat) (wbuf : List Byte) (i n : Nat) : List Byte :=
  (List.range n).map (fun j => (wbuf[i + j]?).getD (Config.wbufByte p (i + j)))

/-- `PhyAlive` (43_fifo_sequences.md R225): it depends on the byte alone. -/
def phyAlive (P : Params) (b : Byte) : Bool := P.phyAlive.getLsbD b.toNat

end Sys2Proof.Machine
end

