-- ==== Sys2Proof/Machine/Flags.lean ====
section
/-! DEFINITION. The flags of XPORT (10_state.md R27): `BUSY`, `DONE`, `ERR` of a port (R22), the
status codes (60_exceptions.md R250), and the enable gate (10_state.md R31). `MORE` is written in
Machine/RxSeq.lean alone (R28), the lock flags in Machine/Engine.lean (R29). -/

namespace Sys2Proof

/-- The code of a status, 3 bits (60_exceptions.md R250); 7 is never written. -/
def Status.code : Status → BitVec 3
  | .ok => 0
  | .timeout => 1
  | .invalidArgument => 2
  | .noMemory => 3
  | .unsupported => 4
  | .hardwareFault => 5
  | .corruptHeader => 6

end Sys2Proof

namespace Sys2Proof.Machine

/-- The flags at the start of an operation: `BUSY` set, `DONE` cleared (10_state.md R22); `RBUF`
holds no value while the port is busy (R33). -/
def Port.started (q : Port) : Port := { q with busy := true, done := false, rbuf := [] }

/-- The flags at the end of an operation with status `e`: `ERR <- e`, `BUSY <- 0`, `DONE <- 1`
(60_exceptions.md R256); the port is at rest and its temporaries hold no value (10_state.md R26). -/
def Port.ended (e : Status) (q : Port) : Port :=
  { q with busy := false, done := true, err := e, seq := .none, act := .rest }

/-- An end with an error: `RESULT`, `LEN_OUT` and every byte of `RBUF` hold no value
(10_state.md R22, 42_size_query.md R197, 43_fifo_sequences.md R237). -/
def Port.failed (e : Status) (q : Port) : Port :=
  { q.ended e with result := none, lenOut := none, rbuf := [] }

/-- `PORT[p].STATUS`: `BUSY` bit 0, `DONE` bit 1, `ERR` bits 4:2 (10_state.md R30). -/
def Port.statusBits (q : Port) : BitVec 64 :=
  BitVec.setWidth 64 (q.err.code ++ (BitVec.ofBool q.done ++ BitVec.ofBool q.busy))

/-- The valid range of the clock, which the enable gate accepts: `F_MIN <= CFG.FSCLK <= F_MAX`
(10_state.md R31, 40_transport.md R141). -/
def clockOk (P : Params) (fsclk : BitVec 8) : Bool :=
  decide (P.fMin ≤ fsclk.toNat) && decide (fsclk.toNat ≤ P.fMax)

/-- Writing `CFG.CTRL` with `EN` = 1 or 0 (10_state.md R31). A refused write of 1 leaves `EN`
unchanged and sets `CFGERR`; a successful one clears it; a write of 0 while a port is busy is
ignored (log 11). -/
def Cfg.writeEn (P : Params) (c : Cfg) (v anyBusy : Bool) : Cfg :=
  if v then
    if clockOk P c.fsclk then { c with en := true, cfgErr := false } else { c with cfgErr := true }
  else if anyBusy then c
  else { c with en := false }

/-- Writing `CFG.FSCLK`: the register takes the value (10_state.md R30). Outside the valid range an enabled
block becomes disabled, so that `EN` = 1 keeps the frequency in that range (40_transport.md R141,
70_reset_and_hazards.md R309), in the form of 92 D12: `EN` is not set and every operation ends
`InvalidArgument`. No rule gives this write of an enabled block (DESIGN CHOICE, log 11). `CFGERR` tells of
attempts to set `EN` (R30) and stays. -/
def Cfg.writeFsclk (P : Params) (c : Cfg) (v : BitVec 8) : Cfg :=
  { c with fsclk := v, en := c.en && clockOk P v }

end Sys2Proof.Machine
end

