-- ==== Sys2Proof/Machine/Ops.lean ====
section
/-! DEFINITION. The named operations over the chip's memory, the ports and the lock: reading and
writing one byte, `MemRead` and `MemWrite` (20_memory.md R70, R71, R73), a port's registers, the
end of an operation and `raise` (60_exceptions.md R256), and the start of a transport call
(40_transport.md R131, R133). -/

namespace Sys2Proof.Machine

/-- The listed byte at an address. -/
def cellsGet : List Host.Cell → Nat → Option Byte
  | [], _ => none
  | (b, v) :: m, a => if a = b then some v else cellsGet m a

/-- Storing one byte in a list that stays sorted with no repeats. -/
def cellsSet : List Host.Cell → Nat → Byte → List Host.Cell
  | [], a, v => [(a, v)]
  | (b, w) :: m, a, v =>
    if a < b then (a, v) :: (b, w) :: m
    else if a = b then (a, v) :: m
    else (b, w) :: cellsSet m a v

/-- Addresses strictly rise from `lo` on and lie in the chip address space. -/
def cellsWf : Nat → List Host.Cell → Bool
  | _, [] => true
  | lo, (a, _) :: m => decide (lo ≤ a) && decide (a < Config.chipSize) && cellsWf (a + 1) m

/-- The listed byte at an address, if there is one. -/
def Memory.get (m : Memory) (a : Nat) : Option Byte := cellsGet m.cells a

/-- Since when nothing is known of a block but its listed bytes: a number of the counter `free`. -/
def Memory.epoch (m : Memory) (block : Nat) : Nat := (m.epochs[block]?).getD 0

/-- The one byte the chip holds at an address: the listed one, else the free value of a location
nothing has been written to since the epoch of its block (log 6). -/
def Memory.read (m : Memory) (a : Nat) : Byte :=
  (m.get a).getD (Config.chipByte (m.epoch (a / Config.blockSize)) a)

/-- Storing one byte. -/
def Memory.set (m : Memory) (a : Nat) (v : Byte) : Memory := { m with cells := cellsSet m.cells a v }

/-- Nothing is known of a block any more: its listed bytes are dropped and a new epoch begins
(93 U2, U3). -/
def Memory.forget (block epoch : Nat) (m : Memory) : Memory where
  cells := m.cells.filter (fun c => c.1 / Config.blockSize != block)
  epochs := m.epochs.setIfInBounds block epoch

/-- Nothing is known of the chip any more (93 U19). -/
def Memory.forgetAll (epoch : Nat) : Memory where
  cells := []
  epochs := Vector.replicate 32 epoch

/-- The canonical form of memory: addresses strictly rising, all in the chip address space. An
unlisted address holds no known value, so no entry equals it. -/
def Memory.wf (m : Memory) : Bool := cellsWf 0 m.cells

/-- The chip's reaction to one byte of a write frame: the reference slave M0 (20_memory.md R73).
A write of `REG_CR` stores 0, and `CMD_SEND` also sets `IR_SENDOK`; a write of `REG_IR` clears
the bits written as 1; any other location stores the byte (log 5). -/
def chipStore (P : Params) (m : Memory) (a : Nat) (v : Byte) : Memory :=
  let cr := chipAddr P.bsbS0Reg P.regCr 0
  let ir := chipAddr P.bsbS0Reg P.regIr 0
  if a = cr then
    if v = P.cmdSend then (m.set cr 0).set ir ((m.set cr 0).read ir ||| P.irSendOk) else m.set cr 0
  else if a = ir then m.set ir (m.read ir &&& ~~~v)
  else m.set a v

/-- `MemRead`: `n` bytes from address `a` up (20_memory.md R70). -/
def memRead (m : Memory) (a n : Nat) : List Byte := (List.range n).map (fun i => m.read (a + i))

/-- `MemWrite`: the bytes `v` presented to the chip from address `a` up, in order
(20_memory.md R71). -/
def memWrite (P : Params) (m : Memory) (a : Nat) : List Byte → Memory
  | [] => m
  | v :: vs => memWrite P (chipStore P m a v) (a + 1) vs

/-- What a frame of `n` bytes at `(bsb, off)` does to the chip as it opens. `clocked` says that its
clock is in the valid range, as it is while the block is enabled (40_transport.md R141; a clause of the
invariant); outside it, where no run opens a frame, the spec says nothing of the chip, and all of it becomes
unknown (93 U19; DESIGN CHOICE, log 11). Its block becomes unknown where the spec leaves the chip's answer to the address open
(93 U2, U3; log 25). -/
def openMem (P : Params) (clocked : Bool) (m : Memory) (free : Nat) (bsb : Bsb) (off : Word) (n : Nat) :
    Memory :=
  if clocked then if wild P bsb off n then m.forget bsb.toNat (free + 1) else m
  else .forgetAll (free + 1)

/-- The chip's reaction to payload byte `i` of a write frame of `n` bytes at `(bsb, off)`: `chipStore`,
or nothing known where the frame's opening has made the chip or its block unknown (93 U2, U3, U19;
log 11, log 25). -/
def frameStore (P : Params) (clocked : Bool) (m : Memory) (bsb : Bsb) (off : Word) (n i : Nat) (v : Byte) :
    Memory :=
  if clocked && !wild P bsb off n then chipStore P m (chipAddr bsb off i) v else m

/-- The registers of port `p`. -/
def State.port (s : State) (p : Nat) : Port := (s.ports[p]?).getD Port.reset

/-- A change of the registers of port `p`; no other port is touched. -/
def State.modPort (s : State) (p : Nat) (f : Port → Port) : State :=
  { s with ports := s.ports.modify p f }

/-- Some `opr[p].BUSY = 1` (10_state.md R30). -/
def State.anyBusy (s : State) : Bool := s.ports.any (fun q => q.busy)

/-- `CFG.FSCLK` is in the valid range of the clock (40_transport.md R141). -/
def State.clocked (s : State) : Bool := clockOk s.params s.cfg.fsclk

/-- An operation ended with `CorruptHeader`: such a state is faulted, it is never a final state of a
claim about a safe run, and no step follows it (43_fifo_sequences.md R233, 60_exceptions.md R251,
93 U8; log 10). -/
def State.faulted (s : State) : Bool := s.ports.any (fun q => q.err == .corruptHeader)

/-- `raise E` in an operation of port `p` (60_exceptions.md R256): `ERR <- E`, `BUSY <- 0`,
`DONE <- 1`, the results hold no value, and no other state changes. A frame in progress has been
ended and the lock released by the one caller that can meet one, `failFrame`. -/
def raise (p : Nat) (e : Status) (s : State) : State := s.modPort p (Port.failed e)

/-- The successful end of an operation of port `p`, with its results `f` (60_exceptions.md R256). -/
def finish (p : Nat) (f : Port → Port) (s : State) : State := s.modPort p (fun q => (f q).ended .ok)

/-- The start of a transport call of port `p`: the argument checks before the lock
(40_transport.md R131), then the port asks for the lock with `LOCKWAIT[p] <- 0` (R133). `seq` says
what the answer is for. -/
def xcall (p : Nat) (c : Call) (seq : Seq) (s : State) : State :=
  if s.cfg.en && xferArgsOk s.params c.off c.count then
    s.modPort p (fun q => { q with seq := seq, act := .asking c, lockWait := 0 })
  else raise p .invalidArgument s

/-- A read call of `n` bytes at `(bsb, off)`. -/
def readCall (p : Nat) (bsb : Bsb) (off : Word) (n : Nat) (seq : Seq) (s : State) : State :=
  xcall p ⟨.rd, bsb, off, n, []⟩ seq s

/-- A write call of the bytes `v` at `(bsb, off)`. -/
def writeCall (p : Nat) (bsb : Bsb) (off : Word) (v : List Byte) (seq : Seq) (s : State) : State :=
  xcall p ⟨.wr, bsb, off, v.length, v⟩ seq s

end Sys2Proof.Machine
end

