-- ==== Sys2Proof/Machine/Engine.lean ====
section
/-! DEFINITION. The frame engine: shifting one byte at pin level (40_transport.md R139), the frame
byte by byte (R136, R137, R138; 10_state.md R24, R25), inline buffering (R142), and the lock
(R133, R135). -/

namespace Sys2Proof.Machine

/-- Bit `i` of a byte set to `b`. -/
def setBit (v : Byte) (i : Nat) (b : Bool) : Byte :=
  if b then v ||| (1#8 <<< i) else v &&& ~~~(1#8 <<< i)

/-- `ENG.SHO` loaded with the byte to send, `ENG.BIT` at 7 and that bit on `MOSI`, at the active edge
of `CSn` or the falling edge that ends the byte before (40_transport.md R139). -/
def loadByte (b : Byte) (e : Engine) : Engine := { e with sho := b, bit := 7, mosi := b.getLsbD 7 }

/-- The rising edge: `ENG.SHI[ENG.BIT] <- MISO` (40_transport.md R139). -/
def risingEdge (miso : Bool) (e : Engine) : Engine :=
  { e with sclk := true, shi := setBit e.shi e.bit.toNat miso }

/-- The falling edge puts the next bit of the byte on `MOSI`; after bit 0 the next byte's first bit
follows by `loadByte`, and after a frame's last byte `MOSI` keeps its bit (40_transport.md R139;
log 1). -/
def fallingEdge (e : Engine) : Engine :=
  if e.bit = 0 then { e with sclk := false }
  else { e with sclk := false, bit := e.bit - 1, mosi := e.sho.getLsbD (e.bit - 1).toNat }

/-- One clock cycle; the slave drives the bit of `miso` that `ENG.BIT` names. -/
def clockCycle (miso : Byte) (e : Engine) : Engine :=
  fallingEdge (risingEdge (miso.getLsbD e.bit.toNat) e)

/-- `n` clock cycles. -/
def cycles : Nat → Byte → Engine → Engine
  | 0, _, e => e
  | n + 1, miso, e => cycles n miso (clockCycle miso e)

/-- One byte: `ENG.SHO` loaded, then eight cycles with `ENG.BIT` from 7 down to 0, most significant
bit first on both lines (40_transport.md R139, 20_memory.md R67). `miso` is the byte the slave
drives. -/
def shiftByte (out miso : Byte) (e : Engine) : Engine := cycles 8 miso (loadByte out e)

/-- The byte the master sends next: a header byte, the filler of a read frame, a payload byte of a
write frame (40_transport.md R136, R137). -/
def outByte (e : Engine) : Option Byte :=
  match e.ph, e.dir with
  | .hdr, _ => some (headerByte e.hdr e.idx.toNat)
  | .data, .rd => some 0
  | .data, .wr => some (e.data.getD e.idx.toNat 0)
  | .idle, _ => none
  | .finish, _ => none

/-- The first bit of the next byte on `MOSI`, where there is one (40_transport.md R139). -/
def present (e : Engine) : Engine :=
  match outByte e with
  | some b => loadByte b e
  | none => e

/-- The lock is granted to port `p` (40_transport.md R133): `LOCK.HELD <- 1`, `LOCK.OWNER <- p`;
the frame of its call is staged in the engine. The port no longer waits, and `LOCKWAIT[p]` keeps its
last count (10_state.md R29 gives it no value then: DESIGN CHOICE, log 28). -/
def grant (p : Nat) (c : Call) (s : State) : State :=
  { s.modPort p (fun q => { q with act := .rest }) with
    lock := ⟨true, p⟩
    eng := { s.eng with staged := some (header s.params.ctrl c.dir c.bsb c.off), count := c.count, data := c.data } }

/-- One tick of a port that asks for the lock (40_transport.md R133). The arbiter's choice is the
order in which ports take their turns (R134). -/
def askTurn (p : Nat) (c : Call) (s : State) : State :=
  if !s.lock.held then grant p c s
  else if s.cfg.lockTmo.toNat ≤ (s.port p).lockWait then raise p .timeout s
  else s.modPort p (fun q => { q with lockWait := q.lockWait + 1 })

/-- Chip select becomes active for the frame with this direction and address, with the first bit of
the header on `MOSI` (40_transport.md R138, R139; 10_state.md R24: IDLE to HDR). -/
def openFrame (dir : Dir) (bsb : Bsb) (off : Word) (s : State) : State :=
  { s with
    mem := openMem s.params s.clocked s.mem s.free bsb off s.eng.count
    free := s.free + 1
    eng := present { s.eng with
      ph := .hdr, idx := 0, csn := false, staged := none
      hdr := header s.params.ctrl dir bsb off, dir := dir, bsb := bsb, off := off, sent := [], got := [] } }

/-- After a header byte: the next, or the phase DATA after the third (10_state.md R24, R25). -/
def headerAdvance (e : Engine) : Engine :=
  if e.idx.toNat < 2 then { e with idx := e.idx + 1 } else { e with ph := .data, idx := 0 }

/-- One header byte is sent; what the slave drives meanwhile is ignored (40_transport.md R136,
R137; 30_encoding.md R104). -/
def headerTurn (s : State) : State :=
  let b := headerByte s.eng.hdr s.eng.idx.toNat
  let e := shiftByte b (Config.misoByte s.free) s.eng
  { s with
    free := s.free + 1
    eng := present (headerAdvance { e with sent := e.sent ++ [b] }) }

/-- A collected byte of a read frame: into `RXINLINE` when the frame has at most `INLINE_MAX`
payload bytes, else straight to `rdata` (40_transport.md R142, 10_state.md R33). -/
def collect (P : Params) (b : Byte) (e : Engine) : Engine :=
  if e.count ≤ P.inlineMax then { e with rxInline := e.rxInline.setIfInBounds e.idx.toNat b }
  else { e with got := e.got ++ [b] }

/-- After payload byte `idx`: the next byte, or the phase END after the last (10_state.md R24,
R25). -/
def advance (e : Engine) : Engine :=
  if e.idx.toNat + 1 < e.count then { e with idx := e.idx + 1 } else { e with ph := .finish, idx := 0 }

/-- One payload byte of a read frame: the filler 0x00 out, the chip's byte in
(40_transport.md R137). The byte collected is the chip's; `ENG.SHI` holds that same byte after the
eight cycles (lemma shiftByte_eq of Laws/Engine.lean). -/
def readTurn (s : State) : State :=
  let b := s.mem.read (chipAddr s.eng.bsb s.eng.off s.eng.idx.toNat)
  let e := shiftByte 0 b s.eng
  { s with eng := present (advance (collect s.params b { e with sent := e.sent ++ [0] })) }

/-- One payload byte of a write frame: the byte out to the chip, MISO ignored
(40_transport.md R136). -/
def writeTurn (s : State) : State :=
  let b := s.eng.data.getD s.eng.idx.toNat 0
  let e := shiftByte b (Config.misoByte s.free) s.eng
  { s with
    free := s.free + 1
    mem := frameStore s.params s.clocked s.mem s.eng.bsb s.eng.off s.eng.count s.eng.idx.toNat b
    eng := present (advance { e with sent := e.sent ++ [b] }) }

/-- `rdata` at the end of a read frame: copied from `RXINLINE` on the inline path
(40_transport.md R142). -/
def rdataOf (P : Params) (e : Engine) : List Byte :=
  match e.dir with
  | .wr => []
  | .rd => if e.count ≤ P.inlineMax then e.rxInline.toList.take e.count else e.got

/-- The payload bytes the slave has returned so far in the frame: all of them at its end, those
before byte `idx` when the frame is cut short. -/
def slaveBytes (P : Params) (e : Engine) : List Byte :=
  match e.dir, e.ph with
  | .rd, .data => if e.count ≤ P.inlineMax then e.rxInline.toList.take e.idx.toNat else e.got
  | .rd, .finish => rdataOf P e
  | _, _ => []

/-- Chip select becomes inactive and the lock is released (40_transport.md R135, R138); the frame
is on the wire trace if chip select was active (00_scope.md R14). A frame that fails or is cut short
goes to IDLE from whatever phase it is in: 10_state.md R24 gives no phase to a frame that ends early
and 40_transport.md R143 says only that chip select is made inactive; `MOSI`, `ENG.SHO` and `ENG.BIT`
keep the bit last put on the line, the first of a byte that is not sent where there was one, since no
rule gives the line a level then (30_encoding.md R104) (DESIGN CHOICE, log 22).
`LOCK.OWNER` keeps the last owner while the lock is free, where R29 gives it no value (DESIGN
CHOICE, log 28). -/
def closeFrame (whole : Bool) (s : State) : State :=
  { s with
    lock := { s.lock with held := false }
    trace := if s.eng.ph = .idle then s.trace
      else ⟨s.eng.sent, slaveBytes s.params s.eng, whole⟩ :: s.trace
    eng := { s.eng with ph := .idle, idx := 0, csn := true, staged := none } }

end Sys2Proof.Machine
end

