-- ==== Sys2Proof/Machine/CmdSeq.lean ====
section
/-! DEFINITION. The socket command (43_fifo_sequences.md R210 to R213) as a sequence of transport
calls: its start, its poll, its wait. What follows a completed command is the caller's
(`CmdCont`). -/

namespace Sys2Proof.Machine

/-- `SockCmd(p, code, tmo)`: the write of the command register (43_fifo_sequences.md R211). -/
def cmdStart (p : Nat) (code : Byte) (tmo : Nat) (k : CmdCont) (s : State) : State :=
  writeCall p s.params.bsbS0Reg s.params.regCr [code] (.cmdWrite tmo k) s

/-- One poll of the command register, with `t` ticks waited so far (43_fifo_sequences.md R211). -/
def cmdPollCall (p : Nat) (t tmo : Nat) (k : CmdCont) (s : State) : State :=
  readCall p s.params.bsbS0Reg s.params.regCr 1 (.cmdPoll t tmo k) s

/-- A poll that did not read zero: `Timeout` when `t >= tmo`, else `wait(POLL_INT)` and
`t <- t + POLL_INT` (43_fifo_sequences.md R211). The lock is free during the wait (R135). -/
def cmdMissed (p : Nat) (t tmo : Nat) (k : CmdCont) (s : State) : State :=
  if tmo ≤ t then raise p .timeout s
  else
    s.modPort p (fun q =>
      { q with seq := .cmdPoll (t + s.cfg.pollInt.toNat) tmo k, act := .pausing s.cfg.pollInt.toNat })

/-- One tick of a port that waits between two polls (43_fifo_sequences.md R211, log 4). -/
def pauseTurn (p : Nat) (left : Nat) (s : State) : State :=
  match left with
  | left + 1 => s.modPort p (fun q => { q with act := .pausing left })
  | 0 =>
    match (s.port p).seq with
    | .cmdPoll t tmo k => cmdPollCall p t tmo k s
    | _ => s

end Sys2Proof.Machine
end

