-- ==== Sys2Proof/Machine/RingSeq.lean ====
section
/-! DEFINITION. The ring accessor (41_ring_accessor.md R170 to R181) as one or two transport calls.
What follows a completed transfer is the caller's (`RdCont`, `WrCont`). -/

namespace Sys2Proof.Machine

/-- `BufRd(p, win, off, len)` (41_ring_accessor.md R176): the checks of R177, then the first
transport call. `empty` is what follows an empty transfer, which makes no call. -/
def ringRd (p : Nat) (win : Bsb) (off : Word) (len : Nat) (k : RdCont) (empty : State → State)
    (s : State) : State :=
  if !s.cfg.en then raise p .invalidArgument s
  else if !windowOk s.params win then raise p .invalidArgument s
  else if !lengthOk s.params len then raise p .invalidArgument s
  else if len = 0 then empty s
  else if crosses s.params (ringOff s.params off) len then
    readCall p win (ringOff s.params off) (tailLen s.params (ringOff s.params off))
      (.ringRdTail win (len - tailLen s.params (ringOff s.params off)) k) s
  else readCall p win (ringOff s.params off) len (.ringRdWhole k) s

/-- After the tail of a split read: the head, from ring offset 0 (41_ring_accessor.md R172, R173). -/
def ringRdHeadCall (p : Nat) (win : Bsb) (rest : Nat) (k : RdCont) (tail : List Byte) (s : State) :
    State :=
  readCall p win 0 rest (.ringRdHead tail k) s

/-- `BufWr(p, win, off, len, data)` (41_ring_accessor.md R175): the checks of R177, then the first
transport call. `empty` is what follows an empty transfer. -/
def ringWr (p : Nat) (win : Bsb) (off : Word) (data : List Byte) (k : WrCont)
    (empty : State → State) (s : State) : State :=
  if !s.cfg.en then raise p .invalidArgument s
  else if !windowOk s.params win then raise p .invalidArgument s
  else if !lengthOk s.params data.length then raise p .invalidArgument s
  else if data.length = 0 then empty s
  else if crosses s.params (ringOff s.params off) data.length then
    writeCall p win (ringOff s.params off) (data.take (tailLen s.params (ringOff s.params off)))
      (.ringWrTail win (data.drop (tailLen s.params (ringOff s.params off))) k) s
  else writeCall p win (ringOff s.params off) data (.ringWrWhole k) s

/-- After the tail of a split write: the head, at ring offset 0 (41_ring_accessor.md R172, R173). -/
def ringWrHeadCall (p : Nat) (win : Bsb) (rest : List Byte) (k : WrCont) (s : State) : State :=
  writeCall p win 0 rest (.ringWrHead k) s

end Sys2Proof.Machine
end

