-- ==== Sys2Proof/Machine/SizeSeq.lean ====
section
/-! DEFINITION. The double read of a size register (42_size_query.md R190 to R193), as pairs of
transport calls. What follows an accepted value is the caller's (`SizeCont`). -/

namespace Sys2Proof.Machine

/-- The first read of a pair, after `r` pairs that disagreed (42_size_query.md R191). -/
def sizeStart (p : Nat) (reg : Word) (r : Nat) (k : SizeCont) (s : State) : State :=
  readCall p s.params.bsbS0Reg reg s.params.sizeLen (.sizeFirst reg r k) s

/-- The second read of a pair, whose first read gave `a` (42_size_query.md R191). -/
def sizeSecondCall (p : Nat) (reg : Word) (a : List Byte) (r : Nat) (k : SizeCont) (s : State) : State :=
  readCall p s.params.bsbS0Reg reg s.params.sizeLen (.sizeSecond reg a r k) s

/-- The error of a query that exceeds a finite `SIZE_RETRY_MAX`: the spec names none, so it is a free
choice among those that 60_exceptions.md R252 gives to every operation once it has made a transport
call (log 14). -/
def capError (n : Nat) : Status := if Config.capFault n then .hardwareFault else .timeout

/-- A pair that disagreed, after `r` others: a fresh pair, with no bound where `SIZE_RETRY_MAX` is
unbounded (42_size_query.md R191, R193), else up to that many retries (log 14). -/
def sizeRetry (p : Nat) (reg : Word) (r : Nat) (k : SizeCont) (s : State) : State :=
  match s.params.sizeRetryMax with
  | none => sizeStart p reg (r + 1) k s
  | some m => if m < r + 1 then raise p (capError s.free) s else sizeStart p reg (r + 1) k s

end Sys2Proof.Machine
end

