-- ==== Sys2Proof/Machine/RxSeq.lean ====
section
/-! DEFINITION. RX.DEQ, step by step (43_fifo_sequences.md R230 to R239), and with it the flag
`MORE` (10_state.md R28). -/

namespace Sys2Proof.Machine

/-- The first step, `MORE <- 0`, and then the size query (43_fifo_sequences.md R230, R231). -/
def rxStart (p : Nat) (s : State) : State :=
  sizeStart p s.params.regRxRsr 0 .rx { s with more := false }

/-- Step 1, after the size query: `rsr = 0` ends the operation with `LEN_OUT = 0`, else the read
pointer is read (43_fifo_sequences.md R231, R232). -/
def rxSizeKnown (p : Nat) (rsr : Word) (s : State) : State :=
  if rsr = 0 then finish p (fun q => { q with lenOut := some 0 }) s
  else readCall p s.params.bsbS0Reg s.params.regRxRd s.params.ptrLen (.rxPtr rsr) s

/-- Step 5: the read pointer advanced by `HDR_LEN + N` is stored (43_fifo_sequences.md R235). -/
def rxStorePtr (p : Nat) (rsr rd hv : Word) (payload : List Byte) (s : State) : State :=
  writeCall p s.params.bsbS0Reg s.params.regRxRd
    (bytesOf s.params.ptrLen (ptrAdd s.params rd (s.params.hdrLen + (hv.toNat - s.params.hdrLen))))
    (.rxStore rsr hv payload) s

/-- The header is possible: `HDR_LEN <= hv`, `hv <= rsr` and `hv - HDR_LEN <= MAX_FRAME`
(43_fifo_sequences.md R233). -/
def headerOk (P : Params) (maxFrame rsr hv : Word) : Bool :=
  decide (P.hdrLen ≤ hv.toNat) && decide (hv.toNat ≤ rsr.toNat) &&
    decide (hv.toNat - P.hdrLen ≤ maxFrame.toNat)

/-- Steps 3 and 4: the header is checked, then the `N = hv - HDR_LEN` payload bytes are read immediately
after it; `N = 0` makes no frame (43_fifo_sequences.md R233, R234). -/
def rxHeaderKnown (p : Nat) (rsr rd hv : Word) (s : State) : State :=
  if headerOk s.params s.cfg.maxFrame rsr hv then
    ringRd p s.params.bsbS0Rx (ptrAdd s.params rd s.params.hdrLen) (hv.toNat - s.params.hdrLen)
      (.rxPayload rsr rd hv)
      (rxStorePtr p rsr rd hv []) s
  else raise p .corruptHeader s

/-- Step 2, the frame-length header of `HDR_LEN` bytes through the ring accessor
(43_fifo_sequences.md R232, 00_scope.md R7); a header of no bytes, which R7's value excludes, makes no
call and stands for 0 (DESIGN CHOICE, log 13). -/
def rxPtrKnown (p : Nat) (rsr rd : Word) (s : State) : State :=
  ringRd p s.params.bsbS0Rx rd s.params.hdrLen (.rxHeader rsr rd) (rxHeaderKnown p rsr rd 0) s

/-- Step 6: the RECV command (43_fifo_sequences.md R235). -/
def rxRecv (p : Nat) (rsr hv : Word) (payload : List Byte) (s : State) : State :=
  cmdStart p s.params.cmdRecv s.cfg.cmdTmo.toNat (.rx rsr hv payload) s

/-- Step 7, the results: `MORE <- 1` if `rsr > hv`; `LEN_OUT <- N`; `RBUF <- d`
(43_fifo_sequences.md R236). -/
def rxDone (p : Nat) (rsr hv : Word) (payload : List Byte) (s : State) : State :=
  finish p (fun q => { q with lenOut := some (BitVec.ofNat 16 (hv.toNat - s.params.hdrLen)), rbuf := payload })
    { s with more := if hv.toNat < rsr.toNat then true else s.more }

end Sys2Proof.Machine
end

