-- ==== Sys2Proof/Machine/TxSeq.lean ====
section
/-! DEFINITION. TX.ENQ, step by step (43_fifo_sequences.md R220 to R228). -/

namespace Sys2Proof.Machine

/-- Step 1, after the free-size query: `NoMemory` if `len > free`, else the write pointer is read
(43_fifo_sequences.md R221, R222). -/
def txFreeKnown (p : Nat) (len free : Word) (s : State) : State :=
  if free.toNat < len.toNat then raise p .noMemory s
  else readCall p s.params.bsbS0Reg s.params.regTxWr s.params.ptrLen (.txPtr len) s

/-- Step 4: the advanced pointer is stored (43_fifo_sequences.md R222). -/
def txStorePtr (p : Nat) (wr len : Word) (s : State) : State :=
  writeCall p s.params.bsbS0Reg s.params.regTxWr (bytesOf s.params.ptrLen (ptrAdd s.params wr len.toNat))
    .txStore s

/-- Step 3: the frame goes into the TX window at the pointer as read (43_fifo_sequences.md R222). -/
def txPtrKnown (p : Nat) (len wr : Word) (s : State) : State :=
  ringWr p s.params.bsbS0Tx wr (wbufBytes p (s.port p).wbuf 0 len.toNat) (.tx wr len)
    (txStorePtr p wr len) s

/-- Step 5: the SEND command (43_fifo_sequences.md R223). -/
def txSend (p : Nat) (s : State) : State :=
  cmdStart p s.params.cmdSend s.cfg.cmdTmo.toNat .tx s

/-- Step 6: one read of the interrupt-status register, after `r` misses
(43_fifo_sequences.md R225). -/
def txPollCall (p : Nat) (r : Nat) (s : State) : State :=
  readCall p s.params.bsbS0Reg s.params.regIr 1 (.txPoll r) s

/-- The liveness check of the PHY configuration register, after `r` misses
(43_fifo_sequences.md R225). -/
def txLiveCall (p : Nat) (r : Nat) (s : State) : State :=
  readCall p s.params.bsbCommon s.params.regPhyCfg 1 (.txLive r) s

/-- What the interrupt-status byte `v` leads to (43_fifo_sequences.md R225, R226). The loop is R225's for
every pair of counts, one outside 00_scope.md R8's bound `0 < TXPOLL_LIVE < TXPOLL_MAX` too, for which the
spec gives no behaviour (DESIGN CHOICE, log 29). -/
def txPolled (p : Nat) (r : Nat) (v : Byte) (s : State) : State :=
  if v &&& s.params.irSendOk ≠ 0 then
    writeCall p s.params.bsbS0Reg s.params.regIr [s.params.irSendOk] .txClear s
  else if s.cfg.txPollMax.toNat < r + 1 then raise p .timeout s
  else if s.cfg.txPollLive.toNat < r + 1 then txLiveCall p (r + 1) s
  else txPollCall p (r + 1) s

/-- What the PHY configuration byte `g` leads to (43_fifo_sequences.md R225). -/
def txLived (p : Nat) (r : Nat) (g : Byte) (s : State) : State :=
  if phyAlive s.params g then txPollCall p r s else raise p .timeout s

end Sys2Proof.Machine
end

