-- ==== Sys2Proof/Machine/Sequencer.lean ====
section
/-! DEFINITION. The sequencer: what the answer of a transport call leads to (10_state.md R26,
43_fifo_sequences.md R214), one turn of a port, the environment's moves, and the shared start of
every operation (30_encoding.md R108). -/

namespace Sys2Proof.Machine

/-- After `BufRd` (41_ring_accessor.md R176; 43_fifo_sequences.md R232, R234). -/
def ringRdDone (p : Nat) (k : RdCont) (d : List Byte) (s : State) : State :=
  match k with
  | .own => finish p (fun q => { q with rbuf := d }) s
  | .rxHeader rsr rd => rxHeaderKnown p rsr rd (numOf d) s
  | .rxPayload rsr rd hv => rxStorePtr p rsr rd hv d s

/-- After `BufWr` (41_ring_accessor.md R175; 43_fifo_sequences.md R222). -/
def ringWrDone (p : Nat) (k : WrCont) (s : State) : State :=
  match k with
  | .own => finish p id s
  | .tx wr len => txStorePtr p wr len s

/-- After a size query (42_size_query.md R194, R195; 43_fifo_sequences.md R221, R231). -/
def sizeDone (p : Nat) (k : SizeCont) (v : Word) (s : State) : State :=
  match k with
  | .own => finish p (fun q => { q with result := some v }) s
  | .tx len => txFreeKnown p len v s
  | .rx => rxSizeKnown p v s

/-- After an accepted socket command (43_fifo_sequences.md R213, R224, R236). -/
def cmdDone (p : Nat) (k : CmdCont) (s : State) : State :=
  match k with
  | .own => finish p id s
  | .tx => txPollCall p 0 s
  | .rx rsr hv payload => rxDone p rsr hv payload s

/-- The next step of the operation of port `p` after its transport call ended `OK` with the bytes
`d`: the order of the pseudocode of files 40 to 43 (10_state.md R26). -/
def proceed (p : Nat) (d : List Byte) (s : State) : State :=
  match (s.port p).seq with
  | .none => s
  | .xferRd => finish p (fun q => { q with rbuf := d }) s
  | .xferWr => finish p id s
  | .ringRdWhole k => ringRdDone p k d s
  | .ringRdTail win rest k => ringRdHeadCall p win rest k d s
  | .ringRdHead tail k => ringRdDone p k (tail ++ d) s
  | .ringWrWhole k => ringWrDone p k s
  | .ringWrTail win rest k => ringWrHeadCall p win rest k s
  | .ringWrHead k => ringWrDone p k s
  | .sizeFirst reg r k => sizeSecondCall p reg d r k s
  | .sizeSecond reg a r k => if a = d then sizeDone p k (numOf a) s else sizeRetry p reg r k s
  | .cmdWrite tmo k => cmdPollCall p 0 tmo k s
  | .cmdPoll t tmo k => if d.getD 0 0 = 0 then cmdDone p k s else cmdMissed p t tmo k s
  | .txPtr len => txPtrKnown p len (numOf d) s
  | .txStore => txSend p s
  | .txPoll r => txPolled p r (d.getD 0 0) s
  | .txLive r => txLived p r (d.getD 0 0) s
  | .txClear => finish p id s
  | .rxPtr rsr => rxPtrKnown p rsr (numOf d) s
  | .rxStore rsr hv payload => rxRecv p rsr hv payload s

/-- The operation of port `p` passes on the error of its transport call unchanged and stops
(40_transport.md R144, 60_exceptions.md R258, 43_fifo_sequences.md R214). -/
def giveUp (p : Nat) (e : Status) (s : State) : State :=
  match (s.port p).seq with
  | .none => s
  | _ => raise p e s

/-- The end of a frame: chip select inactive, lock released, then the result is delivered
(40_transport.md R132, R135, R144). -/
def endFrame (p : Nat) (s : State) : State := proceed p (rdataOf s.params s.eng) (closeFrame true s)

/-- The next byte-level action of the frame of the port that owns the lock (10_state.md R24):
IDLE to HDR for a staged frame, then the bytes of HDR and DATA, then END to IDLE. -/
def frameTurn (p : Nat) (s : State) : State :=
  match s.eng.ph with
  | .idle =>
    match s.eng.staged.bind (wireTarget s.params.ctrl) with
    | some (dir, bsb, off) => openFrame dir bsb off s
    | none => s
  | .hdr => headerTurn s
  | .data => match s.eng.dir with
    | .rd => readTurn s
    | .wr => writeTurn s
  | .finish => endFrame p s

/-- One turn of port `p`: its frame's next action if it owns the lock, else one tick of what it
waits for. -/
def turn (p : Nat) (s : State) : State :=
  if s.lock.held && s.lock.owner == p then frameTurn p s
  else match (s.port p).act with
    | .rest => s
    | .asking c => askTurn p c s
    | .pausing left => pauseTurn p left s

/-- `k` turns of port `p`. -/
def turns (p : Nat) : Nat → State → State
  | 0, s => s
  | k + 1, s => turns p k (turn p s)

/-- The environment fails the frame of the transport call that holds the lock (40_transport.md R143):
chip select inactive, lock released, the transport call ends `HardwareFault` (log 22). With the lock
free the move does nothing. -/
def failFrame (s : State) : State :=
  if s.lock.held then giveUp s.lock.owner .hardwareFault (closeFrame false s) else s

/-- The end of a port's wait by `Timeout` before its count of ticks says so: a port that asks for a
lock another holds (40_transport.md R149), or that waits after a poll of the command register that
did not read zero (43_fifo_sequences.md R211; 60_exceptions.md R266; 93 U10; D29; log 4). -/
def expire (p : Nat) (s : State) : State :=
  match (s.port p).act with
  | .rest => s
  | .asking _ => if s.lock.held && s.lock.owner != p then raise p .timeout s else s
  | .pausing _ => raise p .timeout s

/-- A move of the environment. -/
def applyEnv (e : Env) (s : State) : State :=
  match e with
  | .turn p k => turns p k s
  | .chip a v => if a < Config.chipSize then { s with mem := s.mem.set a v } else s
  | .fault => failFrame s
  | .expire p => expire p s

/-- The moves at the head of `events` are taken while `going` holds, up to the next access of a
requester; the rest of the list stays (log 3). -/
def driveList (going : State → Bool) : List Event → State → State
  | [], s => { s with events := [] }
  | .env e :: es, s =>
    if going s then driveList going es (applyEnv e s) else { s with events := .env e :: es }
  | ev :: es, s => { s with events := ev :: es }

/-- Run on while `going` holds. -/
def drive (going : State → Bool) (s : State) : State := driveList going s.events s

/-- The port runs an operation. -/
def portBusy (p : Nat) (s : State) : Bool := (s.port p).busy

/-- The engine has a frame in progress. -/
def frameOn (s : State) : Bool := decide (s.eng.ph ≠ .idle)

/-- The write of a descriptor copies its fields into the operand registers (30_encoding.md R108)
and starts the operation (10_state.md R22). -/
def latch (opc : Byte) (bsb : Bsb) (off len aux : Word) (q : Port) : Port :=
  { q with opc := opc, bsb := bsb, off := off, len := len, aux := aux }

/-- The start of an operation on the selected port, then the machine runs on until the operation
ends or the listed moves do. A descriptor written to a busy port is ignored (30_encoding.md R108,
60_exceptions.md R274); while `EN = 0` the operation ends at once with `InvalidArgument`
(10_state.md R31). -/
def issue (opc : Byte) (bsb : Bsb) (off len aux : Word) (body : Nat → State → State) (s : State) :
    Host.Outcome State Fault Refusal :=
  if s.sel < s.ports.length then
    if (s.port s.sel).busy then .next s
    else
      let s1 := s.modPort s.sel (fun q => (latch opc bsb off len aux q).started)
      let s2 := if s.cfg.en then body s.sel s1 else raise s.sel .invalidArgument s1
      .next (drive (portBusy s.sel) s2)
  else .fault .noSuchRegister

/-- A descriptor that matches no row: the operation ends at once with `InvalidArgument`
(30_encoding.md R112). -/
def issueIllegal (d : Descriptor) (s : State) : Host.Outcome State Fault Refusal :=
  if s.sel < s.ports.length then
    if (s.port s.sel).busy then .next s
    else
      .next (raise s.sel .invalidArgument (s.modPort s.sel
        (fun q => (latch (opcOf d) (bsbOf d) (offOf d) (lenOf d) (auxOf d) q).started)))
  else .fault .noSuchRegister

/-- A frame header executed on the wire (30_encoding.md R103, R113): with the lock held, no frame in
progress, and the payload count of the engine, the frame opens and runs on until it ends or the
listed moves do. -/
def runFrame (dir : Dir) (bsb : Bsb) (off : Word) (s : State) : Host.Outcome State Fault Refusal :=
  if !s.lock.held then .fault .frameWithoutLock
  else if s.eng.ph ≠ .idle then .fault .frameOverlap
  else if !xferArgsOk s.params off s.eng.count then .fault .frameMalformed
  else .next (drive frameOn (openFrame dir bsb off s))

end Sys2Proof.Machine
end

