-- ==== Sys2Proof/Machine/Fifo.lean ====
section
/-! DEFINITION. SOCK.CMD, TX.ENQ and RX.DEQ (43_fifo_sequences.md R213, R227, R238). -/

namespace Sys2Proof.Machine

/-- SOCK.CMD: write the command register, then poll it until it reads zero or the timeout
(43_fifo_sequences.md R213). -/
def execSockCmd (code : Byte) (tmo : Word) (s : State) : Host.Outcome State Fault Refusal :=
  issue 0x30 0 0 (0#8 ++ code) tmo (fun p => cmdStart p code tmo.toNat .own) s

/-- TX.ENQ: one frame into the TX ring, then SEND; `LEN = 0` is `InvalidArgument` with no
transport call (43_fifo_sequences.md R220, R227). -/
def execTxEnq (len : Word) (s : State) : Host.Outcome State Fault Refusal :=
  issue 0x41 0 0 len 0
    (fun p s =>
      if len = 0 then raise p .invalidArgument s else sizeStart p s.params.regTxFsr 0 (.tx len) s) s

/-- RX.DEQ: one frame out of the RX ring, then RECV (43_fifo_sequences.md R230, R238). -/
def execRxDeq (s : State) : Host.Outcome State Fault Refusal :=
  issue 0x42 0 0 0 0 rxStart s

end Sys2Proof.Machine
end

