-- ==== Sys2Proof/Machine/Ring.lean ====
section
/-! DEFINITION. BUF.RD and BUF.WR (41_ring_accessor.md R175, R176). -/

namespace Sys2Proof.Machine

/-- BUF.RD: `LEN` bytes of ring window `BSB` from ring offset `OFF mod WINDOW` into `RBUF`
(41_ring_accessor.md R176). -/
def execBufRd (bsb : Bsb) (off len : Word) (s : State) : Host.Outcome State Fault Refusal :=
  issue 0x11 bsb off len 0
    (fun p => ringRd p bsb off len.toNat .own (finish p (fun q => { q with rbuf := [] }))) s

/-- BUF.WR: `LEN` bytes of `WBUF` into ring window `BSB` at ring offset `OFF mod WINDOW`
(41_ring_accessor.md R175). -/
def execBufWr (bsb : Bsb) (off len : Word) (s : State) : Host.Outcome State Fault Refusal :=
  issue 0x12 bsb off len 0
    (fun p s => ringWr p bsb off (wbufBytes p (s.port p).wbuf 0 len.toNat) .own (finish p id) s) s

end Sys2Proof.Machine
end

