-- ==== Sys2Proof/Machine/Size.lean ====
section
/-! DEFINITION. GET.TXFREE and GET.RXSIZE (42_size_query.md R194, R195). -/

namespace Sys2Proof.Machine

/-- GET.TXFREE: the double read of `REG_TX_FSR` into `RESULT` (42_size_query.md R194). -/
def execGetTxFree (s : State) : Host.Outcome State Fault Refusal :=
  issue 0x21 0 0 0 0 (fun p s => sizeStart p s.params.regTxFsr 0 .own s) s

/-- GET.RXSIZE: the double read of `REG_RX_RSR` into `RESULT` (42_size_query.md R195). -/
def execGetRxSize (s : State) : Host.Outcome State Fault Refusal :=
  issue 0x22 0 0 0 0 (fun p s => sizeStart p s.params.regRxRsr 0 .own s) s

end Sys2Proof.Machine
end

