-- ==== Sys2Proof/Machine/Transport.lean ====
section
/-! DEFINITION. XFER.RD and XFER.WR (40_transport.md R146, R147). -/

namespace Sys2Proof.Machine

/-- XFER.RD: one transport call that reads `LEN` bytes into `RBUF` (40_transport.md R146). -/
def execXferRd (bsb : Bsb) (off len : Word) (s : State) : Host.Outcome State Fault Refusal :=
  issue 0x01 bsb off len 0 (fun p => readCall p bsb off len.toNat .xferRd) s

/-- XFER.WR: one transport call that writes the `LEN` bytes of `WBUF` (40_transport.md R147). -/
def execXferWr (bsb : Bsb) (off len : Word) (s : State) : Host.Outcome State Fault Refusal :=
  issue 0x02 bsb off len 0
    (fun p s => writeCall p bsb off (wbufBytes p (s.port p).wbuf 0 len.toNat) .xferWr s) s

end Sys2Proof.Machine
end

