-- ==== Sys2Proof/Machine/Wire.lean ====
section
/-! DEFINITION. The two wire frames, WIRE.RD and WIRE.WR (40_transport.md R136, R137). -/

namespace Sys2Proof.Machine

/-- WIRE.RD: a read frame of `ENG`'s payload count at `(bsb, off)` (40_transport.md R137). -/
def execWireRd (bsb : Bsb) (off : Word) (s : State) : Host.Outcome State Fault Refusal :=
  runFrame .rd bsb off s

/-- WIRE.WR: a write frame of `ENG`'s payload at `(bsb, off)` (40_transport.md R136). -/
def execWireWr (bsb : Bsb) (off : Word) (s : State) : Host.Outcome State Fault Refusal :=
  runFrame .wr bsb off s

end Sys2Proof.Machine
end

