-- ==== Sys2Proof/Machine/Dispatch.lean ====
section
/-! DEFINITION. The dispatch: one arm per row of spec/opcode_table.json. -/

namespace Sys2Proof.Machine

def exec (i : Instr) (s : State) : Host.Outcome State Fault Refusal :=
  match i with
  | .wireRd bsb off => Sys2Proof.Machine.execWireRd bsb off s
  | .wireWr bsb off => Sys2Proof.Machine.execWireWr bsb off s
  | .xferRd bsb off len => Sys2Proof.Machine.execXferRd bsb off len s
  | .xferWr bsb off len => Sys2Proof.Machine.execXferWr bsb off len s
  | .bufRd bsb off len => Sys2Proof.Machine.execBufRd bsb off len s
  | .bufWr bsb off len => Sys2Proof.Machine.execBufWr bsb off len s
  | .getTxFree => Sys2Proof.Machine.execGetTxFree s
  | .getRxSize => Sys2Proof.Machine.execGetRxSize s
  | .sockCmd code tmo => Sys2Proof.Machine.execSockCmd code tmo s
  | .txEnq len => Sys2Proof.Machine.execTxEnq len s
  | .rxDeq => Sys2Proof.Machine.execRxDeq s

end Sys2Proof.Machine
end

