-- ==== Sys2Proof/Machine/Request.lean ====
section
/-! DEFINITION. A requester's access to the register list (10_state.md R30, R31), to its buffers
(R20, R22), the reset input (70_reset_and_hazards.md R290, 10_state.md R38), and the fetch of what
the next step runs. -/

namespace Sys2Proof.Machine

/-- The port whose `PORT[p].CMD` has register number `n = 19 + 4p` (10_state.md R30). -/
def cmdPort (n : Nat) : Option Nat := if 19 ≤ n ∧ n % 4 = 3 then some (n / 4 - 4) else none

/-- The port of register number `n = 16 + 4p .. 19 + 4p` (10_state.md R30). -/
def regPort (n : Nat) : Nat := n / 4 - 4

/-- A register "RW while no port is busy": the write is ignored when some port is busy
(10_state.md R30). -/
def idleWrite (f : Cfg → Cfg) (s : State) : State :=
  if s.anyBusy then s else { s with cfg := f s.cfg }

/-- A write to register `n` other than a command register (10_state.md R30): read-only registers
and reserved bits ignore it, a number that is not in the list does not exist. Registers 5 and 6 take every
value, a pair outside 00_scope.md R8's bound `0 < TXPOLL_LIVE < TXPOLL_MAX` too (DESIGN CHOICE, log 29). -/
def regWrite (n : Nat) (v : BitVec 64) (s : State) : Host.Outcome State Fault Refusal :=
  match n with
  | 0 => .next (idleWrite (fun c => c.writeFsclk s.params (v.setWidth 8)) s)
  | 1 => .next { s with cfg := s.cfg.writeEn s.params (v.getLsbD 0) s.anyBusy }
  | 2 => .next (idleWrite (fun c => { c with lockTmo := v.setWidth 32 }) s)
  | 3 => .next (idleWrite (fun c => { c with cmdTmo := v.setWidth 16 }) s)
  | 4 => .next (idleWrite (fun c => { c with pollInt := v.setWidth 16 }) s)
  | 5 => .next (idleWrite (fun c => { c with txPollMax := v.setWidth 16 }) s)
  | 6 => .next (idleWrite (fun c => { c with txPollLive := v.setWidth 16 }) s)
  | 7 => .next (idleWrite (fun c => { c with maxFrame := v.setWidth 16 }) s)
  | 8 => .next s
  | n => if 16 ≤ n ∧ regPort n < s.ports.length then .next s else .fault .noSuchRegister

/-- `DEV.STATUS`: `MORE` bit 0, `LOCK_HELD` bit 1, `LOCK_OWNER` bits 7:4, bits 3:2 reserved zero
(10_state.md R30); the owner field is meaningful only while the lock is held, else it is a free
value (log 18). -/
def devStatus (s : State) : BitVec 64 :=
  BitVec.setWidth 64
    ((if s.lock.held then BitVec.ofNat 4 s.lock.owner else Config.ownerBits s.free) ++
      (0#2 ++ (BitVec.ofBool s.lock.held ++ BitVec.ofBool s.more)))

/-- A result register that may hold no value, and must not be read while the port is busy
(10_state.md R22, 93 U6, 70_reset_and_hazards.md R308). -/
def resultRead (q : Port) (r : Option Word) : Except Fault (BitVec 64) :=
  if q.busy then .error .resultWhileBusy
  else match r with
    | some v => .ok (v.setWidth 64)
    | none => .error .noValue

/-- A read of one of the four registers of port `q` (10_state.md R30). -/
def portRead (q : Port) (k : Nat) : Except Fault (BitVec 64) :=
  match k with
  | 0 => .ok q.statusBits
  | 1 => resultRead q q.result
  | 2 => resultRead q q.lenOut
  | _ => .error .writeOnlyRegister

/-- The value of register `n` (10_state.md R30). -/
def regRead (n : Nat) (s : State) : Except Fault (BitVec 64) :=
  match n with
  | 0 => .ok (s.cfg.fsclk.setWidth 64)
  | 1 => .ok (BitVec.setWidth 64 (BitVec.ofBool s.cfg.cfgErr ++ BitVec.ofBool s.cfg.en))
  | 2 => .ok (s.cfg.lockTmo.setWidth 64)
  | 3 => .ok (s.cfg.cmdTmo.setWidth 64)
  | 4 => .ok (s.cfg.pollInt.setWidth 64)
  | 5 => .ok (s.cfg.txPollMax.setWidth 64)
  | 6 => .ok (s.cfg.txPollLive.setWidth 64)
  | 7 => .ok (s.cfg.maxFrame.setWidth 64)
  | 8 => .ok (devStatus s)
  | n =>
    if 16 ≤ n ∧ regPort n < s.ports.length then portRead (s.port (regPort n)) (n % 4)
    else .error .noSuchRegister

/-- Byte `i` of `RBUF` of port `p` (10_state.md R22): a byte the last operation did not write holds
no value (93 U6). -/
def bufRead (p i : Nat) (s : State) : Except Fault (BitVec 64) :=
  if p < s.ports.length then
    if (s.port p).busy then .error .resultWhileBusy
    else match (s.port p).rbuf[i]? with
      | some b => .ok (b.setWidth 64)
      | none => .error .noValue
  else .error .noSuchRegister

/-- The value a requester reads, or the fault of the read. -/
def answer (r : Except Fault (BitVec 64)) (s : State) : Host.Outcome State Fault Refusal :=
  match r with
  | .ok v => .next { s with hostData := v, free := s.free + 1 }
  | .error f => .fault f

/-- A requester supplies the payload `WBUF` (10_state.md R20), which it must not do while its port
is busy (R21, 93 U12: refuse). A fill replaces the whole of `WBUF`, earlier bytes past its end too, and
`WBUF` stays filled after an operation: R20 says only that the requester writes it and that operands
carry no meaning between operations (DESIGN CHOICE, log 27). -/
def fillBuf (p : Nat) (bytes : List Byte) (s : State) : Host.Outcome State Fault Refusal :=
  if p < s.ports.length then
    if (s.port p).busy then .refused .wbufWhileBusy
    else .next (s.modPort p (fun q => { q with wbuf := bytes }))
  else .fault .noSuchRegister

/-- What the chip holds at the `n` locations from `a` up after a frame cut short by a reset: any
value (10_state.md R38, 93 U11); the values are the event's, and free where it lists none. -/
def cutWrite (cut : List Byte) (free a : Nat) : Nat → Memory → Memory
  | 0, m => m
  | n + 1, m =>
    (cutWrite cut free a n m).set (a + n) ((cut[n]?).getD (Config.cutByte (free + n)))

/-- The reset input (70_reset_and_hazards.md R290, 10_state.md R37, R38): every register of XPORT
takes its reset value; the chip is not reset, but a frame in progress is cut short. -/
def resetBlock (cut : List Byte) (s : State) : State :=
  let c := closeFrame false s
  { s with
    cfg := .reset
    more := false
    lock := ⟨false, 0⟩
    eng := .reset
    ports := s.ports.map (fun _ => Port.reset)
    mem :=
      if s.eng.ph = .idle then s.mem
      else cutWrite cut s.free (chipAddr s.eng.bsb s.eng.off 0) s.eng.count s.mem
    trace := c.trace
    free := s.free + s.eng.count }

/-- The next event is a reset or a failure, which also meet a frame that is granted and not yet
opened (10_state.md R38, 40_transport.md R143; log 16). -/
def State.cutNext (s : State) : Bool :=
  match s.events with
  | .reset _ :: _ => true
  | .env .fault :: _ => true
  | _ => false

/-- What the first of `events` is: a write of `PORT[p].CMD` is a descriptor (30_encoding.md R108); with
nothing listed, the environment's free move. -/
def fetchEvent (s : State) : Fetched :=
  match s.events with
  | [] => .other (.next (applyEnv (Config.freeEnv s.free) { s with free := s.free + 1 }))
  | .env e :: es => .other (.next (applyEnv e { s with events := es }))
  | .write n v :: es =>
    match cmdPort n with
    | some p =>
      match decodeCmd v with
      | some i => .run i { s with events := es, sel := p }
      | none => .other (issueIllegal v { s with events := es, sel := p })
    | none => .other (regWrite n v { s with events := es })
  | .read n :: es => .other (answer (regRead n s) { s with events := es })
  | .fill p bytes :: es => .other (fillBuf p bytes { s with events := es })
  | .readBuf p i :: es => .other (answer (bufRead p i s) { s with events := es })
  | .reset cut :: es => .other (.next (resetBlock cut { s with events := es }))

/-- What the next step runs (log 16). A faulted state stops (log 10). A staged frame header, which the
chip side decodes, comes before what `events` holds, but for a reset or a failure; else the first of
`events`. -/
def fetch (s : State) : Fetched :=
  if s.faulted then .other (.fault .corruptHeader)
  else match s.eng.staged, s.cutNext with
    | some h, false =>
      match decodeWire s.params.ctrl h with
      | some i => .run i s
      | none => .other (.fault .frameMalformed)
    | _, _ => fetchEvent s

/-- The state in which the very next step runs the word `w` (log 16): a 24-bit header is staged in
the engine as the granted frame of port 0 with one payload byte; a 64-bit descriptor is the next
write of `PORT[0].CMD`. -/
def placeWord (s : State) (nbits w : Nat) : State :=
  if nbits ≤ 32 then
    { s with
      lock := ⟨true, 0⟩
      events := if s.cutNext then [] else s.events
      eng := { s.eng with staged := some (BitVec.ofNat 24 w), ph := .idle, csn := true, count := 1, data := [0] } }
  else
    { s with
      events := .write 19 (BitVec.ofNat 64 w) :: s.events
      eng := { s.eng with staged := none } }

end Sys2Proof.Machine
end

