-- ==== Sys2Proof/Machine/Step.lean ====
section
/-! DEFINITION. One step: what is fetched is executed (30_encoding.md R108, R116). -/

namespace Sys2Proof.Machine

/-- One step of the machine. -/
def step (s : State) : Host.Outcome State Fault Refusal :=
  match fetch s with
  | .run i s' => exec i s'
  | .other o => o

/-- `s` with the word stored where the next step fetches it. -/
def State.withFetchWord (s : State) (nbits w : Nat) : State := placeWord s nbits w

end Sys2Proof.Machine
end

