-- ==== Sys2Proof/WellFormed.lean ====
section
/-! DEFINITION. Well-formed instructions: those whose operands pass the argument checks of the
operation's own rule, the checks that are made before any transport call. An instruction that is
not well formed still decodes; it ends `InvalidArgument` (60_exceptions.md R252). -/

namespace Sys2Proof

/-- The span of a transport call: at least one byte and `MIN_PAYLOAD`, none past offset 65535
(40_transport.md R131, 00_scope.md R7; log 13). -/
def xferSpanOk (P : Params) (off : Word) (len : Nat) : Bool :=
  decide (len ≠ 0) && decide (P.minPayload ≤ len) && decide (off.toNat + len ≤ Config.blockSize)

/-- A buffer operation addresses one of the two ring windows (41_ring_accessor.md R177). -/
def isWindow (P : Params) (bsb : Bsb) : Bool := bsb == P.bsbS0Tx || bsb == P.bsbS0Rx

/-- The length of a buffer operation is at most one window (41_ring_accessor.md R177). -/
def ringLenOk (P : Params) (len : Nat) : Bool := decide (len ≤ P.window)

/-- The operand checks of each operation: XFER R131, BUF R177, TX.ENQ R220; the others have none. -/
def Instr.wellFormed (P : Params) : Instr → Bool
  | .wireRd _ _ => true
  | .wireWr _ _ => true
  | .xferRd _ off len => xferSpanOk P off len.toNat
  | .xferWr _ off len => xferSpanOk P off len.toNat
  | .bufRd bsb _ len => isWindow P bsb && ringLenOk P len.toNat
  | .bufWr bsb _ len => isWindow P bsb && ringLenOk P len.toNat
  | .getTxFree => true
  | .getRxSize => true
  | .sockCmd _ _ => true
  | .txEnq len => decide (len ≠ 0)
  | .rxDeq => true

/-- The parameters are usable with the reference slave M0 (20_memory.md R73): the header carries every
address (30_encoding.md R101, R103); a pointer, a size and a frame-length header have one or two bytes,
which 16-bit registers hold (10_state.md R22), and one payload byte makes a frame (20_memory.md R69);
a window has 2 to 65535 bytes (a frame-length header fits it, and `LEN` holds its length) and an inline
read fits `RXINLINE` (10_state.md R33); the pointer and size registers lie inside their block, the
register blocks are no windows (20_memory.md R62), the command and the interrupt-status registers
differ, and the send-complete mask is not empty. R7's values and R8's defaults are. -/
def Params.ok (P : Params) : Bool :=
  P.ctrl.ok && decide (1 ≤ P.ptrLen) && decide (P.ptrLen ≤ 2) && decide (1 ≤ P.sizeLen) &&
  decide (P.sizeLen ≤ 2) && decide (1 ≤ P.hdrLen) && decide (P.hdrLen ≤ 2) && decide (P.minPayload ≤ 1) &&
  decide (2 ≤ P.window) && decide (P.window ≤ 65535) && decide (P.inlineMax ≤ 4) &&
  !isWindow P P.bsbS0Reg && !isWindow P P.bsbCommon &&
  decide (P.regTxFsr.toNat + 2 ≤ Config.blockSize) && decide (P.regTxWr.toNat + 2 ≤ Config.blockSize) &&
  decide (P.regRxRsr.toNat + 2 ≤ Config.blockSize) && decide (P.regRxRd.toNat + 2 ≤ Config.blockSize) &&
  decide (P.regCr ≠ P.regIr) && decide (P.irSendOk ≠ 0)

end Sys2Proof
end

