-- ==== Sys2Proof/Safety.lean ====
section
/-! DEFINITION. What counts as a safe run, and the terms claims use: a state that listens, a port that can
start an operation, the bus at rest, and the invariant of the machine. -/

namespace Sys2Proof.Machine

/-- The next step takes the first of `events`: no frame is staged and the state is not faulted. -/
def State.listening (s : State) : Prop := s.eng.staged = none ∧ s.faulted = false

/-- No frame is staged or in progress and chip select is inactive (10_state.md R24). -/
def Engine.atRest (e : Engine) : Prop := e.ph = .idle ∧ e.staged = none ∧ e.csn = true

/-- The selected port exists and runs no operation, the block is enabled, the lock is free and the
engine is at rest: an operation started now is granted the lock at once (40_transport.md R133). -/
def State.ready (s : State) : Prop :=
  s.sel < s.ports.length ∧ (s.port s.sel).busy = false ∧ s.cfg.en = true ∧
    s.lock.held = false ∧ s.eng.atRest

/-- The registers of a port whose operation, started by the descriptor with these fields, has ended
with status `e` (30_encoding.md R108, 60_exceptions.md R256): `BUSY` 0, `DONE` 1, `ERR` = `e`, no
step pending, and in `RBUF` nothing but what a claim adds. -/
def Port.after (opc : Byte) (bsb : Bsb) (off len aux : Word) (e : Status) (q : Port) : Port :=
  { q with
    opc := opc, bsb := bsb, off := off, len := len, aux := aux
    busy := false, done := true, err := e, rbuf := [], seq := .none, act := .rest }

/-- The same for an end with an error: `RESULT` and `LEN_OUT` hold no value either
(10_state.md R22). -/
def Port.afterError (opc : Byte) (bsb : Bsb) (off len aux : Word) (e : Status) (q : Port) : Port :=
  { q.after opc bsb off len aux e with result := none, lenOut := none }

/-- A complete read frame that returned the bytes `d` (40_transport.md R137). -/
def readFrame (P : Params) (bsb : Bsb) (off : Word) (d : List Byte) : Frame :=
  ⟨headerBytes P.ctrl .rd bsb off ++ List.replicate d.length 0, d, true⟩

/-- A complete write frame of the bytes `v` (40_transport.md R136). -/
def writeFrame (P : Params) (bsb : Bsb) (off : Word) (v : List Byte) : Frame :=
  ⟨headerBytes P.ctrl .wr bsb off ++ v, [], true⟩

/-- The chip after a whole write frame of the bytes `v` at `(bsb, off)`, the model's counter of free
values at `free`: `MemWrite` of the bytes where the spec gives the chip's answer (20_memory.md R71;
93 U2, U3, U19; log 11, log 25). -/
def frameWrite (P : Params) (clocked : Bool) (m : Memory) (free : Nat) (bsb : Bsb) (off : Word)
    (v : List Byte) : Memory :=
  if clocked && !wild P bsb off v.length then memWrite P m (chipAddr bsb off 0) v
  else openMem P clocked m free bsb off v.length

/-- The chip location of ring offset `(off + i) mod WINDOW` (41_ring_accessor.md R173). -/
def ringAddr (P : Params) (win : Bsb) (off : Word) (i : Nat) : Nat :=
  win.toNat * Config.blockSize + (off.toNat + i) % P.window

/-- The `n` bytes of a ring window from ring offset `off mod WINDOW` on, wrapping at its end. -/
def ringRead (P : Params) (m : Memory) (win : Bsb) (off : Word) (n : Nat) : List Byte :=
  (List.range n).map (fun i => m.read (ringAddr P win off i))

/-- The bytes of a ring transfer before the end of the window (41_ring_accessor.md R172). -/
def ringTail (P : Params) (off : Word) : Nat := P.window - off.toNat % P.window

/-- The chip's memory after the transfers of a ring write (41_ring_accessor.md R172): the tail at
`off mod WINDOW`, then the head at 0 when the span crosses the end of the window. -/
def ringWrite (P : Params) (m : Memory) (win : Bsb) (off : Word) (v : List Byte) : Memory :=
  if ringTail P off < v.length then
    memWrite P (memWrite P m (ringAddr P win off 0) (v.take (ringTail P off)))
      (win.toNat * Config.blockSize) (v.drop (ringTail P off))
  else memWrite P m (ringAddr P win off 0) v

/-- The frames of a ring read that returns the bytes `d`, newest first: none, one, or two
(41_ring_accessor.md R172, R180). -/
def ringRdFrames (P : Params) (win : Bsb) (off : Word) (d : List Byte) : List Frame :=
  if d.length = 0 then []
  else if ringTail P off < d.length then
    [readFrame P win 0 (d.drop (ringTail P off)), readFrame P win (ringOff P off) (d.take (ringTail P off))]
  else [readFrame P win (ringOff P off) d]

/-- The frames of a ring write, newest first: none, one, or two (41_ring_accessor.md R172, R180). -/
def ringWrFrames (P : Params) (win : Bsb) (off : Word) (v : List Byte) : List Frame :=
  if v.length = 0 then []
  else if ringTail P off < v.length then
    [writeFrame P win 0 (v.drop (ringTail P off)), writeFrame P win (ringOff P off) (v.take (ringTail P off))]
  else [writeFrame P win (ringOff P off) v]

/-- Only turns of port `p` are listed next: no other agent moves and no requester acts. -/
def State.solo (s : State) (p : Nat) : Prop := ∀ ev ∈ s.events, ∃ k, ev = .env (.turn p k)

/-- The frame held by the engine is one XPORT may produce: 1 to 65535 payload bytes, none past
offset 65535 (30_encoding.md R113, 40_transport.md R131); `ENG.IDX` counts within its phase
(10_state.md R25). -/
def Engine.bounded (e : Engine) : Prop :=
  1 ≤ e.count ∧ e.count ≤ 65535 ∧ e.off.toNat + e.count ≤ 65536 ∧
    (e.ph = .hdr → e.idx.toNat < 3) ∧ (e.ph = .data → e.idx.toNat < e.count)

/-- The invariant of the machine: memory keeps its canonical form; the layout of the header carries
every address; a frame is staged or in progress exactly while the lock is held, and the owner is a port
(10_state.md R29);
chip select is active exactly while a frame is in progress (40_transport.md R138); the serial clock
idles low (R139); a frame in progress is bounded and its header is the one its address gives; a staged
header is one the decoder accepts and its span lies in its block; a port that is not busy is at rest and
has no step pending (10_state.md R26); a call that asks for the lock has passed the argument checks
(40_transport.md R131); no port has the status `Unsupported` (60_exceptions.md R252, R254); the clock of an
enabled block is in its valid range (40_transport.md R141, 10_state.md R31). -/
structure State.Inv (s : State) : Prop where
  mem : s.mem.wf = true
  layout : s.params.ctrl.ok = true
  bus : s.lock.held = true ↔ (s.eng.ph ≠ .idle ∨ s.eng.staged ≠ none)
  owner : s.lock.held = true → s.lock.owner < s.ports.length
  csn : s.eng.csn = true ↔ s.eng.ph = .idle
  sclk : s.eng.sclk = false
  frame : s.eng.ph ≠ .idle → s.eng.bounded ∧
    s.eng.hdr = header s.params.ctrl s.eng.dir s.eng.bsb s.eng.off
  staged : ∀ h, s.eng.staged = some h → s.eng.ph = .idle ∧ 1 ≤ s.eng.count ∧ s.eng.count ≤ 65535 ∧
    ∃ dir bsb off, h = header s.params.ctrl dir bsb off ∧ off.toNat + s.eng.count ≤ 65536
  rest : ∀ q ∈ s.ports, q.busy = false → q.seq = .none ∧ q.act = .rest
  asking : ∀ q ∈ s.ports, ∀ c, q.act = .asking c → xferArgsOk s.params c.off c.count = true
  status : ∀ q ∈ s.ports, q.err ≠ .unsupported
  clock : s.cfg.en = true → s.clocked = true

end Sys2Proof.Machine
end

