-- ==== Sys2Proof/Certificates/Slice0/Obligations.lean ====
section
/-! DEFINITION. The statements for the provers, from the numbered rules of spec/. A premise
`s.events = .env (.turn s.sel k) :: rest` says that the next thing listed is `k` turns of the
selected port (log 2, log 4): no other port, no chip move and no failure comes between, the named
premises of 40_transport.md R143 and 20_memory.md R79. `s.params.ok` says that the parameters of
00_scope.md R7 and R8 are usable with the reference slave M0; R8's defaults are. Where an operation
has ended, `LOCK.OWNER` and `LOCKWAIT` hold no value (10_state.md R29): the statements say `∃ o` and
`∃ w` there (log 28). A statement about the chip's memory is about M0 (20_memory.md R73, log 5) and the
frames whose effect the spec leaves open (`wild`; 93 U2, U3, log 25); `s.clocked` says that `CFG.FSCLK`
is in the valid range, as it is while the block is enabled in every state that meets the invariant
(40_transport.md R141): in any other state the chip's part of a frame outside it is open (93 U19, log 11). The lengths of a pointer, a size register and a frame-length header are `PTR_W / 8`,
`SIZE_W / 8` and `HDR_LEN` of R7, two bytes each by default. -/

open Sys2Proof Sys2Proof.Machine

/-! ### Encoding -/

/-- Decoding an encoded instruction gives it back, for every instruction, every operand value and every
usable layout of the control byte (30_encoding.md R101, R103, R109, R110). -/
def Obligations.DecodeOfEncodeIsTheInstruction : Prop :=
  ∀ (L : CtrlLayout) (i : Instr), L.ok = true → decode L (encode L i) = some i

/-- Each word has one meaning: the word an instruction was decoded from is its encoding. -/
def Obligations.EncodeOfDecodeIsTheWord : Prop :=
  ∀ (L : CtrlLayout) (w : Encoded) (i : Instr), L.ok = true → decode L w = some i → encode L i = w

/-- 30_encoding.md R111: a descriptor selects a row exactly when `d AND mask = match`. -/
def Obligations.DescriptorSelectsItsRow : Prop :=
  ∀ d : Descriptor,
    (d &&& 0xFF0700000000FFFF#64 = 0x0100000000000000#64 ↔
      ∃ bsb off len, decodeCmd d = some (.xferRd bsb off len)) ∧
    (d &&& 0xFF0700000000FFFF#64 = 0x0200000000000000#64 ↔
      ∃ bsb off len, decodeCmd d = some (.xferWr bsb off len)) ∧
    (d &&& 0xFF0700000000FFFF#64 = 0x1100000000000000#64 ↔
      ∃ bsb off len, decodeCmd d = some (.bufRd bsb off len)) ∧
    (d &&& 0xFF0700000000FFFF#64 = 0x1200000000000000#64 ↔
      ∃ bsb off len, decodeCmd d = some (.bufWr bsb off len)) ∧
    (d &&& 0xFFFFFFFFFFFFFFFF#64 = 0x2100000000000000#64 ↔ decodeCmd d = some .getTxFree) ∧
    (d &&& 0xFFFFFFFFFFFFFFFF#64 = 0x2200000000000000#64 ↔ decodeCmd d = some .getRxSize) ∧
    (d &&& 0xFFFFFFFFFF000000#64 = 0x3000000000000000#64 ↔
      ∃ code tmo, decodeCmd d = some (.sockCmd code tmo)) ∧
    (d &&& 0xFFFFFFFF0000FFFF#64 = 0x4100000000000000#64 ↔ ∃ len, decodeCmd d = some (.txEnq len)) ∧
    (d &&& 0xFFFFFFFFFFFFFFFF#64 = 0x4200000000000000#64 ↔ decodeCmd d = some .rxDeq)

/-- 30_encoding.md R101, R106: the header bytes are `[off[15:8], off[7:0], (bsb << BSB_POS) OR
(rwb << RWB_POS) OR OM]`; with the default layout the last is `(bsb << 3) OR (rwb << 2)`. -/
def Obligations.HeaderBytesOfAnAddress : Prop :=
  ∀ (dir : Dir) (bsb : Bsb) (off : Word),
    (headerBytes .default dir bsb off).map BitVec.toNat =
      [off.toNat / 256, off.toNat % 256, bsb.toNat * 8 + (if dir = .wr then 4 else 0)] ∧
    ∀ L : CtrlLayout, L.ok = true →
      headerBytes L dir bsb off =
        [hi8 off, lo8 off,
          (bsb.setWidth 8 <<< L.bsbPos) ||| ((if dir = .wr then 1#8 else 0#8) <<< L.rwbPos) ||| L.om]

/-- The bytes of a frame in wire order decode to the frame kind, its address and its payload
(30_encoding.md R100, R103). -/
def Obligations.WireBytesDecodeToTheFrame : Prop :=
  ∀ (L : CtrlLayout) (bsb : Bsb) (off : Word) (v : List Byte), L.ok = true →
    decodeWireBytes L (headerBytes L .rd bsb off ++ v) = some (.wireRd bsb off, v) ∧
    decodeWireBytes L (headerBytes L .wr bsb off ++ v) = some (.wireWr bsb off, v)

/-- Words written out from the spec's encodings (95_test_vectors.md V1.13, V1.14, V2.1 to V2.12)
decode to what they stand for. -/
def Obligations.SampleWordsDecode : Prop :=
  decodeWire .default 0x002608#24 = some (.wireRd 1 0x0026) ∧
  decodeWire .default 0x00240C#24 = some (.wireWr 1 0x0024) ∧
  decodeCmd 0x0208002400020000#64 = some (.xferWr 1 0x0024 2) ∧
  decodeCmd 0x0108002000020000#64 = some (.xferRd 1 0x0020 2) ∧
  decodeCmd 0x12103FFE00060000#64 = some (.bufWr 2 0x3FFE 6) ∧
  decodeCmd 0x11187FFF00030000#64 = some (.bufRd 3 0x7FFF 3) ∧
  decodeCmd 0x2100000000000000#64 = some .getTxFree ∧
  decodeCmd 0x2200000000000000#64 = some .getRxSize ∧
  decodeCmd 0x3000000000400064#64 = some (.sockCmd 0x40 100) ∧
  decodeCmd 0x4100000000060000#64 = some (.txEnq 6) ∧
  decodeCmd 0x4200000000000000#64 = some .rxDeq

/-- A header whose bits outside the two fields are not `OM` is no instruction, and a step that fetches
it stops by name (30_encoding.md R113; the stop is the model's, log 15). With the default layout these
are the headers whose bits 1:0 are not 00; with `BSB_W` above 5 the headers of a block select above 31
are among them (the model's choice, log 12). -/
def Obligations.HeaderWithOtherModeIsMalformed : Prop :=
  ∀ (s : State) (h : Header),
    (h &&& 0x000003#24 ≠ 0 → decodeWire .default h = none) ∧
    (s.params.ctrl.ctrlBits h &&& ~~~s.params.ctrl.fields ≠ s.params.ctrl.om →
      decodeWire s.params.ctrl h = none ∧
      (s.faulted = false → s.cutNext = false → s.eng.staged = some h → step s = .fault .frameMalformed))

/-! ### Reset -/

/-- The values the spec gives for reset (10_state.md R37, 70_reset_and_hazards.md R290). -/
def Obligations.ResetValuesOfTheTable : Prop :=
  State.reset.eng.csn = true ∧ State.reset.eng.sclk = false ∧ State.reset.eng.mosi = false ∧
  State.reset.eng.ph = .idle ∧ State.reset.lock.held = false ∧ State.reset.more = false ∧
  State.reset.cfg.fsclk = 0 ∧ State.reset.cfg.en = false ∧ State.reset.cfg.cfgErr = false ∧
  ∀ q ∈ State.reset.ports, q.busy = false ∧ q.done = false ∧ q.err = .ok

/-- The reset input (10_state.md R37, R38; 70_reset_and_hazards.md R290), whether a frame is in
progress, granted and not yet opened, or there is none: every port, the lock, the engine, `MORE` and the
configuration take their reset values; the chip keeps its contents, but for the locations addressed by a
frame that is cut short, and such a frame ends on the wire incomplete. The reset values are those of
`Engine.reset` and `Port.reset`; where R37 gives none they are the model's choice (log 7), and so is that
the frame ends at a byte boundary (log 20). -/
def Obligations.ResetInputResetsTheBlockNotTheChip : Prop :=
  ∀ (s : State) (cut : List Byte) (rest : List Event),
    s.faulted = false → s.events = .reset cut :: rest →
    ∃ t, step s = .next t ∧ t.cfg = Cfg.reset ∧ t.more = false ∧ t.lock.held = false ∧
      t.eng = Engine.reset ∧ t.ports.length = s.ports.length ∧ (∀ q ∈ t.ports, q = Port.reset) ∧
      t.params = s.params ∧ t.events = rest ∧
      (s.eng.ph = .idle → t.mem = s.mem ∧ t.trace = s.trace) ∧
      (s.eng.ph ≠ .idle →
        (∀ a, a < chipAddr s.eng.bsb s.eng.off 0 ∨ chipAddr s.eng.bsb s.eng.off 0 + s.eng.count ≤ a →
          t.mem.read a = s.mem.read a) ∧
        ∃ fr, t.trace = fr :: s.trace ∧ fr.master = s.eng.sent ∧ fr.whole = false)

/-! ### What a step runs -/

/-- A write of `PORT[p].CMD` (register 19 + 4p) whose descriptor decodes runs that instruction on
port `p` (30_encoding.md R108). -/
def Obligations.StepExecutesTheDescriptorWritten : Prop :=
  ∀ (s : State) (p : Nat) (d : Descriptor) (i : Instr) (rest : List Event),
    s.listening → s.events = .write (19 + 4 * p) d :: rest → decodeCmd d = some i →
    step s = exec i { s with events := rest, sel := p }

/-- A staged frame header that decodes is an instruction of the chip side (30_encoding.md R103, R116).
That the header staged by the grant of a call is what the next step runs, before whatever the events
hold but for a reset or a failure, is the model's choice (DESIGN CHOICE, log 16). -/
def Obligations.StepExecutesTheStagedFrame : Prop :=
  ∀ (s : State) (h : Header) (i : Instr), s.faulted = false → s.cutNext = false →
    s.eng.staged = some h → decodeWire s.params.ctrl h = some i → step s = exec i s

/-- 30_encoding.md R112: a descriptor that matches no row ends at once with `InvalidArgument`, makes
no transport call and does not touch the lock. -/
def Obligations.IllegalDescriptorEndsInvalidArgument : Prop :=
  ∀ (s : State) (p : Nat) (d : Descriptor) (rest : List Event),
    s.listening → s.events = .write (19 + 4 * p) d :: rest → decodeCmd d = none →
    p < s.ports.length → (s.port p).busy = false →
    step s = .next
      { s with
        ports := s.ports.modify p
          (Port.afterError (opcOf d) (bsbOf d) (offOf d) (lenOf d) (auxOf d) .invalidArgument)
        sel := p
        events := rest }

/-- A write of `PORT[p].CMD` while the port is busy is ignored, whatever the descriptor
(30_encoding.md R108, 60_exceptions.md R274); of a port that does not exist it stops by name (the
model's stop, log 17). -/
def Obligations.DescriptorToABusyPortIsIgnored : Prop :=
  ∀ (s : State) (p : Nat) (d : Descriptor) (rest : List Event),
    s.listening → s.events = .write (19 + 4 * p) d :: rest →
    (p < s.ports.length → (s.port p).busy = true → step s = .next { s with sel := p, events := rest }) ∧
    (s.ports.length ≤ p → step s = .fault .noSuchRegister)

/-! ### Configuration and register accesses -/

/-- 10_state.md R31: the clock-frequency gate, and what a disabled block does with an operation. -/
def Obligations.ClockGateAndDisabledBlock : Prop :=
  (Params.default.fMin = 14 ∧ Params.default.fMax = 25) ∧
  (∀ (s : State) (v : BitVec 64) (rest : List Event),
    s.listening → s.events = .write 1 v :: rest → v.getLsbD 0 = true →
    (s.params.fMin ≤ s.cfg.fsclk.toNat ∧ s.cfg.fsclk.toNat ≤ s.params.fMax →
      step s = .next { s with events := rest, cfg := { s.cfg with en := true, cfgErr := false } }) ∧
    (s.cfg.fsclk.toNat < s.params.fMin ∨ s.params.fMax < s.cfg.fsclk.toNat → s.cfg.en = false →
      step s = .next { s with events := rest, cfg := { s.cfg with en := false, cfgErr := true } })) ∧
  (∀ (s : State) (v : BitVec 64) (rest : List Event),
    s.listening → s.events = .write 1 v :: rest → v.getLsbD 0 = false →
    (∃ q ∈ s.ports, q.busy = true) → step s = .next { s with events := rest }) ∧
  (∀ (s : State) (i : Instr) (d : Descriptor),
    encode s.params.ctrl i = .cmd d → s.sel < s.ports.length → (s.port s.sel).busy = false →
    s.cfg.en = false →
    exec i s = .next
      { s with
        ports := s.ports.modify s.sel
          (Port.afterError (opcOf d) (bsbOf d) (offOf d) (lenOf d) (auxOf d) .invalidArgument) })

/-- Writes of the registers of 10_state.md R30 that start no operation. Those marked "RW while no port
is busy" are ignored while a port is busy, else they take the low bits of the value (that a wider value
is cut is log 26's DESIGN CHOICE). A write of `EN` = 0 while no port is busy disables the block (R31;
`CFGERR` keeps its value, log 11). `CFG.FSCLK` takes any value; a value outside the
valid range also disables an enabled block, with `CFGERR` as it was, so that 40_transport.md R141's range is
kept while `EN` = 1 (the form is the model's, log 11's DESIGN CHOICE). Registers 5 and 6 take a pair outside
00_scope.md R8's bound too (log 29's DESIGN CHOICE). A write of the read-only registers 8 and
16 + 4p to 18 + 4p is ignored; a register that does not exist stops by name (the model's stop, log 17). -/
def Obligations.ConfigurationWrites : Prop :=
  (∀ (s : State) (v : BitVec 64) (rest : List Event),
    s.listening → s.events = .write 1 v :: rest → v.getLsbD 0 = false →
    (∀ q ∈ s.ports, q.busy = false) →
    step s = .next { s with events := rest, cfg := { s.cfg with en := false } }) ∧
  (∀ (s : State) (n : Nat) (v : BitVec 64) (rest : List Event),
    s.listening → s.events = .write n v :: rest → n ≤ 7 → n ≠ 1 →
    ((∃ q ∈ s.ports, q.busy = true) → step s = .next { s with events := rest }) ∧
    ((∀ q ∈ s.ports, q.busy = false) →
      step s = .next
        { s with
          events := rest
          cfg :=
            if n = 0 then
              { s.cfg with
                fsclk := v.setWidth 8
                en := s.cfg.en && decide (s.params.fMin ≤ (v.setWidth 8).toNat ∧ (v.setWidth 8).toNat ≤ s.params.fMax) }
            else if n = 2 then { s.cfg with lockTmo := v.setWidth 32 }
            else if n = 3 then { s.cfg with cmdTmo := v.setWidth 16 }
            else if n = 4 then { s.cfg with pollInt := v.setWidth 16 }
            else if n = 5 then { s.cfg with txPollMax := v.setWidth 16 }
            else if n = 6 then { s.cfg with txPollLive := v.setWidth 16 }
            else { s.cfg with maxFrame := v.setWidth 16 } })) ∧
  (∀ (s : State) (n : Nat) (v : BitVec 64) (rest : List Event), s.listening → s.events = .write n v :: rest →
    ((n = 8 ∨ ∃ p < s.ports.length, n = 16 + 4 * p ∨ n = 17 + 4 * p ∨ n = 18 + 4 * p) →
      step s = .next { s with events := rest }) ∧
    ((9 ≤ n ∧ n ≤ 15) ∨ (∃ p, s.ports.length ≤ p ∧ (n = 16 + 4 * p ∨ n = 17 + 4 * p ∨ n = 18 + 4 * p)) →
      step s = .fault .noSuchRegister))

/-- Reads of the configuration registers 0 to 7 and of the status registers (10_state.md R30): `EN` in
bit 0 and `CFGERR` in bit 1 of `CFG.CTRL`, the bits of `DEV.STATUS` and of `PORT[p].STATUS`, and that a
read changes nothing but the value read. That the owner's low four bits are shown, for a port number
above 15 too, is log 18's DESIGN CHOICE. -/
def Obligations.StatusRegisterReads : Prop :=
  (∀ (s : State) (n : Nat) (rest : List Event), s.listening → s.events = .read n :: rest → n ≤ 7 →
    ∃ v : BitVec 64, step s = .next { s with events := rest, hostData := v, free := s.free + 1 } ∧
      (n = 0 → v.toNat = s.cfg.fsclk.toNat) ∧
      (n = 1 → v.getLsbD 0 = s.cfg.en ∧ v.getLsbD 1 = s.cfg.cfgErr ∧ v.extractLsb' 2 62 = 0) ∧
      (n = 2 → v.toNat = s.cfg.lockTmo.toNat) ∧ (n = 3 → v.toNat = s.cfg.cmdTmo.toNat) ∧
      (n = 4 → v.toNat = s.cfg.pollInt.toNat) ∧ (n = 5 → v.toNat = s.cfg.txPollMax.toNat) ∧
      (n = 6 → v.toNat = s.cfg.txPollLive.toNat) ∧ (n = 7 → v.toNat = s.cfg.maxFrame.toNat)) ∧
  (∀ (s : State) (rest : List Event),
    s.listening → s.events = .read 8 :: rest →
    ∃ v : BitVec 64, step s = .next { s with events := rest, hostData := v, free := s.free + 1 } ∧
      v.getLsbD 0 = s.more ∧ v.getLsbD 1 = s.lock.held ∧ v.extractLsb' 2 2 = 0 ∧
      (s.lock.held = true → v.extractLsb' 4 4 = BitVec.ofNat 4 s.lock.owner) ∧ v.extractLsb' 8 56 = 0) ∧
  (∀ (s : State) (p : Nat) (rest : List Event),
    s.listening → s.events = .read (16 + 4 * p) :: rest → p < s.ports.length →
    ∃ v : BitVec 64, step s = .next { s with events := rest, hostData := v, free := s.free + 1 } ∧
      v.getLsbD 0 = (s.port p).busy ∧ v.getLsbD 1 = (s.port p).done ∧
      v.extractLsb' 2 3 = (s.port p).err.code ∧ v.extractLsb' 5 59 = 0)

/-- `RESULT`, `LEN_OUT` and `RBUF` (10_state.md R22, R30; 93 U6; 70_reset_and_hazards.md R308): a
value that is held is read; no value, or a busy port, stops by name (log 8). A read of the write-only
`PORT[p].CMD`, of a register that is not in the list, or of a port that does not exist stops by name
(log 17). -/
def Obligations.ResultReads : Prop :=
  (∀ (s : State) (p : Nat) (rest : List Event), s.listening → p < s.ports.length →
    (s.events = .read (17 + 4 * p) :: rest →
      ((s.port p).busy = true → step s = .fault .resultWhileBusy) ∧
      ((s.port p).busy = false → (s.port p).result = none → step s = .fault .noValue) ∧
      (∀ v, (s.port p).busy = false → (s.port p).result = some v →
        step s = .next { s with events := rest, hostData := v.setWidth 64, free := s.free + 1 })) ∧
    (s.events = .read (18 + 4 * p) :: rest →
      ((s.port p).busy = true → step s = .fault .resultWhileBusy) ∧
      ((s.port p).busy = false → (s.port p).lenOut = none → step s = .fault .noValue) ∧
      (∀ v, (s.port p).busy = false → (s.port p).lenOut = some v →
        step s = .next { s with events := rest, hostData := v.setWidth 64, free := s.free + 1 })) ∧
    (∀ i, s.events = .readBuf p i :: rest →
      ((s.port p).busy = true → step s = .fault .resultWhileBusy) ∧
      ((s.port p).busy = false → (s.port p).rbuf.length ≤ i → step s = .fault .noValue) ∧
      (∀ v, (s.port p).busy = false → (s.port p).rbuf[i]? = some v →
        step s = .next { s with events := rest, hostData := v.setWidth 64, free := s.free + 1 })) ∧
    (s.events = .read (19 + 4 * p) :: rest → step s = .fault .writeOnlyRegister)) ∧
  (∀ (s : State) (n : Nat) (rest : List Event), s.listening → s.events = .read n :: rest →
    (9 ≤ n ∧ n ≤ 15) ∨ 16 + 4 * s.ports.length ≤ n → step s = .fault .noSuchRegister) ∧
  (∀ (s : State) (p i : Nat) (rest : List Event), s.listening → s.events = .readBuf p i :: rest →
    s.ports.length ≤ p → step s = .fault .noSuchRegister)

/-- A requester fills `WBUF` of an idle port; of a busy port the model refuses it (10_state.md R20, R21;
93 U12, log 19), and of a port that does not exist it stops by name (log 17). That a fill replaces all of
`WBUF` is the model's choice (log 27). -/
def Obligations.WbufIsWrittenOnlyWhileIdle : Prop :=
  ∀ (s : State) (p : Nat) (v : List Byte) (rest : List Event),
    s.listening → s.events = .fill p v :: rest →
    (p < s.ports.length →
      ((s.port p).busy = true → step s = .refused .wbufWhileBusy) ∧
      ((s.port p).busy = false →
        step s = .next { s with events := rest, ports := s.ports.modify p (fun q => { q with wbuf := v }) })) ∧
    (s.ports.length ≤ p → step s = .fault .noSuchRegister)

/-! ### The frames and the transport layer -/

/-- 40_transport.md R137: a read frame. With the lock held it sends the three header bytes, then
`n` fillers while it collects the `n` bytes of the slave, releases chip select and the lock, and
delivers the bytes (`proceed`). `m` is the chip as the frame finds it: unchanged, but for a frame whose
answer the spec leaves open, which makes its block unknown (93 U2, U3; log 25), or outside the valid range
of the clock the whole chip (93 U19; log 11). -/
def Obligations.WireRdCarriesAReadFrame : Prop :=
  ∀ (s : State) (bsb : Bsb) (off : Word) (n : Nat) (rest : List Event),
    let m := openMem s.params s.clocked s.mem s.free bsb off n
    s.params.ok = true → s.lock.held = true → s.eng.ph = .idle → s.eng.count = n → 1 ≤ n → n ≤ 65535 →
    off.toNat + n ≤ 65536 → s.events = .env (.turn s.lock.owner (n + 4)) :: rest →
    (s.clocked = true → wild s.params bsb off n = false → m = s.mem) ∧
    (s.clocked = false → ∃ f, m = .forgetAll f) ∧
    ∃ e f o, e.atRest ∧ exec (.wireRd bsb off) s = .next
      { proceed s.lock.owner (memRead m (chipAddr bsb off 0) n)
          { s with
            lock := ⟨false, o⟩
            eng := e
            mem := m
            trace := readFrame s.params bsb off (memRead m (chipAddr bsb off 0) n) :: s.trace
            free := f } with
        events := rest }

/-- A write frame (40_transport.md R136). With the lock held it sends the three header bytes and the `n`
payload bytes in order, releases chip select and the lock, and delivers the end of the call (`proceed`).
R136 and 20_memory.md R71 leave what the chip stores to the chip: here it is the reference slave M0's
(R73; log 5), and unknown for a frame whose effect the spec leaves open (log 25) or outside the valid range
of the clock (log 11). -/
def Obligations.WireWrCarriesAWriteFrame : Prop :=
  ∀ (s : State) (bsb : Bsb) (off : Word) (v : List Byte) (rest : List Event),
    s.params.ok = true → s.lock.held = true → s.eng.ph = .idle → s.eng.data = v → s.eng.count = v.length →
    1 ≤ v.length → v.length ≤ 65535 → off.toNat + v.length ≤ 65536 →
    s.events = .env (.turn s.lock.owner (v.length + 4)) :: rest →
    ∃ e f o, e.atRest ∧ exec (.wireWr bsb off) s = .next
      { proceed s.lock.owner []
          { s with
            lock := ⟨false, o⟩
            eng := e
            mem := frameWrite s.params s.clocked s.mem s.free bsb off v
            trace := writeFrame s.params bsb off v :: s.trace
            free := f } with
        events := rest }

/-- Where a frame header cannot be executed the model stops by name (log 15): without the lock,
during another frame, or with a payload that XPORT never sends (30_encoding.md R113), one below `MIN_PAYLOAD` among them (log 13). -/
def Obligations.FrameStopsByName : Prop :=
  ∀ (s : State) (bsb : Bsb) (off : Word),
    (s.lock.held = false → exec (.wireRd bsb off) s = .fault .frameWithoutLock ∧
      exec (.wireWr bsb off) s = .fault .frameWithoutLock) ∧
    (s.lock.held = true → s.eng.ph ≠ .idle → exec (.wireRd bsb off) s = .fault .frameOverlap ∧
      exec (.wireWr bsb off) s = .fault .frameOverlap) ∧
    (s.lock.held = true → s.eng.ph = .idle →
      (s.eng.count = 0 ∨ s.eng.count < s.params.minPayload ∨ 65535 < s.eng.count ∨
        65536 < off.toNat + s.eng.count) →
      exec (.wireRd bsb off) s = .fault .frameMalformed ∧
      exec (.wireWr bsb off) s = .fault .frameMalformed)

/-- Eight clock cycles exchange one byte (40_transport.md R139, 20_memory.md R67): before the rising
edge of cycle `k` `BIT` is `7 - k` and `MOSI` that bit of `SHO`, `SHI` holds the slave's bits above it,
and the edge takes MISO into that bit; after the eighth the clock is low and nothing else of the engine
has changed. The first bit of a frame is on `MOSI` when chip select becomes active, and a byte ends with
the first bit of the next on it, where there is a next one. -/
def Obligations.EightCyclesExchangeAByte : Prop :=
  (∀ (out miso : Byte) (e : Engine),
    shiftByte out miso e =
      { e with sho := out, shi := miso, bit := 0, sclk := false, mosi := out.getLsbD 0 } ∧
    ∀ k < 8,
      (cycles k miso (loadByte out e)).bit = BitVec.ofNat 3 (7 - k) ∧
      (cycles k miso (loadByte out e)).mosi = out.getLsbD (7 - k) ∧
      (∀ j < 8, (cycles k miso (loadByte out e)).shi.getLsbD j =
        if 7 - k < j then miso.getLsbD j else e.shi.getLsbD j) ∧
      cycles (k + 1) miso (loadByte out e) =
        fallingEdge (risingEdge (miso.getLsbD (7 - k)) (cycles k miso (loadByte out e))) ∧
      (risingEdge (miso.getLsbD (7 - k)) (cycles k miso (loadByte out e))).sclk = true) ∧
  (∀ (dir : Dir) (bsb : Bsb) (off : Word) (s : State), s.params.ctrl.ok = true →
    (openFrame dir bsb off s).eng.csn = false ∧ (openFrame dir bsb off s).eng.mosi = off.getLsbD 15) ∧
  ∀ (s : State) (t : State), t ∈ [headerTurn s, readTurn s, writeTurn s] →
    ∀ b, outByte t.eng = some b → t.eng.sho = b ∧ t.eng.bit = 7 ∧ t.eng.mosi = b.getLsbD 7

/-- XFER.RD (40_transport.md R146): one read frame, the `LEN` bytes of the chip in `RBUF` in wire
order, status `OK`, and nothing else changed, but for a frame whose answer the spec leaves open, which
makes its block of the chip unknown (93 U2, U3; log 25), or outside the valid range of the clock, which
makes the chip unknown (93 U19; log 11); the inline threshold makes no difference (R142). -/
def Obligations.XferRdReadsTheChip : Prop :=
  ∀ (s : State) (bsb : Bsb) (off len : Word) (k : Nat) (rest : List Event),
    let m := openMem s.params s.clocked s.mem s.free bsb off len.toNat
    s.ready → s.params.ok = true → len ≠ 0 → off.toNat + len.toNat ≤ 65536 →
    s.events = .env (.turn s.sel k) :: rest → len.toNat + 6 ≤ k →
    (s.clocked = true → wild s.params bsb off len.toNat = false → m = s.mem) ∧
    (s.clocked = false → ∃ f, m = .forgetAll f) ∧
    ∃ e f o w, e.atRest ∧ exec (.xferRd bsb off len) s = .next
      { s with
        ports := s.ports.modify s.sel (fun q =>
          { q.after 0x01 bsb off len 0 .ok with
            rbuf := memRead m (chipAddr bsb off 0) len.toNat, lockWait := w })
        lock := ⟨false, o⟩
        eng := e
        mem := m
        trace := readFrame s.params bsb off (memRead m (chipAddr bsb off 0) len.toNat) :: s.trace
        events := rest
        free := f }

/-- XFER.WR (40_transport.md R147): one write frame of `WBUF[0 .. LEN-1]` in index order, status
`OK`, `RBUF` empty (log 24), and nothing else changed but the chip. Its memory is M0's after `MemWrite`
of those bytes (20_memory.md R71, R73; log 5), for every block the spec names and every span inside a
window; for another block or span the block becomes unknown (93 U2, U3; log 25), and outside the valid
range of the clock the chip (93 U19; log 11). -/
def Obligations.XferWrWritesTheChip : Prop :=
  ∀ (s : State) (bsb : Bsb) (off len : Word) (k : Nat) (rest : List Event),
    let v := wbufBytes s.sel (s.port s.sel).wbuf 0 len.toNat
    s.ready → s.params.ok = true → len ≠ 0 → off.toNat + len.toNat ≤ 65536 →
    s.events = .env (.turn s.sel k) :: rest → len.toNat + 6 ≤ k →
    ∃ e f o w, e.atRest ∧ exec (.xferWr bsb off len) s = .next
      { s with
        ports := s.ports.modify s.sel (fun q =>
          { q.after 0x02 bsb off len 0 .ok with lockWait := w })
        lock := ⟨false, o⟩
        eng := e
        mem := frameWrite s.params s.clocked s.mem s.free bsb off v
        trace := writeFrame s.params bsb off v :: s.trace
        events := rest
        free := f }

/-- 40_transport.md R131: the argument checks, made before the lock is asked for, and the call that
passes them: it asks for the lock, with `LOCKWAIT` = 0 (R133). Any block select is accepted, and `LEN` up to
65535. R131 names no least `LEN` but 1: that it is `MIN_PAYLOAD` where this exceeds 1 is 00_scope.md R7's
parameter as the model takes it (log 13), whose value, 1, makes the two the same. -/
def Obligations.TransportArgumentChecks : Prop :=
  Params.default.minPayload = 1 ∧
  ∀ (s : State) (bsb : Bsb) (off len : Word),
    s.sel < s.ports.length → (s.port s.sel).busy = false →
    ((s.cfg.en = false ∨ len = 0 ∨ len.toNat < s.params.minPayload ∨ 65536 < off.toNat + len.toNat) →
      exec (.xferRd bsb off len) s = .next
        { s with
          ports := s.ports.modify s.sel (Port.afterError 0x01 bsb off len 0 .invalidArgument) } ∧
      exec (.xferWr bsb off len) s = .next
        { s with
          ports := s.ports.modify s.sel (Port.afterError 0x02 bsb off len 0 .invalidArgument) }) ∧
    (s.cfg.en = true → len ≠ 0 → s.params.minPayload ≤ len.toNat → off.toNat + len.toNat ≤ 65536 →
      s.events = [] →
      exec (.xferRd bsb off len) s = .next
        { s with
          ports := s.ports.modify s.sel (fun q => { q with
            opc := 0x01, bsb := bsb, off := off, len := len, aux := 0, busy := true, done := false, rbuf := []
            seq := .xferRd, act := .asking ⟨.rd, bsb, off, len.toNat, []⟩, lockWait := 0 }) } ∧
      exec (.xferWr bsb off len) s = .next
        { s with
          ports := s.ports.modify s.sel (fun q => { q with
            opc := 0x02, bsb := bsb, off := off, len := len, aux := 0, busy := true, done := false, rbuf := []
            seq := .xferWr
            act := .asking ⟨.wr, bsb, off, len.toNat, wbufBytes s.sel (s.port s.sel).wbuf 0 len.toNat⟩
            lockWait := 0 }) })

/-- A call asks for the lock with `LOCKWAIT[p] = 0`, and what one tick of a port that asks does
(40_transport.md R133). That one tick is one turn of the port and that the arbiter's grant is the port's
turn is the model's choice (DESIGN CHOICE, log 2, log 4). The wait may also end by `Timeout` at any step
while the lock is held (R149, 60_exceptions.md R266); with the lock free it does not. -/
def Obligations.LockTick : Prop :=
  (∀ (s : State) (p : Nat) (c : Call) (seq : Seq), s.cfg.en = true → xferArgsOk s.params c.off c.count = true →
    xcall p c seq s = { s with ports := s.ports.modify p (fun q => { q with
      seq := seq, act := .asking c, lockWait := 0 }) }) ∧
  ∀ (s : State) (p : Nat) (c : Call), p < s.ports.length → (s.port p).act = .asking c →
    let timeout := { s with ports := s.ports.modify p (fun q => { q with
        busy := false, done := true, err := .timeout, result := none, lenOut := none, rbuf := [],
        seq := .none, act := .rest }) }
    (s.lock.held = false →
      applyEnv (.expire p) s = s ∧
      turn p s =
        { s with
          ports := s.ports.modify p (fun q => { q with act := .rest })
          lock := ⟨true, p⟩
          eng := { s.eng with
            staged := some (header s.params.ctrl c.dir c.bsb c.off), count := c.count, data := c.data } }) ∧
    (s.lock.held = true → s.lock.owner ≠ p →
      applyEnv (.expire p) s = timeout ∧
      (s.cfg.lockTmo.toNat ≤ (s.port p).lockWait → turn p s = timeout) ∧
      ((s.port p).lockWait < s.cfg.lockTmo.toNat →
        turn p s = { s with ports := s.ports.modify p (fun q => { q with lockWait := q.lockWait + 1 }) }))

/-- A lock held by another port for longer than the bound ends the operation with `Timeout`, no frame
and nothing else changed (40_transport.md R133, R134; property S8); RX.DEQ has cleared `MORE` by
then (10_state.md R28). -/
def Obligations.LockTimeoutLeavesTheRest : Prop :=
  ∀ (s : State) (i : Instr) (d : Descriptor) (k : Nat) (rest : List Event),
    encode s.params.ctrl i = .cmd d → i.wellFormed s.params = true →
    (∀ bsb off len, i = .bufRd bsb off len → len ≠ 0) →
    (∀ bsb off len, i = .bufWr bsb off len → len ≠ 0) → s.params.ok = true →
    s.sel < s.ports.length → (s.port s.sel).busy = false → s.cfg.en = true →
    s.lock.held = true → s.lock.owner ≠ s.sel →
    s.events = .env (.turn s.sel k) :: rest → s.cfg.lockTmo.toNat + 1 ≤ k →
    ∃ w, exec i s = .next
      { s with
        ports := s.ports.modify s.sel (fun q =>
          { q.afterError (opcOf d) (bsbOf d) (offOf d) (lenOf d) (auxOf d) .timeout with lockWait := w })
        more := if i = .rxDeq then false else s.more
        events := rest }

/-- A failure of the frame of the call that holds the lock, in progress or granted and not yet opened
(40_transport.md R143, 60_exceptions.md R256): chip select inactive, lock released, the operation of the
owner ends `HardwareFault`, its results hold no value, and nothing else changes. That the chip keeps
exactly the bytes already taken (R143 admits the old or the written value at each location), that the
frame ends at a byte boundary and goes straight to IDLE, that `MOSI` keeps its level, and the frame's form
on the trace are the model's choice (DESIGN CHOICE, log 22). -/
def Obligations.FailedFrameEndsHardwareFault : Prop :=
  ∀ (s : State) (rest : List Event),
    s.faulted = false → s.lock.held = true →
    s.lock.owner < s.ports.length → (s.port s.lock.owner).seq ≠ .none →
    s.events = .env .fault :: rest →
    ∃ o tr, (s.eng.ph = .idle → tr = s.trace) ∧
      (s.eng.ph ≠ .idle → ∃ fr, fr.whole = false ∧ fr.master = s.eng.sent ∧ tr = fr :: s.trace) ∧
      step s = .next
        { s with
          ports := s.ports.modify s.lock.owner (fun q => { q with
            busy := false, done := true, err := .hardwareFault, result := none, lenOut := none, rbuf := [],
            seq := .none, act := .rest })
          lock := ⟨false, o⟩
          eng := { s.eng with ph := .idle, idx := 0, csn := true, staged := none }
          trace := tr
          events := rest }

/-- The phases follow the fixed order IDLE, HDR, DATA, END, IDLE with no branch (10_state.md R24). -/
def Obligations.PhasesFollowTheFixedOrder : Prop :=
  ∀ (p : Nat) (s : State), (turn p s).eng.ph = s.eng.ph ∨
    (s.eng.ph = .idle ∧ (turn p s).eng.ph = .hdr) ∨ (s.eng.ph = .hdr ∧ (turn p s).eng.ph = .data) ∨
    (s.eng.ph = .data ∧ (turn p s).eng.ph = .finish) ∨ (s.eng.ph = .finish ∧ (turn p s).eng.ph = .idle)

/-- One frame for each time the lock is held (40_transport.md R130, R135, R138): a turn puts a frame
on the wire trace exactly when it ends the owner's frame, and then the lock is released. -/
def Obligations.OneFramePerLockHolding : Prop :=
  ∀ (p : Nat) (s : State),
    (s.lock.held = true ∧ s.lock.owner = p ∧ s.eng.ph = .finish →
      ∃ fr, (turn p s).trace = fr :: s.trace ∧ fr.master = s.eng.sent ∧ fr.whole = true ∧
        (turn p s).lock.held = false ∧ (turn p s).eng.csn = true) ∧
    (¬ (s.lock.held = true ∧ s.lock.owner = p ∧ s.eng.ph = .finish) →
      (turn p s).trace = s.trace ∧ (s.lock.held = true → (turn p s).lock = s.lock))

/-! ### The ring accessor -/

/-- The split arithmetic (41_ring_accessor.md R171, R172): the reduced offset, the strict comparison,
the tail and the head, both non-empty, the head ending before the tail begins. -/
def Obligations.RingSplitArithmetic : Prop :=
  ∀ (P : Params) (off : Word) (n : Nat), P.ok = true → 1 ≤ n → n ≤ P.window →
    (ringOff P off).toNat = off.toNat % P.window ∧
    (crosses P (ringOff P off) n = true ↔ P.window < off.toNat % P.window + n) ∧
    (crosses P (ringOff P off) n = true →
      (ringOff P off).toNat + tailLen P (ringOff P off) = P.window ∧ 1 ≤ tailLen P (ringOff P off) ∧
      tailLen P (ringOff P off) < n ∧ n - tailLen P (ringOff P off) ≤ (ringOff P off).toNat)

/-- 41_ring_accessor.md R177: the argument checks of the two buffer operations, made before any
transport call; an empty transfer ends `OK` with none. -/
def Obligations.RingArgumentChecks : Prop :=
  ∀ (s : State) (win : Bsb) (off len : Word), s.sel < s.ports.length → (s.port s.sel).busy = false →
    ((s.cfg.en = false ∨ (win ≠ s.params.bsbS0Tx ∧ win ≠ s.params.bsbS0Rx) ∨ s.params.window < len.toNat) →
      exec (.bufRd win off len) s = .next
        { s with
          ports := s.ports.modify s.sel (Port.afterError 0x11 win off len 0 .invalidArgument) } ∧
      exec (.bufWr win off len) s = .next
        { s with
          ports := s.ports.modify s.sel (Port.afterError 0x12 win off len 0 .invalidArgument) }) ∧
    (s.cfg.en = true → (win = s.params.bsbS0Tx ∨ win = s.params.bsbS0Rx) → len = 0 →
      exec (.bufRd win off len) s = .next
        { s with ports := s.ports.modify s.sel (Port.after 0x11 win off len 0 .ok) } ∧
      exec (.bufWr win off len) s = .next
        { s with ports := s.ports.modify s.sel (Port.after 0x12 win off len 0 .ok) })

/-- BUF.RD (41_ring_accessor.md R173, R176, R180): `RBUF[i]` is the byte at ring offset
`(off + i) mod WINDOW`, with one frame when the span does not cross the end of the window and two
when it does. -/
def Obligations.BufRdReadsTheRing : Prop :=
  ∀ (s : State) (win : Bsb) (off len : Word) (k : Nat) (rest : List Event),
    let d := ringRead s.params s.mem win off len.toNat
    s.ready → s.params.ok = true → s.clocked = true →
    (win = s.params.bsbS0Tx ∨ win = s.params.bsbS0Rx) → len ≠ 0 →
    len.toNat ≤ s.params.window → s.events = .env (.turn s.sel k) :: rest → len.toNat + 12 ≤ k →
    ∃ e f o w, e.atRest ∧ exec (.bufRd win off len) s = .next
      { s with
        ports := s.ports.modify s.sel (fun q =>
          { q.after 0x11 win off len 0 .ok with rbuf := d, lockWait := w })
        lock := ⟨false, o⟩
        eng := e
        trace := ringRdFrames s.params win off d ++ s.trace
        events := rest
        free := f }

/-- BUF.WR (41_ring_accessor.md R172, R175, R180): the tail at `off mod WINDOW`, then the head at 0;
`RBUF` is emptied (log 24). The memory after it is the reference slave M0's (20_memory.md R71, R73;
log 5), where the rules leave what the chip stores to the chip. -/
def Obligations.BufWrWritesTheRing : Prop :=
  ∀ (s : State) (win : Bsb) (off len : Word) (k : Nat) (rest : List Event),
    let v := wbufBytes s.sel (s.port s.sel).wbuf 0 len.toNat
    s.ready → s.params.ok = true → s.clocked = true →
    (win = s.params.bsbS0Tx ∨ win = s.params.bsbS0Rx) → len ≠ 0 →
    len.toNat ≤ s.params.window → s.events = .env (.turn s.sel k) :: rest → len.toNat + 12 ≤ k →
    ∃ e f o w, e.atRest ∧ exec (.bufWr win off len) s = .next
      { s with
        ports := s.ports.modify s.sel (fun q => { q.after 0x12 win off len 0 .ok with lockWait := w })
        lock := ⟨false, o⟩
        eng := e
        mem := ringWrite s.params s.mem win off v
        trace := ringWrFrames s.params win off v ++ s.trace
        events := rest
        free := f }

/-- A ring write puts byte `i` at ring offset `(off + i) mod WINDOW` and changes no other location
(41_ring_accessor.md R173), in a window that is not the block of the reacting registers, on a chip that
stores window bytes as plain memory (the reference slave M0; 20_memory.md R73, log 5). -/
def Obligations.RingWritePlacesEachByte : Prop :=
  ∀ (P : Params) (m : Memory) (win : Bsb) (off : Word) (v : List Byte),
    P.ok = true → win ≠ P.bsbS0Reg → v.length ≤ P.window →
    (∀ i (h : i < v.length), (ringWrite P m win off v).read (ringAddr P win off i) = v[i]) ∧
    (∀ a, (∀ i < v.length, a ≠ ringAddr P win off i) → (ringWrite P m win off v).read a = m.read a)

/-- 41_ring_accessor.md R172, R174: the first call of a buffer operation and, after the first of a
split, the second, which begins at ring offset 0: each is in the window's block, has at least one byte
and ends at or before `WINDOW`. -/
def Obligations.RingCallsStayInTheWindow : Prop :=
  ∀ (s : State) (p : Nat) (win : Bsb) (off : Word) (v : List Byte) (kr : RdCont) (kw : WrCont)
    (er ew : State → State),
    p < s.ports.length → s.params.ok = true → s.cfg.en = true →
    (win = s.params.bsbS0Tx ∨ win = s.params.bsbS0Rx) → 1 ≤ v.length → v.length ≤ s.params.window →
    let inside := fun (c : Call) => c.bsb = win ∧ 1 ≤ c.count ∧ c.off.toNat + c.count ≤ s.params.window
    (∃ c, ((ringRd p win off v.length kr er s).port p).act = .asking c ∧ c.dir = .rd ∧ inside c) ∧
    (∀ w r k, ((ringRd p win off v.length kr er s).port p).seq = .ringRdTail w r k →
      ∀ (t : State) (d : List Byte), p < t.ports.length → t.cfg.en = true → t.params = s.params →
        (t.port p).seq = .ringRdTail w r k →
        ∃ c, proceed p d t = { t with ports := t.ports.modify p (fun q => { q with
            seq := .ringRdHead d k, act := .asking c, lockWait := 0 }) } ∧
          c = ⟨.rd, win, 0, r, []⟩ ∧ inside c) ∧
    (∃ c, ((ringWr p win off v kw ew s).port p).act = .asking c ∧ c.dir = .wr ∧ inside c ∧
      c.data.length = c.count) ∧
    (∀ w r k, ((ringWr p win off v kw ew s).port p).seq = .ringWrTail w r k →
      ∀ (t : State) (d : List Byte), p < t.ports.length → t.cfg.en = true → t.params = s.params →
        (t.port p).seq = .ringWrTail w r k →
        ∃ c, proceed p d t = { t with ports := t.ports.modify p (fun q => { q with
            seq := .ringWrHead k, act := .asking c, lockWait := 0 }) } ∧
          c = ⟨.wr, win, 0, r.length, r⟩ ∧ inside c)

/-- BUF.WR then BUF.RD with the same window, offset and length returns the original bytes, across the
wrap as well (41_ring_accessor.md R181), whatever happens between the two as long as no other write
changes those bytes of the window and nothing has changed the parameters, on a chip that stores window
bytes as plain memory (M0; 20_memory.md R73, log 5). -/
def Obligations.RingRoundTrip : Prop :=
  ∀ (s : State) (win : Bsb) (off len : Word) (k : Nat) (rest : List Event),
    s.ready → s.params.ok = true → s.clocked = true → (win = s.params.bsbS0Tx ∨ win = s.params.bsbS0Rx) →
    len ≠ 0 → len.toNat ≤ s.params.window →
    s.events = .env (.turn s.sel k) :: rest → len.toNat + 12 ≤ k →
    ∃ t, exec (.bufWr win off len) s = .next t ∧ (t.port s.sel).err = .ok ∧
      ∀ (u : State) (k' : Nat) (rest' : List Event), u.ready → u.params = t.params → u.clocked = true →
        (∀ i < len.toNat, u.mem.read (ringAddr s.params win off i) = t.mem.read (ringAddr s.params win off i)) →
        u.events = .env (.turn u.sel k') :: rest' → len.toNat + 12 ≤ k' →
        ∃ r, exec (.bufRd win off len) u = .next r ∧ (r.port u.sel).err = .ok ∧
          (r.port u.sel).rbuf = wbufBytes s.sel (s.port s.sel).wbuf 0 len.toNat

/-! ### The size queries -/

/-- GET.TXFREE and GET.RXSIZE on a quiet chip (42_size_query.md R194, R195): two read frames, and the
register's big-endian value in `RESULT`; `RBUF` is emptied (log 24). -/
def Obligations.SizeQueriesReturnTheRegister : Prop :=
  ∀ (s : State) (k : Nat) (rest : List Event),
    let P := s.params
    let fsr := memRead s.mem (chipAddr P.bsbS0Reg P.regTxFsr 0) P.sizeLen
    let rsr := memRead s.mem (chipAddr P.bsbS0Reg P.regRxRsr 0) P.sizeLen
    s.ready → P.ok = true → s.clocked = true → s.events = .env (.turn s.sel k) :: rest → 16 ≤ k →
    (∃ e f o w, e.atRest ∧ exec .getTxFree s = .next
      { s with
        ports := s.ports.modify s.sel (fun q =>
          { q.after 0x21 0 0 0 0 .ok with result := some (numOf fsr), lockWait := w })
        lock := ⟨false, o⟩
        eng := e
        trace := List.replicate 2 (readFrame P P.bsbS0Reg P.regTxFsr fsr) ++ s.trace
        events := rest
        free := f }) ∧
    (∃ e f o w, e.atRest ∧ exec .getRxSize s = .next
      { s with
        ports := s.ports.modify s.sel (fun q =>
          { q.after 0x22 0 0 0 0 .ok with result := some (numOf rsr), lockWait := w })
        lock := ⟨false, o⟩
        eng := e
        trace := List.replicate 2 (readFrame P P.bsbS0Reg P.regRxRsr rsr) ++ s.trace
        events := rest
        free := f }) ∧
    (P.sizeLen = 2 → numOf fsr = be16 (s.mem.read (chipAddr P.bsbS0Reg P.regTxFsr 0))
        (s.mem.read (chipAddr P.bsbS0Reg P.regTxFsr 1)) ∧
      numOf rsr = be16 (s.mem.read (chipAddr P.bsbS0Reg P.regRxRsr 0))
        (s.mem.read (chipAddr P.bsbS0Reg P.regRxRsr 1)))

/-- 42_size_query.md R191, R192, for a query of the requester, of TX.ENQ and of RX.DEQ: after the first
read the second is made; two reads that agree give their big-endian number (`be16` of two bytes), which
GET.TXFREE and GET.RXSIZE deliver, TX.ENQ compares with `LEN` (43_fifo_sequences.md R221) and RX.DEQ with zero (R231); two that disagree
start a fresh pair, and the second is not compared with the first of the next. With a finite
`SIZE_RETRY_MAX` the query ends after that many retries with an error, which the spec does not name:
`Timeout` or `HardwareFault` (00_scope.md R8; log 14). -/
def Obligations.ReadsAreTakenInPairs : Prop :=
  ∀ (s : State) (p : Nat) (reg : Word) (a d : List Byte) (r : Nat), p < s.ports.length → s.cfg.en = true →
    s.params.ok = true → reg.toNat + 2 ≤ 65536 →
    let ask := fun (seq : Seq) (reg : Word) (n : Nat) =>
      { s with ports := s.ports.modify p (fun q => { q with
        seq := seq, act := .asking ⟨.rd, s.params.bsbS0Reg, reg, n, []⟩, lockWait := 0 }) }
    let stop := fun (e : Status) =>
      { s with ports := s.ports.modify p (fun q => { q with
        busy := false, done := true, err := e, result := none, lenOut := none, rbuf := []
        seq := .none, act := .rest }) }
    let value := numOf a
    (∀ b0 b1, a = [b0, b1] → value = be16 b0 b1) ∧
    (∀ k, (s.port p).seq = .sizeFirst reg r k → proceed p d s = ask (.sizeSecond reg d r k) reg s.params.sizeLen) ∧
    (a = d →
      ((s.port p).seq = .sizeSecond reg a r .own →
        proceed p d s = { s with ports := s.ports.modify p (fun q => { q with
          busy := false, done := true, err := .ok, result := some value, seq := .none, act := .rest }) }) ∧
      (∀ len, (s.port p).seq = .sizeSecond reg a r (.tx len) →
        proceed p d s = if value.toNat < len.toNat then stop .noMemory
          else ask (.txPtr len) s.params.regTxWr s.params.ptrLen) ∧
      ((s.port p).seq = .sizeSecond reg a r .rx →
        proceed p d s = if value = 0 then
            { s with ports := s.ports.modify p (fun q => { q with
              busy := false, done := true, err := .ok, lenOut := some 0, seq := .none, act := .rest }) }
          else ask (.rxPtr value) s.params.regRxRd s.params.ptrLen)) ∧
    (∀ k, (s.port p).seq = .sizeSecond reg a r k → a ≠ d →
      ((∀ m, s.params.sizeRetryMax = some m → r + 1 ≤ m) →
        proceed p d s = ask (.sizeFirst reg (r + 1) k) reg s.params.sizeLen) ∧
      (∀ m, s.params.sizeRetryMax = some m → m < r + 1 →
        ∃ e, (e = .timeout ∨ e = .hardwareFault) ∧ proceed p d s = stop e))

/-- A chip that changes the low byte of the register between the two reads of the first pair and then
holds it stable yields the stable value after four reads (42_size_query.md R191; property S4), where
`SIZE_RETRY_MAX` allows a retry. -/
def Obligations.TornPairIsRetried : Prop :=
  ∀ (s : State) (k : Nat) (v : Byte) (rest : List Event),
    let P := s.params
    let low := chipAddr P.bsbS0Reg P.regTxFsr (P.sizeLen - 1)
    s.ready → P.ok = true → s.clocked = true → P.sizeRetryMax ≠ some 0 → 24 ≤ k → s.mem.read low ≠ v →
    s.events = .env (.turn s.sel (P.sizeLen + 6)) :: .env (.chip low v) :: .env (.turn s.sel k) :: rest →
    ∃ t, exec .getTxFree s = .next t ∧ (t.port s.sel).err = .ok ∧ (t.port s.sel).done = true ∧
      (t.port s.sel).result =
        some (numOf (memRead (s.mem.set low v) (chipAddr P.bsbS0Reg P.regTxFsr 0) P.sizeLen)) ∧
      t.trace.length = s.trace.length + 4 ∧ t.events = rest

/-! ### SOCK.CMD -/

/-- SOCK.CMD on a chip that accepts at once (43_fifo_sequences.md R213; M0, 20_memory.md R73, log 5): one
write of the command register, one poll that reads zero, `OK`. `RBUF`, a result register of 10_state.md
R22, is emptied (log 24); `RESULT` and `LEN_OUT` are unchanged. -/
def Obligations.SockCmdIssuesTheCommand : Prop :=
  ∀ (s : State) (code : Byte) (tmo : Word) (k : Nat) (rest : List Event),
    s.ready → s.params.ok = true → s.clocked = true → s.events = .env (.turn s.sel k) :: rest → 14 ≤ k →
    ∃ e f o w, e.atRest ∧ exec (.sockCmd code tmo) s = .next
      { s with
        ports := s.ports.modify s.sel (fun q =>
          { q.after 0x30 0 0 (code.setWidth 16) tmo .ok with lockWait := w })
        lock := ⟨false, o⟩
        eng := e
        mem := chipStore s.params s.mem (chipAddr s.params.bsbS0Reg s.params.regCr 0) code
        trace := readFrame s.params s.params.bsbS0Reg s.params.regCr [0] ::
          writeFrame s.params s.params.bsbS0Reg s.params.regCr [code] :: s.trace
        events := rest
        free := f }

/-- 43_fifo_sequences.md R211: the command loop, of SOCK.CMD and inside TX.ENQ and RX.DEQ. The first poll
follows the write at once; a poll that reads zero ends the command: SOCK.CMD is done (R213), TX.ENQ reads
`REG_IR` (R224, R225), RX.DEQ delivers its results (R236). One that does not ends `Timeout` when
`t >= tmo` and else waits `POLL_INT` ticks and polls again with `t + POLL_INT`; the wait may also end by
`Timeout` at any step (60_exceptions.md R266, 93 U10). That a wait of `n` ticks makes its poll after
`n + 1` turns is the model's choice (DESIGN CHOICE, log 4). -/
def Obligations.CommandPollLoop : Prop :=
  ∀ (s : State) (p : Nat) (t tmo : Nat) (d : List Byte), p < s.ports.length → s.cfg.en = true →
    s.params.ok = true →
    let timeout := { s with ports := s.ports.modify p (fun q => { q with
        busy := false, done := true, err := .timeout, result := none, lenOut := none, rbuf := [],
        seq := .none, act := .rest }) }
    let ask := fun (reg : Word) (seq : Seq) =>
      { s with ports := s.ports.modify p (fun q => { q with
        seq := seq, act := .asking ⟨.rd, s.params.bsbS0Reg, reg, 1, []⟩, lockWait := 0 }) }
    (∀ k, (s.port p).seq = .cmdWrite tmo k → proceed p d s = ask s.params.regCr (.cmdPoll 0 tmo k)) ∧
    (d.getD 0 0 = 0 →
      ((s.port p).seq = .cmdPoll t tmo .own →
        proceed p d s = { s with ports := s.ports.modify p (fun q => { q with
          busy := false, done := true, err := .ok, seq := .none, act := .rest }) }) ∧
      ((s.port p).seq = .cmdPoll t tmo .tx → proceed p d s = ask s.params.regIr (.txPoll 0)) ∧
      (∀ rsr hv payload, (s.port p).seq = .cmdPoll t tmo (.rx rsr hv payload) →
        proceed p d s = { s with
          more := if hv.toNat < rsr.toNat then true else s.more
          ports := s.ports.modify p (fun q => { q with
            busy := false, done := true, err := .ok, lenOut := some (BitVec.ofNat 16 (hv.toNat - s.params.hdrLen))
            rbuf := payload
            seq := .none, act := .rest }) })) ∧
    (∀ k, (s.port p).seq = .cmdPoll t tmo k → d.getD 0 0 ≠ 0 → tmo ≤ t → proceed p d s = timeout) ∧
    (∀ k, (s.port p).seq = .cmdPoll t tmo k → d.getD 0 0 ≠ 0 → t < tmo →
      proceed p d s = { s with ports := s.ports.modify p (fun q => { q with
        seq := .cmdPoll (t + s.cfg.pollInt.toNat) tmo k, act := .pausing s.cfg.pollInt.toNat }) }) ∧
    (∀ k n, (s.port p).seq = .cmdPoll t tmo k → (s.port p).act = .pausing n →
      (s.lock.held = true → s.lock.owner ≠ p) →
      applyEnv (.expire p) s = timeout ∧
      turns p (n + 1) s = ask s.params.regCr (.cmdPoll t tmo k))

/-! ### TX.ENQ -/

/-- TX.ENQ on a chip with room that accepts and completes at once (43_fifo_sequences.md R221 to R227; the
reference slave M0, 20_memory.md R73, log 5): the size query, the pointer, the frame in the ring, the
advanced pointer, SEND, the send-complete bit seen and cleared, in that order, `OK`, `MORE`, `RESULT` and
`LEN_OUT` untouched, `RBUF` emptied (log 24). -/
def Obligations.TxEnqEnqueuesTheFrame : Prop :=
  ∀ (s : State) (len : Word) (k : Nat) (rest : List Event),
    let P := s.params
    let reg := fun (r : Word) => chipAddr P.bsbS0Reg r 0
    let rdf := fun (r : Word) (d : List Byte) => readFrame P P.bsbS0Reg r d
    let wrf := fun (r : Word) (d : List Byte) => writeFrame P P.bsbS0Reg r d
    let wr := numOf (memRead s.mem (reg P.regTxWr) P.ptrLen)
    let v := wbufBytes s.sel (s.port s.sel).wbuf 0 len.toNat
    let wr' := ptrAdd P wr len.toNat
    let m1 := ringWrite P s.mem P.bsbS0Tx wr v
    let m2 := memWrite P m1 (reg P.regTxWr) (bytesOf P.ptrLen wr')
    let m3 := chipStore P m2 (reg P.regCr) P.cmdSend
    s.ready → P.ok = true → s.clocked = true → len ≠ 0 → len.toNat ≤ P.window →
    len.toNat ≤ (numOf (memRead s.mem (reg P.regTxFsr) P.sizeLen)).toNat →
    s.events = .env (.turn s.sel k) :: rest → len.toNat + 72 ≤ k →
    ∃ e f o w, e.atRest ∧ exec (.txEnq len) s = .next
      { s with
        ports := s.ports.modify s.sel (fun q => { q.after 0x41 0 0 len 0 .ok with lockWait := w })
        lock := ⟨false, o⟩
        eng := e
        mem := chipStore P m3 (reg P.regIr) P.irSendOk
        trace :=
          [wrf P.regIr [P.irSendOk], rdf P.regIr [m3.read (reg P.regIr)],
            rdf P.regCr [0], wrf P.regCr [P.cmdSend],
            wrf P.regTxWr (bytesOf P.ptrLen wr')] ++ ringWrFrames P P.bsbS0Tx wr v ++
          [rdf P.regTxWr (memRead s.mem (reg P.regTxWr) P.ptrLen),
            rdf P.regTxFsr (memRead s.mem (reg P.regTxFsr) P.sizeLen),
            rdf P.regTxFsr (memRead s.mem (reg P.regTxFsr) P.sizeLen)] ++ s.trace
        events := rest
        free := f }

/-- 43_fifo_sequences.md R221: a frame larger than the free size ends `NoMemory` after the free-size
query, with no write frame and the chip unchanged; the comparison is strict (the statement above
takes `LEN = free`). -/
def Obligations.TxEnqWithoutRoomWritesNothing : Prop :=
  ∀ (s : State) (len : Word) (k : Nat) (rest : List Event),
    let fsr := memRead s.mem (chipAddr s.params.bsbS0Reg s.params.regTxFsr 0) s.params.sizeLen
    s.ready → s.params.ok = true → s.clocked = true → (numOf fsr).toNat < len.toNat →
    s.events = .env (.turn s.sel k) :: rest → 16 ≤ k →
    ∃ e f o w, e.atRest ∧ exec (.txEnq len) s = .next
      { s with
        ports := s.ports.modify s.sel (fun q => { q.afterError 0x41 0 0 len 0 .noMemory with lockWait := w })
        lock := ⟨false, o⟩
        eng := e
        trace := List.replicate 2 (readFrame s.params s.params.bsbS0Reg s.params.regTxFsr fsr) ++ s.trace
        events := rest
        free := f }

/-- `LEN = 0` gives `InvalidArgument` with no transport call; `LEN > WINDOW`, possible only when the
chip reports more room than a window, gives it after the pointer read (43_fifo_sequences.md R220,
R222). -/
def Obligations.TxEnqLengthChecks : Prop :=
  ∀ (s : State) (len : Word) (k : Nat) (rest : List Event),
    let P := s.params
    let fsr := memRead s.mem (chipAddr P.bsbS0Reg P.regTxFsr 0) P.sizeLen
    s.ready → P.ok = true → s.events = .env (.turn s.sel k) :: rest →
    (len = 0 → exec (.txEnq len) s = .next
      { s with ports := s.ports.modify s.sel (Port.afterError 0x41 0 0 len 0 .invalidArgument) }) ∧
    (s.clocked = true → P.window < len.toNat → len.toNat ≤ (numOf fsr).toNat → 24 ≤ k →
      ∃ e f o w, e.atRest ∧ exec (.txEnq len) s = .next
        { s with
          ports := s.ports.modify s.sel (fun q =>
            { q.afterError 0x41 0 0 len 0 .invalidArgument with lockWait := w })
          lock := ⟨false, o⟩
          eng := e
          trace := [readFrame P P.bsbS0Reg P.regTxWr (memRead s.mem (chipAddr P.bsbS0Reg P.regTxWr 0) P.ptrLen),
            readFrame P P.bsbS0Reg P.regTxFsr fsr, readFrame P P.bsbS0Reg P.regTxFsr fsr] ++ s.trace
          events := rest
          free := f })

/-- The pointer sum is a 16-bit add with the carry dropped, and its ring position is the same as that
of a pointer kept modulo `WINDOW`, whenever `WINDOW` divides `PTR_MOD` (43_fifo_sequences.md R222; R8's
defaults do, and so does `PTR_MOD` = `WINDOW`). -/
def Obligations.PointerSumKeepsTheRingPosition : Prop :=
  ∀ (P : Params) (wr : Word) (n : Nat), 0 < P.ptrMod → P.ptrMod ≤ 65536 → P.window ∣ P.ptrMod →
    (P.ptrMod = 65536 → ptrAdd P wr n = wr + BitVec.ofNat 16 n) ∧
    (ptrAdd P wr n).toNat % P.window = (wr.toNat % P.window + n) % P.window

/-- 43_fifo_sequences.md R225: the send-complete poll. The bit ends the loop; a miss counts; more than
`TXPOLL_MAX` misses end `Timeout`; after more than `TXPOLL_LIVE` misses the PHY register is read and
a dead PHY ends `Timeout`; else `REG_IR` is read again. That the loop is the same for counts outside 00_scope.md
R8's bound `0 < TXPOLL_LIVE < TXPOLL_MAX` is the model's choice (DESIGN CHOICE, log 29). -/
def Obligations.SendCompletePoll : Prop :=
  ∀ (s : State) (p r : Nat) (v : Byte), p < s.ports.length → s.cfg.en = true → s.params.ok = true →
    let ask := fun (dir : Dir) (bsb : Bsb) (off : Word) (data : List Byte) (seq : Seq) =>
      { s with ports := s.ports.modify p (fun q => { q with
        seq := seq, act := .asking ⟨dir, bsb, off, 1, data⟩, lockWait := 0 }) }
    let timeout := { s with ports := s.ports.modify p (fun q => { q with
        busy := false, done := true, err := .timeout, result := none, lenOut := none, rbuf := [],
        seq := .none, act := .rest }) }
    ((s.port p).seq = .txPoll r →
      (v &&& s.params.irSendOk ≠ 0 →
        proceed p [v] s = ask .wr s.params.bsbS0Reg s.params.regIr [s.params.irSendOk] .txClear) ∧
      (v &&& s.params.irSendOk = 0 → s.cfg.txPollMax.toNat < r + 1 → proceed p [v] s = timeout) ∧
      (v &&& s.params.irSendOk = 0 → r + 1 ≤ s.cfg.txPollMax.toNat → s.cfg.txPollLive.toNat < r + 1 →
        proceed p [v] s = ask .rd s.params.bsbCommon s.params.regPhyCfg [] (.txLive (r + 1))) ∧
      (v &&& s.params.irSendOk = 0 → r + 1 ≤ s.cfg.txPollMax.toNat → r + 1 ≤ s.cfg.txPollLive.toNat →
        proceed p [v] s = ask .rd s.params.bsbS0Reg s.params.regIr [] (.txPoll (r + 1)))) ∧
    ((s.port p).seq = .txLive r →
      (phyAlive s.params v = true →
        proceed p [v] s = ask .rd s.params.bsbS0Reg s.params.regIr [] (.txPoll r)) ∧
      (phyAlive s.params v = false → proceed p [v] s = timeout))

/-! ### RX.DEQ -/

/-- RX.DEQ with a frame waiting (43_fifo_sequences.md R230 to R239; the reference slave M0, 20_memory.md
R73, log 5): the size query, the pointer, the header, exactly `N = hv - HDR_LEN` payload bytes, the pointer
advanced by `N + HDR_LEN`, one RECV; `LEN_OUT`, `RBUF`, and `MORE` when bytes remain. -/
def Obligations.RxDeqDequeuesTheFrame : Prop :=
  ∀ (s : State) (k : Nat) (rest : List Event),
    let P := s.params
    let reg := fun (r : Word) => chipAddr P.bsbS0Reg r 0
    let rdf := fun (r : Word) (d : List Byte) => readFrame P P.bsbS0Reg r d
    let wrf := fun (r : Word) (d : List Byte) => writeFrame P P.bsbS0Reg r d
    let rsrB := memRead s.mem (reg P.regRxRsr) P.sizeLen
    let rdB := memRead s.mem (reg P.regRxRd) P.ptrLen
    let rd := numOf rdB
    let hvB := ringRead P s.mem P.bsbS0Rx rd P.hdrLen
    let hv := numOf hvB
    let n := hv.toNat - P.hdrLen
    let payload := ringRead P s.mem P.bsbS0Rx (ptrAdd P rd P.hdrLen) n
    let rd' := ptrAdd P rd hv.toNat
    let m1 := memWrite P s.mem (reg P.regRxRd) (bytesOf P.ptrLen rd')
    s.ready → P.ok = true → s.clocked = true → n ≤ P.window → P.hdrLen ≤ hv.toNat →
    hv.toNat ≤ (numOf rsrB).toNat →
    n ≤ s.cfg.maxFrame.toNat → s.events = .env (.turn s.sel k) :: rest → n + 72 ≤ k →
    ∃ e f o w, e.atRest ∧ exec .rxDeq s = .next
      { s with
        ports := s.ports.modify s.sel (fun q =>
          { q.after 0x42 0 0 0 0 .ok with lenOut := some (BitVec.ofNat 16 n), rbuf := payload, lockWait := w })
        more := decide (hv.toNat < (numOf rsrB).toNat)
        lock := ⟨false, o⟩
        eng := e
        mem := chipStore P m1 (reg P.regCr) P.cmdRecv
        trace :=
          [rdf P.regCr [0], wrf P.regCr [P.cmdRecv], wrf P.regRxRd (bytesOf P.ptrLen rd')] ++
          ringRdFrames P P.bsbS0Rx (ptrAdd P rd P.hdrLen) payload ++ ringRdFrames P P.bsbS0Rx rd hvB ++
          [rdf P.regRxRd rdB, rdf P.regRxRsr rsrB, rdf P.regRxRsr rsrB] ++ s.trace
        events := rest
        free := f }

/-- 43_fifo_sequences.md R231: with received size 0, `LEN_OUT` is 0, the operation ends `OK` with no
further transport call, and `MORE` stays 0; `RBUF` is emptied (log 24). -/
def Obligations.RxDeqOfAnEmptyRing : Prop :=
  ∀ (s : State) (k : Nat) (rest : List Event),
    let rsrB := memRead s.mem (chipAddr s.params.bsbS0Reg s.params.regRxRsr 0) s.params.sizeLen
    s.ready → s.params.ok = true → s.clocked = true → numOf rsrB = 0 →
    s.events = .env (.turn s.sel k) :: rest → 16 ≤ k →
    ∃ e f o w, e.atRest ∧ exec .rxDeq s = .next
      { s with
        ports := s.ports.modify s.sel (fun q =>
          { q.after 0x42 0 0 0 0 .ok with lenOut := some 0, lockWait := w })
        more := false
        lock := ⟨false, o⟩
        eng := e
        trace := List.replicate 2 (readFrame s.params s.params.bsbS0Reg s.params.regRxRsr rsrB) ++ s.trace
        events := rest
        free := f }

/-- 43_fifo_sequences.md R233: an impossible header ends `CorruptHeader` with no further transport
call, the read pointer where it was and `MORE` = 0; such a state is faulted, and the step after it stops
(60_exceptions.md R251; 93 U8; log 10). -/
def Obligations.ImpossibleHeaderIsCorrupt : Prop :=
  ∀ (s : State) (k : Nat) (rest : List Event),
    let P := s.params
    let rsrB := memRead s.mem (chipAddr P.bsbS0Reg P.regRxRsr 0) P.sizeLen
    let rdB := memRead s.mem (chipAddr P.bsbS0Reg P.regRxRd 0) P.ptrLen
    let hvB := ringRead P s.mem P.bsbS0Rx (numOf rdB) P.hdrLen
    let hv := numOf hvB
    s.ready → P.ok = true → s.clocked = true → numOf rsrB ≠ 0 →
    (hv.toNat < P.hdrLen ∨ (numOf rsrB).toNat < hv.toNat ∨ s.cfg.maxFrame.toNat < hv.toNat - P.hdrLen) →
    s.events = .env (.turn s.sel k) :: rest → 38 ≤ k →
    ∃ t, exec .rxDeq s = .next t ∧ t.faulted = true ∧ step t = .fault .corruptHeader ∧
      ∃ e f o w, e.atRest ∧ t =
        { s with
          ports := s.ports.modify s.sel (fun q =>
            { q.afterError 0x42 0 0 0 0 .corruptHeader with lockWait := w })
          more := false
          lock := ⟨false, o⟩
          eng := e
          trace := ringRdFrames P P.bsbS0Rx (numOf rdB) hvB ++
            [readFrame P P.bsbS0Reg P.regRxRd rdB, readFrame P P.bsbS0Reg P.regRxRsr rsrB,
              readFrame P P.bsbS0Reg P.regRxRsr rsrB] ++ s.trace
          events := rest
          free := f }

/-- A possible header whose payload is longer than a window (`MAX_FRAME` may exceed `WINDOW`): the
ring accessor's length check ends the operation `InvalidArgument` after the header, with the read
pointer where it was (43_fifo_sequences.md R234, 41_ring_accessor.md R177). -/
def Obligations.RxDeqPayloadBeyondAWindow : Prop :=
  ∀ (s : State) (k : Nat) (rest : List Event),
    let P := s.params
    let rsrB := memRead s.mem (chipAddr P.bsbS0Reg P.regRxRsr 0) P.sizeLen
    let rdB := memRead s.mem (chipAddr P.bsbS0Reg P.regRxRd 0) P.ptrLen
    let hvB := ringRead P s.mem P.bsbS0Rx (numOf rdB) P.hdrLen
    let hv := numOf hvB
    s.ready → P.ok = true → s.clocked = true → hv.toNat ≤ (numOf rsrB).toNat →
    hv.toNat - P.hdrLen ≤ s.cfg.maxFrame.toNat →
    P.window < hv.toNat - P.hdrLen → s.events = .env (.turn s.sel k) :: rest → 38 ≤ k →
    ∃ e f o w, e.atRest ∧ exec .rxDeq s = .next
      { s with
        ports := s.ports.modify s.sel (fun q =>
          { q.afterError 0x42 0 0 0 0 .invalidArgument with lockWait := w })
        more := false
        lock := ⟨false, o⟩
        eng := e
        trace := ringRdFrames P P.bsbS0Rx (numOf rdB) hvB ++
          [readFrame P P.bsbS0Reg P.regRxRd rdB, readFrame P P.bsbS0Reg P.regRxRsr rsrB,
            readFrame P P.bsbS0Reg P.regRxRsr rsrB] ++ s.trace
        events := rest
        free := f }

/-- `MORE` is written by RX.DEQ alone (10_state.md R28): a turn changes it only when it delivers the
last poll of an RX.DEQ with bytes remaining, and no instruction but RX.DEQ changes it when it is
started. -/
def Obligations.MoreIsWrittenByRxDeqAlone : Prop :=
  (∀ (p : Nat) (s : State), (turn p s).more ≠ s.more →
    (turn p s).more = true ∧ s.lock.held = true ∧ s.lock.owner = p ∧
    ∃ t tmo rsr hv d, (s.port p).seq = .cmdPoll t tmo (.rx rsr hv d) ∧ hv.toNat < rsr.toNat) ∧
  (∀ (i : Instr) (s t : State), s.events = [] → i ≠ .rxDeq → exec i s = .next t → t.more = s.more)

/-! ### The whole machine -/

/-- The invariant holds after reset. -/
def Obligations.InvariantHoldsAtReset : Prop := State.reset.Inv

/-- Every step keeps the invariant: canonical memory, lock and chip select in step with the frame engine,
bounded frames, idle ports at rest, no status `Unsupported` (60_exceptions.md R254), and the clock in its
valid range while the block is enabled (40_transport.md R141). -/
def Obligations.StepKeepsTheInvariant : Prop :=
  ∀ s t : State, s.Inv → step s = .next t → t.Inv

/-- A turn of one port leaves every other port's registers, the configuration, the parameters and
the list of what comes next alone (60_exceptions.md R256, R272). -/
def Obligations.TurnTouchesNoOtherPort : Prop :=
  ∀ (p q : Nat) (s : State), p ≠ q →
    (turn p s).port q = s.port q ∧ (turn p s).cfg = s.cfg ∧ (turn p s).params = s.params ∧
    (turn p s).events = s.events ∧ (turn p s).ports.length = s.ports.length

/-- A turn changes the chip only by the one byte of the owner's write frame, and for a command byte
by the reaction of the interrupt-status register (20_memory.md R69, R71, R73), or within the block of a
frame that it opens and whose effect the spec leaves open (93 U2, U3; log 25), or anywhere in the chip
where it opens a frame outside the valid range of the clock (93 U19; log 11). -/
def Obligations.TurnWritesOneByteOfItsFrame : Prop :=
  ∀ (p a : Nat) (s : State), (turn p s).mem.read a ≠ s.mem.read a →
    s.lock.held = true ∧ s.lock.owner = p ∧
    ((s.eng.ph = .data ∧ s.eng.dir = .wr ∧ s.clocked = true ∧ wild s.params s.eng.bsb s.eng.off s.eng.count = false ∧
        (a = chipAddr s.eng.bsb s.eng.off s.eng.idx.toNat ∨
          (chipAddr s.eng.bsb s.eng.off s.eng.idx.toNat = chipAddr s.params.bsbS0Reg s.params.regCr 0 ∧
            a = chipAddr s.params.bsbS0Reg s.params.regIr 0))) ∨
      (s.eng.ph = .idle ∧ ∃ h dir bsb off, s.eng.staged = some h ∧
        wireTarget s.params.ctrl h = some (dir, bsb, off) ∧
        (s.clocked = true → wild s.params bsb off s.eng.count = true ∧ a / Config.blockSize = bsb.toNat)))

/-- No instruction changes the configuration or the parameters; a step changes the configuration
only for a write of registers 0 to 7 or the reset input, and the parameters never
(10_state.md R27, R30). -/
def Obligations.ConfigurationChangesByRegisterWritesOnly : Prop :=
  (∀ (i : Instr) (s t : State), exec i s = .next t → t.cfg = s.cfg ∧ t.params = s.params) ∧
  (∀ s t : State, step s = .next t → t.params = s.params ∧
    (t.cfg ≠ s.cfg → s.faulted = false ∧
      ((s.eng.staged = none ∧ ∃ n v rest, s.events = .write n v :: rest ∧ n ≤ 7) ∨
        ∃ cut rest, s.events = .reset cut :: rest)))

/-- The frame of the reading operations XFER.RD, BUF.RD, GET.TXFREE and GET.RXSIZE, complete or still
running, when no other agent moves: every byte of the chip reads as before (but for the block of an
XFER.RD whose answer the spec leaves open, 93 U2, U3, log 25; outside the valid range of the clock the
chip is open, 93 U19, log 11), and the other ports, `MORE`, the
configuration and the operands of the port but for those the descriptor gives are unchanged
(20_memory.md R74, 10_state.md R27). -/
def Obligations.ReadingOperationsFrame : Prop :=
  ∀ (s t : State) (i : Instr) (d : Descriptor),
    ((∃ bsb off len, i = .xferRd bsb off len) ∨ (∃ bsb off len, i = .bufRd bsb off len) ∨
      i = .getTxFree ∨ i = .getRxSize) → encode s.params.ctrl i = .cmd d →
    s.ready → s.params.ok = true → s.solo s.sel → exec i s = .next t →
    (s.clocked = true → ∀ a, (∀ bsb off len, i = .xferRd bsb off len → wild s.params bsb off len.toNat = true →
        a / Config.blockSize ≠ bsb.toNat) → t.mem.read a = s.mem.read a) ∧
    t.more = s.more ∧ t.cfg = s.cfg ∧ t.params = s.params ∧
    (∀ q, q ≠ s.sel → t.port q = s.port q) ∧ (t.port s.sel).wbuf = (s.port s.sel).wbuf ∧
    (t.port s.sel).opc = opcOf d ∧ (t.port s.sel).bsb = bsbOf d ∧ (t.port s.sel).off = offOf d ∧
    (t.port s.sel).len = lenOf d ∧ (t.port s.sel).aux = auxOf d ∧
    (t.port s.sel).lenOut ∈ [(s.port s.sel).lenOut, none] ∧
    (i ≠ .getTxFree → i ≠ .getRxSize → (t.port s.sel).result ∈ [(s.port s.sel).result, none])

/-- The frame of XFER.WR, BUF.WR and SOCK.CMD, complete or still running, when no other agent moves:
every byte of the chip outside the bytes addressed (for an XFER.WR whose effect the spec leaves open,
outside its block, 93 U2, U3, log 25; in the valid range of the clock, log 11; and but for the
interrupt-status register, which reacts to the command register) reads as before, and `MORE`, the
configuration, the operands of the port but for those the descriptor gives, its results and the other ports are unchanged (20_memory.md R71, R73; 10_state.md
R27; `RBUF` is emptied, log 24). -/
def Obligations.WritingOperationsFrame : Prop :=
  ∀ (s t : State) (i : Instr) (d : Descriptor) (stored : Nat → Prop),
    ((∃ bsb off len, i = .xferWr bsb off len ∧
        stored = fun a => if wild s.params bsb off len.toNat = true then a / Config.blockSize = bsb.toNat
          else ∃ j, j < len.toNat ∧ a = chipAddr bsb off j) ∨
      (∃ win off len, i = .bufWr win off len ∧
        stored = fun a => ∃ j, j < len.toNat ∧ a = ringAddr s.params win off j) ∨
      (∃ code tmo, i = .sockCmd code tmo ∧
        stored = fun a => a = chipAddr s.params.bsbS0Reg s.params.regCr 0)) →
    encode s.params.ctrl i = .cmd d →
    s.ready → s.params.ok = true → s.solo s.sel → exec i s = .next t →
    (s.clocked = true → ∀ a, ¬ stored a →
      (stored (chipAddr s.params.bsbS0Reg s.params.regCr 0) → a ≠ chipAddr s.params.bsbS0Reg s.params.regIr 0) →
      t.mem.read a = s.mem.read a) ∧
    t.more = s.more ∧ t.cfg = s.cfg ∧ t.params = s.params ∧
    (∀ q, q ≠ s.sel → t.port q = s.port q) ∧ (t.port s.sel).wbuf = (s.port s.sel).wbuf ∧
    (t.port s.sel).opc = opcOf d ∧ (t.port s.sel).bsb = bsbOf d ∧ (t.port s.sel).off = offOf d ∧
    (t.port s.sel).len = lenOf d ∧ (t.port s.sel).aux = auxOf d ∧
    (t.port s.sel).result ∈ [(s.port s.sel).result, none] ∧
    (t.port s.sel).lenOut ∈ [(s.port s.sel).lenOut, none] ∧ (t.port s.sel).rbuf = []

/-- The frame of TX.ENQ and RX.DEQ, complete or still running, when no other agent moves, for the chip's
memory in the valid range of the clock (log 11; 43_fifo_sequences.md R228, R237): TX.ENQ writes only the
ring bytes at the pointer it reads, the write pointer, the command and the interrupt-status register, and leaves `MORE`, `RESULT` and `LEN_OUT`
(which hold no value after an error, 10_state.md R22; `RBUF` is emptied, log 24); RX.DEQ writes only the
read pointer, the command and (by the reaction to it) the interrupt-status register, and leaves
`RESULT`. The operands of the port are those the descriptor gives, and the other ports and the
configuration are unchanged. -/
def Obligations.FifoOperationsFrame : Prop :=
  ∀ (s t : State), s.ready → s.params.ok = true → s.solo s.sel →
    let operands := fun (opc : Byte) (len : Word) =>
      (t.port s.sel).opc = opc ∧ (t.port s.sel).bsb = 0 ∧ (t.port s.sel).off = 0 ∧
      (t.port s.sel).len = len ∧ (t.port s.sel).aux = 0 ∧ (t.port s.sel).wbuf = (s.port s.sel).wbuf
    (∀ len, exec (.txEnq len) s = .next t →
      (s.clocked = true → ∀ a, (∀ j < len.toNat, a ≠ ringAddr s.params s.params.bsbS0Tx
            (numOf (memRead s.mem (chipAddr s.params.bsbS0Reg s.params.regTxWr 0) s.params.ptrLen)) j) →
        (∀ j < s.params.ptrLen, a ≠ chipAddr s.params.bsbS0Reg s.params.regTxWr j) →
        a ≠ chipAddr s.params.bsbS0Reg s.params.regCr 0 → a ≠ chipAddr s.params.bsbS0Reg s.params.regIr 0 →
        t.mem.read a = s.mem.read a) ∧
      t.more = s.more ∧ t.cfg = s.cfg ∧ t.params = s.params ∧ (∀ q, q ≠ s.sel → t.port q = s.port q) ∧
      operands 0x41 len ∧ (t.port s.sel).result ∈ [(s.port s.sel).result, none] ∧
      (t.port s.sel).lenOut ∈ [(s.port s.sel).lenOut, none] ∧ (t.port s.sel).rbuf = []) ∧
    (exec .rxDeq s = .next t →
      (s.clocked = true → ∀ a, (∀ j < s.params.ptrLen, a ≠ chipAddr s.params.bsbS0Reg s.params.regRxRd j) →
        a ≠ chipAddr s.params.bsbS0Reg s.params.regCr 0 → a ≠ chipAddr s.params.bsbS0Reg s.params.regIr 0 →
        t.mem.read a = s.mem.read a) ∧
      t.cfg = s.cfg ∧ t.params = s.params ∧ (∀ q, q ≠ s.sel → t.port q = s.port q) ∧
      operands 0x42 0 ∧ (t.port s.sel).result ∈ [(s.port s.sel).result, none])
end

