-- ==== Sys2Proof/Laws/Decode.lean ====
section
/-! SUPPORT. The laws of the encodings: the fields of a built word, the word its fields build, and
the one thing a decoded descriptor can be. -/

namespace Sys2Proof

section Fields

variable (opc : Byte) (bsb : Bsb) (off len aux : Word)

theorem opcOf_descriptor : opcOf (descriptor opc bsb off len aux) = opc := by
  apply BitVec.eq_of_getLsbD_eq; intro i hi
  simp only [opcOf, descriptor, BitVec.getLsbD_extractLsb', BitVec.getLsbD_append]
  interval_cases i <;> simp

theorem bsbOf_descriptor : bsbOf (descriptor opc bsb off len aux) = bsb := by
  apply BitVec.eq_of_getLsbD_eq; intro i hi
  simp only [bsbOf, descriptor, BitVec.getLsbD_extractLsb', BitVec.getLsbD_append]
  interval_cases i <;> simp

theorem rsvOf_descriptor : rsvOf (descriptor opc bsb off len aux) = 0 := by
  apply BitVec.eq_of_getLsbD_eq; intro i hi
  simp only [rsvOf, descriptor, BitVec.getLsbD_extractLsb', BitVec.getLsbD_append]
  interval_cases i <;> simp

theorem offOf_descriptor : offOf (descriptor opc bsb off len aux) = off := by
  apply BitVec.eq_of_getLsbD_eq; intro i hi
  simp only [offOf, descriptor, BitVec.getLsbD_extractLsb', BitVec.getLsbD_append]
  interval_cases i <;> simp

theorem lenOf_descriptor : lenOf (descriptor opc bsb off len aux) = len := by
  apply BitVec.eq_of_getLsbD_eq; intro i hi
  simp only [lenOf, descriptor, BitVec.getLsbD_extractLsb', BitVec.getLsbD_append]
  interval_cases i <;> simp

theorem auxOf_descriptor : auxOf (descriptor opc bsb off len aux) = aux := by
  apply BitVec.eq_of_getLsbD_eq; intro i hi
  simp only [auxOf, descriptor, BitVec.getLsbD_extractLsb', BitVec.getLsbD_append]
  interval_cases i <;> simp

end Fields

/-- A descriptor whose reserved bits are zero is built from its fields (30_encoding.md R109). -/
theorem descriptor_fields {d : Descriptor} (h : rsvOf d = 0) :
    descriptor (opcOf d) (bsbOf d) (offOf d) (lenOf d) (auxOf d) = d := by
  apply BitVec.eq_of_getLsbD_eq; intro i hi
  have hr : ∀ j < 3, d.getLsbD (48 + j) = false := fun j hj => by
    have := congrArg (fun x : BitVec 3 => x.getLsbD j) h
    simpa [rsvOf, hj] using this
  have h0 := hr 0; have h1 := hr 1; have h2 := hr 2
  simp only [opcOf, bsbOf, offOf, lenOf, auxOf, descriptor, BitVec.getLsbD_extractLsb', BitVec.getLsbD_append]
  interval_cases i <;> simp_all

section Layout

variable {L : CtrlLayout}

/-- What a usable layout says of its widths and its two fields (30_encoding.md R101, R103). -/
structure CtrlLayout.Usable (L : CtrlLayout) : Prop where
  off : L.offW = 16
  ctrl : L.ctrlW = 8
  width : 5 ≤ L.bsbW
  fits : L.bsbPos + L.bsbW ≤ 8
  dir : L.rwbPos < 8
  apart : L.rwbPos < L.bsbPos ∨ L.bsbPos + L.bsbW ≤ L.rwbPos
  rest : ∀ j < 8, L.om.getLsbD j = true → (j < L.bsbPos ∨ L.bsbPos + L.bsbW ≤ j) ∧ j ≠ L.rwbPos

/-- The low `w` bits of a byte. -/
theorem getLsbD_lowMask {w j : Nat} (hw : w ≤ 8) (hj : j < 8) :
    ((1#8 <<< w) - 1#8).getLsbD j = decide (j < w) := by
  have key : ∀ (w : Fin 9) (j : Fin 8), ((1#8 <<< w.val) - 1#8).getLsbD j.val = decide (j.val < w.val) := by
    decide
  exact key ⟨w, by omega⟩ ⟨j, hj⟩

/-- The bits of the direction field. -/
theorem getLsbD_rwbBits (L : CtrlLayout) (dir : Dir) {j : Nat} (hj : j < 8) :
    (L.rwbBits dir).getLsbD j = (decide (j = L.rwbPos) && decide (dir = .wr)) := by
  simp only [CtrlLayout.rwbBits, BitVec.getLsbD_shiftLeft, BitVec.getLsbD_setWidth, hj]
  by_cases h : j < L.rwbPos
  · simp [h, Nat.ne_of_lt h]
  · by_cases he : j = L.rwbPos
    · subst he; cases dir <;> simp [Dir.bit]
    · have : (dir.bit).getLsbD (j - L.rwbPos) = false := BitVec.getLsbD_of_ge _ _ (by omega)
      simp [h, he, this]

/-- The bits of the block-select field. -/
theorem getLsbD_bsbBits (hw : 5 ≤ L.bsbW) (hf : L.bsbPos + L.bsbW ≤ 8) (bsb : Bsb) {j : Nat} (hj : j < 8) :
    (L.bsbBits bsb).getLsbD j = (decide (L.bsbPos ≤ j) && bsb.getLsbD (j - L.bsbPos)) := by
  simp only [CtrlLayout.bsbBits, BitVec.getLsbD_shiftLeft, BitVec.getLsbD_and, BitVec.getLsbD_setWidth, hj]
  by_cases h : j < L.bsbPos
  · simp [h, Nat.not_le.mpr h]
  · rw [getLsbD_lowMask (by omega) (by omega)]
    by_cases h5 : j - L.bsbPos < 5
    · have a : j - L.bsbPos < L.bsbW := by omega
      have b : j - L.bsbPos < 8 := by omega
      simp [h, a, b, Nat.not_lt.mp h]
    · have : bsb.getLsbD (j - L.bsbPos) = false := BitVec.getLsbD_of_ge _ _ (by omega)
      simp [this]

/-- The bits both fields can cover. -/
theorem getLsbD_fieldMask (hw : L.bsbPos + L.bsbW ≤ 8) {j : Nat} (hj : j < 8) :
    ((((1#8 <<< L.bsbW) - 1#8) <<< L.bsbPos) ||| L.rwbBits .wr).getLsbD j =
      (decide (L.bsbPos ≤ j ∧ j < L.bsbPos + L.bsbW) || decide (j = L.rwbPos)) := by
  rw [BitVec.getLsbD_or, getLsbD_rwbBits _ _ hj, BitVec.getLsbD_shiftLeft]
  by_cases h : j < L.bsbPos
  · simp [hj, h, Nat.not_le.mpr h]
  · have hs : j - L.bsbPos < L.bsbW ↔ j < L.bsbPos + L.bsbW := by omega
    rw [getLsbD_lowMask (by omega) (by omega)]
    simp [hj, h, Nat.not_lt.mp h, hs]

theorem CtrlLayout.usable (h : L.ok = true) : L.Usable := by
  simp only [CtrlLayout.ok, Bool.and_eq_true, Bool.or_eq_true, decide_eq_true_eq] at h
  obtain ⟨⟨⟨⟨⟨⟨ho, hc⟩, hw⟩, hf⟩, hd⟩, ha⟩, hm⟩ := h
  refine ⟨ho, hc, hw, hf, hd, ha, fun j hj hb => ?_⟩
  have hz := congrArg (fun x : Byte => x.getLsbD j) hm
  simp only [BitVec.getLsbD_and, getLsbD_fieldMask hf hj, hb, Bool.true_and, BitVec.getLsbD_zero] at hz
  simp only [Bool.or_eq_false_iff, decide_eq_false_iff_not, not_and] at hz
  exact ⟨by omega, hz.2⟩

/-- The bits of a control byte (30_encoding.md R101). -/
theorem getLsbD_ctrlByte (h : L.Usable) (dir : Dir) (bsb : Bsb) {j : Nat} (hj : j < 8) :
    (ctrlByte L dir bsb).getLsbD j =
      ((decide (L.bsbPos ≤ j) && bsb.getLsbD (j - L.bsbPos) || decide (j = L.rwbPos) && decide (dir = .wr)) ||
        L.om.getLsbD j) := by
  rw [ctrlByte, BitVec.getLsbD_or, BitVec.getLsbD_or, getLsbD_bsbBits h.width h.fits bsb hj,
    getLsbD_rwbBits _ _ hj]

/-- The bits that the two fields cover with five-bit block selects. -/
theorem getLsbD_fields (h : L.Usable) {j : Nat} (hj : j < 8) :
    L.fields.getLsbD j = (decide (L.bsbPos ≤ j ∧ j < L.bsbPos + 5) || decide (j = L.rwbPos)) := by
  rw [CtrlLayout.fields, BitVec.getLsbD_or, getLsbD_bsbBits h.width h.fits _ hj, getLsbD_rwbBits _ _ hj]
  by_cases hp : L.bsbPos ≤ j
  · have key : ∀ k : Fin 8, (31#5).getLsbD k.val = decide (k.val < 5) := by decide
    have k := key ⟨j - L.bsbPos, by omega⟩
    have hs : j - L.bsbPos < 5 ↔ j < L.bsbPos + 5 := by omega
    simp [hp, k, hs]
  · simp [hp]

/-- The header of a usable layout is the offset and then the control byte (30_encoding.md R103). -/
theorem header_eq (h : L.Usable) (dir : Dir) (bsb : Bsb) (off : Word) :
    header L dir bsb off = off ++ ctrlByte L dir bsb := by
  apply BitVec.eq_of_getLsbD_eq; intro i hi
  have hm : (1#24 <<< 16) - 1#24 = 0xFFFF#24 := by decide
  have key : ∀ k : Fin 24, (0xFFFF#24).getLsbD k.val = decide (k.val < 16) := by decide
  rw [header, h.off, h.ctrl, hm, BitVec.getLsbD_or, BitVec.getLsbD_shiftLeft, BitVec.getLsbD_and,
    BitVec.getLsbD_setWidth, BitVec.getLsbD_setWidth, BitVec.getLsbD_append]
  by_cases h8 : i < 8
  · simp [hi, h8]
  · have k := key ⟨i - 8, by omega⟩
    have hz : (ctrlByte L dir bsb).getLsbD i = false := BitVec.getLsbD_of_ge _ _ (by omega)
    have h16 : i - 8 < 16 := by omega
    have h24 : i - 8 < 24 := by omega
    simp [hi, h8, k, hz, h16, h24]

/-- A usable layout reads the last byte of a header as its control byte. -/
theorem CtrlLayout.Usable.ctrlBits (h : L.Usable) (w : Header) : L.ctrlBits w = ctrlOf w := by
  rw [CtrlLayout.ctrlBits, h.ctrl, show (1#8 <<< 8) - 1#8 = BitVec.allOnes 8 by decide, BitVec.and_allOnes]

/-- A usable layout reads the first two bytes of a header as its offset. -/
theorem CtrlLayout.Usable.offBits (h : L.Usable) (w : Header) : L.offBits w = w.extractLsb' 8 16 := by
  apply BitVec.eq_of_getLsbD_eq; intro i hi
  have hm : (1#24 <<< 16) - 1#24 = 0xFFFF#24 := by decide
  have key : ∀ k : Fin 24, (0xFFFF#24).getLsbD k.val = decide (k.val < 16) := by decide
  have k := key ⟨i, by omega⟩
  rw [CtrlLayout.offBits, h.off, h.ctrl, hm, BitVec.getLsbD_setWidth, BitVec.getLsbD_and,
    BitVec.getLsbD_ushiftRight, BitVec.getLsbD_extractLsb']
  simp_all

/-- The control byte of a header, and its offset. -/
theorem ctrlOf_header (h : L.Usable) (dir : Dir) (bsb : Bsb) (off : Word) :
    ctrlOf (header L dir bsb off) = ctrlByte L dir bsb := by
  apply BitVec.eq_of_getLsbD_eq; intro i hi
  rw [ctrlOf, header_eq h, BitVec.getLsbD_extractLsb', BitVec.getLsbD_append]
  simp [hi]

theorem offset_header (h : L.Usable) (dir : Dir) (bsb : Bsb) (off : Word) :
    (header L dir bsb off).extractLsb' 8 16 = off := by
  apply BitVec.eq_of_getLsbD_eq; intro i hi
  rw [header_eq h, BitVec.getLsbD_extractLsb', BitVec.getLsbD_append]
  simp [hi]

/-- The decoder reads back the direction and the address of a header. -/
theorem wireTarget_header (hL : L.ok = true) (dir : Dir) (bsb : Bsb) (off : Word) :
    wireTarget L (header L dir bsb off) = some (dir, bsb, off) := by
  have h := CtrlLayout.usable hL
  rw [wireTarget, h.ctrlBits, h.offBits, ctrlOf_header h, offset_header h]
  have hm : ctrlByte L dir bsb &&& ~~~L.fields = L.om := by
    apply BitVec.eq_of_getLsbD_eq; intro j hj
    rw [BitVec.getLsbD_and, BitVec.getLsbD_not, getLsbD_ctrlByte h _ _ hj, getLsbD_fields h hj]
    have hr := h.rest j hj
    have ho : L.bsbPos + 5 ≤ j → bsb.getLsbD (j - L.bsbPos) = false := fun h5 =>
      BitVec.getLsbD_of_ge _ _ (by omega)
    have hw := h.width
    by_cases hp : L.bsbPos ≤ j <;> by_cases h5 : L.bsbPos + 5 ≤ j <;> by_cases hq : j = L.rwbPos <;>
      cases hom : L.om.getLsbD j <;> (simp_all; try omega)
  have hd : (ctrlByte L dir bsb).getLsbD L.rwbPos = decide (dir = .wr) := by
    rw [getLsbD_ctrlByte h _ _ h.dir]
    have hr := h.rest L.rwbPos h.dir
    have hz : (decide (L.bsbPos ≤ L.rwbPos) && bsb.getLsbD (L.rwbPos - L.bsbPos)) = false := by
      rcases h.apart with ha | ha
      · simp [Nat.not_le.mpr ha]
      · have := h.width
        rw [BitVec.getLsbD_of_ge bsb (L.rwbPos - L.bsbPos) (by omega)]; simp
    cases hom : L.om.getLsbD L.rwbPos
    · simp [hz]
    · exact absurd rfl (hr hom).2
  have hb : ((ctrlByte L dir bsb >>> L.bsbPos) &&& ((1#8 <<< L.bsbW) - 1#8)).setWidth 5 = bsb := by
    have hw := h.width
    have hf := h.fits
    apply BitVec.eq_of_getLsbD_eq; intro j hj
    rw [BitVec.getLsbD_setWidth, BitVec.getLsbD_and, BitVec.getLsbD_ushiftRight,
      getLsbD_ctrlByte h _ _ (by omega), getLsbD_lowMask (by omega) (by omega)]
    have hr := h.rest (L.bsbPos + j) (by omega)
    have hq : L.bsbPos + j ≠ L.rwbPos := by
      have := h.apart; omega
    have ho : L.om.getLsbD (L.bsbPos + j) = false := by
      cases hom : L.om.getLsbD (L.bsbPos + j)
      · rfl
      · have := (hr hom).1; omega
    have hl : j < L.bsbW := by omega
    simp [hj, hq, ho, hl]
  rw [if_pos hm, hd, hb]
  cases dir <;> simp

/-- A header that the decoder accepts is built from its fields (30_encoding.md R101). -/
theorem header_fields (hL : L.ok = true) {w : Header} {dir : Dir} {bsb : Bsb} {off : Word}
    (hw : wireTarget L w = some (dir, bsb, off)) : header L dir bsb off = w := by
  have h := CtrlLayout.usable hL
  unfold wireTarget at hw
  rw [h.ctrlBits, h.offBits] at hw
  by_cases hm : ctrlOf w &&& ~~~L.fields = L.om
  · rw [if_pos hm] at hw
    simp only [Option.some.injEq, Prod.mk.injEq] at hw
    obtain ⟨hd, hb, ho⟩ := hw
    have hc : ctrlByte L dir bsb = ctrlOf w := by
      apply BitVec.eq_of_getLsbD_eq; intro j hj
      have hj' := congrArg (fun x : Byte => x.getLsbD j) hm
      simp only [BitVec.getLsbD_and, BitVec.getLsbD_not, hj, decide_true, Bool.true_and,
        getLsbD_fields h hj] at hj'
      have hdir : decide (dir = .wr) = (ctrlOf w).getLsbD L.rwbPos := by
        rw [← hd]; cases (ctrlOf w).getLsbD L.rwbPos <;> simp
      have hfit := h.fits
      have hwid := h.width
      have hr := h.rest j hj
      rw [getLsbD_ctrlByte h _ _ hj, hdir]
      by_cases h5 : L.bsbPos ≤ j ∧ j < L.bsbPos + 5
      · have hbit : bsb.getLsbD (j - L.bsbPos) = (ctrlOf w).getLsbD j := by
          rw [← hb, BitVec.getLsbD_setWidth, BitVec.getLsbD_and, BitVec.getLsbD_ushiftRight,
            getLsbD_lowMask (by omega) (by omega), Nat.add_sub_cancel' h5.1]
          have a : j - L.bsbPos < 5 := by omega
          have b : j - L.bsbPos < L.bsbW := by omega
          simp [a, b]
        have hq : j ≠ L.rwbPos := by have := h.apart; omega
        have hom : L.om.getLsbD j = false := by simpa [h5] using hj'.symm
        simp [h5.1, hbit, hq, hom]
      · have hz : (decide (L.bsbPos ≤ j) && bsb.getLsbD (j - L.bsbPos)) = false := by
          by_cases hp : L.bsbPos ≤ j
          · rw [BitVec.getLsbD_of_ge bsb (j - L.bsbPos) (by omega)]; simp
          · simp [hp]
        by_cases hq : j = L.rwbPos
        · have hom : L.om.getLsbD j = false := by simpa [hq] using hj'.symm
          rw [hz, hom, hq]; simp
        · rw [hz]; simpa [h5, hq] using hj'.symm
    apply BitVec.eq_of_getLsbD_eq; intro i hi
    rw [header_eq h, BitVec.getLsbD_append, hc, ← ho]
    by_cases h8 : i < 8
    · simp [ctrlOf, h8]
    · have : i - 8 < 16 := by omega
      simp only [h8, if_false, BitVec.getLsbD_extractLsb', this, decide_true, Bool.true_and]
      congr 1; omega
  · rw [if_neg hm] at hw; cases hw

/-- The header bytes put together are the header (30_encoding.md R100). -/
theorem headerByte_append (w : Header) : headerByte w 0 ++ (headerByte w 1 ++ headerByte w 2) = w := by
  apply BitVec.eq_of_getLsbD_eq; intro i hi
  simp only [headerByte, ctrlOf, BitVec.getLsbD_append, BitVec.getLsbD_extractLsb']
  interval_cases i <;> simp

end Layout

/-- One row of the decoder's list: its opcode with its unused fields zero, or what the rest answers. -/
theorem row_or_next {opc unused : Prop} [Decidable opc] [Decidable unused] {a i : Instr} {next : Option Instr}
    (h : (if opc then if unused then some a else none else next) = some i) :
    (opc ∧ unused ∧ i = a) ∨ next = some i := by
  by_cases ho : opc
  · rw [if_pos ho] at h
    by_cases hu : unused
    · rw [if_pos hu] at h; exact .inl ⟨ho, hu, (Option.some.inj h).symm⟩
    · rw [if_neg hu] at h; cases h
  · rw [if_neg ho] at h; exact .inr h

/-- What a decoded descriptor can be: one of the nine rows of 30_encoding.md R110, with the fields
that row does not use zero. -/
theorem decodeCmd_cases {d : Descriptor} {i : Instr} (h : decodeCmd d = some i) : rsvOf d = 0 ∧
   ((opcOf d = 0x01 ∧ auxOf d = 0 ∧ i = .xferRd (bsbOf d) (offOf d) (lenOf d)) ∨
    (opcOf d = 0x02 ∧ auxOf d = 0 ∧ i = .xferWr (bsbOf d) (offOf d) (lenOf d)) ∨
    (opcOf d = 0x11 ∧ auxOf d = 0 ∧ i = .bufRd (bsbOf d) (offOf d) (lenOf d)) ∨
    (opcOf d = 0x12 ∧ auxOf d = 0 ∧ i = .bufWr (bsbOf d) (offOf d) (lenOf d)) ∨
    (opcOf d = 0x21 ∧ (bsbOf d = 0 ∧ offOf d = 0 ∧ lenOf d = 0 ∧ auxOf d = 0) ∧ i = .getTxFree) ∨
    (opcOf d = 0x22 ∧ (bsbOf d = 0 ∧ offOf d = 0 ∧ lenOf d = 0 ∧ auxOf d = 0) ∧ i = .getRxSize) ∨
    (opcOf d = 0x30 ∧ (bsbOf d = 0 ∧ offOf d = 0 ∧ (lenOf d).extractLsb' 8 8 = 0) ∧
      i = .sockCmd ((lenOf d).extractLsb' 0 8) (auxOf d)) ∨
    (opcOf d = 0x41 ∧ (bsbOf d = 0 ∧ offOf d = 0 ∧ auxOf d = 0) ∧ i = .txEnq (lenOf d)) ∨
    (opcOf d = 0x42 ∧ (bsbOf d = 0 ∧ offOf d = 0 ∧ lenOf d = 0 ∧ auxOf d = 0) ∧ i = .rxDeq)) := by
  by_cases hrsv : rsvOf d ≠ 0
  · rw [decodeCmd, if_pos hrsv] at h; cases h
  · rw [decodeCmd, if_neg hrsv] at h
    refine ⟨not_not.mp hrsv, ?_⟩
    repeat refine (row_or_next h).imp_right fun h => ?_
    exact (row_or_next h).elim id nofun

/-- A descriptor never decodes to a frame header. -/
theorem decodeCmd_not_wire {d : Descriptor} {i : Instr} (h : decodeCmd d = some i) :
    (∀ bsb off, i ≠ .wireRd bsb off) ∧ (∀ bsb off, i ≠ .wireWr bsb off) := by
  constructor <;> rintro bsb off rfl <;> simpa using (decodeCmd_cases h).2

end Sys2Proof
end

