-- ==== Sys2Proof/Laws/State.lean ====
section
/-! SUPPORT. The small lemmas of the state: ports, the fields each shared operation keeps, and
the numbers that registers of one and two bytes hold. -/

namespace Sys2Proof.Machine

variable (s : State) (p q : Nat) (f g : Port → Port)

@[simp] theorem modPort_params : (s.modPort p f).params = s.params := rfl
@[simp] theorem modPort_cfg : (s.modPort p f).cfg = s.cfg := rfl
@[simp] theorem modPort_clocked : (s.modPort p f).clocked = s.clocked := rfl
@[simp] theorem modPort_more : (s.modPort p f).more = s.more := rfl
@[simp] theorem modPort_lock : (s.modPort p f).lock = s.lock := rfl
@[simp] theorem modPort_eng : (s.modPort p f).eng = s.eng := rfl
@[simp] theorem modPort_mem : (s.modPort p f).mem = s.mem := rfl
@[simp] theorem modPort_trace : (s.modPort p f).trace = s.trace := rfl
@[simp] theorem modPort_events : (s.modPort p f).events = s.events := rfl
@[simp] theorem modPort_sel : (s.modPort p f).sel = s.sel := rfl
@[simp] theorem modPort_hostData : (s.modPort p f).hostData = s.hostData := rfl
@[simp] theorem modPort_free : (s.modPort p f).free = s.free := rfl
@[simp] theorem modPort_ports : (s.modPort p f).ports = s.ports.modify p f := rfl

@[simp] theorem length_modPort : (s.modPort p f).ports.length = s.ports.length := by
  simp [State.modPort]

/-- Two changes of one port are one change. -/
theorem modPort_modPort : (s.modPort p f).modPort p g = s.modPort p (fun q => g (f q)) := by
  simp only [State.modPort, List.modify_modify_eq]; rfl

/-- A change of a port is seen on that port. -/
theorem port_modPort_same (h : p < s.ports.length) : (s.modPort p f).port p = f (s.port p) := by
  simp [State.port, State.modPort, h]

/-- A change of a port is not seen on another. -/
theorem port_modPort_other (h : p ≠ q) : (s.modPort p f).port q = s.port q := by
  simp [State.port, State.modPort, h]

/-- Registers of ports depend on the field `ports` alone. -/
theorem port_congr {s t : State} (h : s.ports = t.ports) (p : Nat) : s.port p = t.port p := by
  simp [State.port, h]

/-- A port that is changed by the identity is not changed. -/
@[simp] theorem modPort_id : s.modPort p (fun q => q) = s := by
  cases s; simp only [State.modPort]; congr 1; exact List.modify_id _ _

/-- A value of a port's changed registers depends on the port's registers alone. -/
theorem modify_congr {l : List Port} {p : Nat} {f g : Port → Port}
    (h : f ((l[p]?).getD Port.reset) = g ((l[p]?).getD Port.reset)) : l.modify p f = l.modify p g := by
  apply List.ext_getElem?
  intro i
  simp only [List.getElem?_modify]
  by_cases hi : p = i
  · subst hi
    cases hl : l[p]? with
    | none => rfl
    | some x => simpa [hl] using h
  · simp [hi]

/-! ### Numbers in registers of one and two bytes (20_memory.md R65) -/

theorem numOf_one (b : Byte) : numOf [b] = b.setWidth 16 := by simp [numOf]

/-- A two-byte register is read big-endian (30_encoding.md R107). -/
theorem numOf_two (b0 b1 : Byte) : numOf [b0, b1] = be16 b0 b1 := by
  apply BitVec.eq_of_toNat_eq
  have h0 := b0.isLt
  have h1 := b1.isLt
  simp [numOf, be16, BitVec.toNat_add, BitVec.toNat_mul]

@[simp] theorem length_bytesOf (n : Nat) (v : Word) : (bytesOf n v).length = n := by simp [bytesOf]

theorem bytesOf_one (v : Word) : bytesOf 1 v = [lo8 v] := by
  simp only [bytesOf, lo8, List.range_one, List.map_cons, List.map_nil, List.cons.injEq, and_true]
  apply BitVec.eq_of_getLsbD_eq; intro i hi
  simp [hi]

/-- A two-byte register is stored big-endian. -/
theorem bytesOf_two (v : Word) : bytesOf 2 v = [hi8 v, lo8 v] := by
  simp only [bytesOf, hi8, lo8, List.range_succ, List.range_zero, List.nil_append, List.map_cons,
    List.map_nil, List.cons_append, List.cons.injEq, and_true]
  constructor <;> (apply BitVec.eq_of_getLsbD_eq; intro i hi; simp [hi])

end Sys2Proof.Machine
end

