-- ==== Sys2Proof/Laws/Engine.lean ====
section
/-! SUPPORT. The laws of the frame engine: what shifting one byte leaves, and one lemma for each
turn of a frame that says all it does. -/

namespace Sys2Proof.Machine

/-- Setting one bit of a byte changes that bit alone. -/
theorem getLsbD_setBit (v : Byte) (i j : Nat) (b : Bool) (hi : i < 8) :
    (setBit v i b).getLsbD j = if j = i then b else v.getLsbD j := by
  by_cases hj : j < 8
  · have key : ∀ (i j : Fin 8) (b : Bool), ((1#8 <<< i.val).getLsbD j.val) = decide (j.val = i.val) := by
      decide
    have k := key ⟨i, hi⟩ ⟨j, hj⟩ b
    simp only at k
    cases b <;> simp only [setBit, if_true, Bool.false_eq_true, if_false, BitVec.getLsbD_or,
      BitVec.getLsbD_and, BitVec.getLsbD_not, k, hj, decide_true, Bool.true_and] <;>
      by_cases h : j = i <;> simp [h]
  · have h1 : (setBit v i b).getLsbD j = false := BitVec.getLsbD_of_ge _ _ (by omega)
    have h2 : v.getLsbD j = false := BitVec.getLsbD_of_ge _ _ (by omega)
    rw [h1, h2]; split
    · omega
    · rfl

/-- One clock cycle at bit 1 to 7: the slave's bit into `ENG.SHI`, the next bit on `MOSI`. -/
theorem clockCycle_succ (miso : Byte) (e : Engine) (h : e.bit ≠ 0) :
    clockCycle miso e = { e with
      sclk := false, shi := setBit e.shi e.bit.toNat (miso.getLsbD e.bit.toNat), bit := e.bit - 1
      mosi := e.sho.getLsbD (e.bit - 1).toNat } := by
  rw [clockCycle, fallingEdge, if_neg (by exact h)]; rfl

/-- The last clock cycle of a byte. -/
theorem clockCycle_zero (miso : Byte) (e : Engine) (h : e.bit = 0) :
    clockCycle miso e = { e with sclk := false, shi := setBit e.shi 0 (miso.getLsbD 0) } := by
  rw [clockCycle, fallingEdge, if_pos (by exact h), risingEdge, h]; rfl

/-- The state of a byte after `k` of its eight cycles: `ENG.BIT` is `7 - k`, `MOSI` its bit, and
`ENG.SHI` holds the slave's bits from the most significant one down (40_transport.md R139). -/
theorem cycles_loadByte (out miso : Byte) (e : Engine) (k : Nat) (hk : k < 8) :
    ∃ shi, cycles k miso (loadByte out e) = { e with
        sho := out, bit := BitVec.ofNat 3 (7 - k), mosi := out.getLsbD (7 - k), shi := shi
        sclk := if k = 0 then e.sclk else false } ∧
      ∀ j < 8, shi.getLsbD j = if 7 - k < j then miso.getLsbD j else e.shi.getLsbD j := by
  have snoc : ∀ (n : Nat) (e : Engine), cycles (n + 1) miso e = clockCycle miso (cycles n miso e) := by
    intro n; induction n with
    | zero => intro e; rfl
    | succ n ih => intro e; rw [cycles, ih, cycles]
  induction k with
  | zero => exact ⟨e.shi, rfl, fun j hj => by simp [show ¬ 7 < j by omega]⟩
  | succ k ih =>
    obtain ⟨shi, hc, hs⟩ := ih (by omega)
    have hb : (BitVec.ofNat 3 (7 - k)).toNat = 7 - k := by simp; omega
    have hne : BitVec.ofNat 3 (7 - k) ≠ 0 := fun h => by
      have := congrArg BitVec.toNat h; rw [hb] at this; simp at this; omega
    have hd : BitVec.ofNat 3 (7 - k) - 1 = BitVec.ofNat 3 (7 - (k + 1)) := by
      apply BitVec.eq_of_toNat_eq; simp [BitVec.toNat_sub]; omega
    have hd' : (BitVec.ofNat 3 (7 - (k + 1))).toNat = 7 - (k + 1) := by simp; omega
    refine ⟨setBit shi (7 - k) (miso.getLsbD (7 - k)), ?_, fun j hj => ?_⟩
    · rw [snoc, hc, clockCycle_succ _ _ hne]
      simp only [hb, hd, hd', Nat.add_one_ne_zero, if_false]
    · rw [getLsbD_setBit _ _ _ _ (by omega), hs j hj]
      by_cases h : j = 7 - k
      · subst h; rw [if_pos rfl, if_pos (by omega)]
      · rw [if_neg h]
        by_cases h' : 7 - k < j
        · rw [if_pos h', if_pos (by omega)]
        · rw [if_neg h', if_neg (by omega)]

/-- After the eight cycles `ENG.SHI` holds the byte the slave drove, `ENG.SHO` the byte sent, `ENG.BIT`
is 0, the clock is low and `MOSI` still holds the last bit; nothing else of the engine has changed
(40_transport.md R139). -/
theorem shiftByte_eq (out miso : Byte) (e : Engine) : shiftByte out miso e =
    { e with sho := out, shi := miso, bit := 0, sclk := false, mosi := out.getLsbD 0 } := by
  obtain ⟨shi, hc, hs⟩ := cycles_loadByte out miso e 7 (by omega)
  have hshi : setBit shi 0 (miso.getLsbD 0) = miso := by
    apply BitVec.eq_of_getLsbD_eq; intro j hj
    rw [getLsbD_setBit _ _ _ _ (by omega), hs j hj]
    by_cases h : j = 0
    · rw [if_pos h, h]
    · rw [if_neg h, if_pos (by omega)]
  have split8 : ∀ e : Engine, cycles 8 miso e = clockCycle miso (cycles 7 miso e) := fun _ => rfl
  rw [shiftByte, split8, hc, clockCycle_zero _ _ rfl]
  simp only [hshi]
  rfl

/-- Shifting a byte writes the serial registers and the pins `SCLK` and `MOSI`, and nothing else. -/
theorem shiftByte_frame (out miso : Byte) (e : Engine) :
    ∃ bit sho shi mosi, shiftByte out miso e =
      { e with bit := bit, sho := sho, shi := shi, mosi := mosi, sclk := false } :=
  ⟨_, _, _, _, shiftByte_eq out miso e⟩

/-- Putting the next bit on `MOSI` writes `ENG.SHO`, `ENG.BIT` and that pin, and nothing else. -/
theorem present_frame (e : Engine) :
    ∃ bit sho mosi, present e = { e with bit := bit, sho := sho, mosi := mosi } := by
  unfold present
  cases outByte e with
  | none => exact ⟨e.bit, e.sho, e.mosi, rfl⟩
  | some b => exact ⟨_, _, _, rfl⟩

/-- Where there is a next byte, it is loaded and its first bit is on `MOSI` (40_transport.md R139). -/
theorem present_loads {e : Engine} {b : Byte} (h : outByte (present e) = some b) :
    (present e).sho = b ∧ (present e).bit = 7 ∧ (present e).mosi = b.getLsbD 7 := by
  unfold present at h ⊢
  cases ho : outByte e with
  | none => rw [ho] at h; exact nomatch ho.symm.trans h
  | some c =>
    rw [ho] at h
    have hc : c = b := Option.some.inj (ho.symm.trans h)
    exact ⟨hc, rfl, by rw [← hc]; rfl⟩

/-- Every turn that sends a byte ends with the next one presented (40_transport.md R139). -/
theorem byteTurn_presents (s : State) : ∀ t ∈ [headerTurn s, readTurn s, writeTurn s],
    ∃ e, t.eng = present e := by
  intro t ht
  simp only [List.mem_cons, List.not_mem_nil, or_false] at ht
  rcases ht with rfl | rfl | rfl
  · simp only [headerTurn, shiftByte_eq]; exact ⟨_, rfl⟩
  · simp only [readTurn, shiftByte_eq]; exact ⟨_, rfl⟩
  · simp only [writeTurn, shiftByte_eq]; exact ⟨_, rfl⟩

section Fields

variable (P : Params) (e : Engine) (b : Byte)

@[simp] theorem advance_bit : (advance e).bit = e.bit := by unfold advance; split <;> rfl
@[simp] theorem advance_sho : (advance e).sho = e.sho := by unfold advance; split <;> rfl
@[simp] theorem advance_shi : (advance e).shi = e.shi := by unfold advance; split <;> rfl
@[simp] theorem advance_rxInline : (advance e).rxInline = e.rxInline := by unfold advance; split <;> rfl
@[simp] theorem advance_csn : (advance e).csn = e.csn := by unfold advance; split <;> rfl
@[simp] theorem advance_sclk : (advance e).sclk = e.sclk := by unfold advance; split <;> rfl
@[simp] theorem advance_mosi : (advance e).mosi = e.mosi := by unfold advance; split <;> rfl
@[simp] theorem advance_staged : (advance e).staged = e.staged := by unfold advance; split <;> rfl
@[simp] theorem advance_hdr : (advance e).hdr = e.hdr := by unfold advance; split <;> rfl
@[simp] theorem advance_dir : (advance e).dir = e.dir := by unfold advance; split <;> rfl
@[simp] theorem advance_bsb : (advance e).bsb = e.bsb := by unfold advance; split <;> rfl
@[simp] theorem advance_off : (advance e).off = e.off := by unfold advance; split <;> rfl
@[simp] theorem advance_count : (advance e).count = e.count := by unfold advance; split <;> rfl
@[simp] theorem advance_data : (advance e).data = e.data := by unfold advance; split <;> rfl
@[simp] theorem advance_sent : (advance e).sent = e.sent := by unfold advance; split <;> rfl
@[simp] theorem advance_got : (advance e).got = e.got := by unfold advance; split <;> rfl

@[simp] theorem advance_ph : (advance e).ph = if e.idx.toNat + 1 < e.count then e.ph else .finish := by
  unfold advance; split <;> rfl
@[simp] theorem advance_idx : (advance e).idx = if e.idx.toNat + 1 < e.count then e.idx + 1 else 0 := by
  unfold advance; split <;> rfl

@[simp] theorem collect_ph : (collect P b e).ph = e.ph := by unfold collect; split <;> rfl
@[simp] theorem collect_idx : (collect P b e).idx = e.idx := by unfold collect; split <;> rfl
@[simp] theorem collect_bit : (collect P b e).bit = e.bit := by unfold collect; split <;> rfl
@[simp] theorem collect_sho : (collect P b e).sho = e.sho := by unfold collect; split <;> rfl
@[simp] theorem collect_shi : (collect P b e).shi = e.shi := by unfold collect; split <;> rfl
@[simp] theorem collect_csn : (collect P b e).csn = e.csn := by unfold collect; split <;> rfl
@[simp] theorem collect_sclk : (collect P b e).sclk = e.sclk := by unfold collect; split <;> rfl
@[simp] theorem collect_mosi : (collect P b e).mosi = e.mosi := by unfold collect; split <;> rfl
@[simp] theorem collect_staged : (collect P b e).staged = e.staged := by unfold collect; split <;> rfl
@[simp] theorem collect_hdr : (collect P b e).hdr = e.hdr := by unfold collect; split <;> rfl
@[simp] theorem collect_dir : (collect P b e).dir = e.dir := by unfold collect; split <;> rfl
@[simp] theorem collect_bsb : (collect P b e).bsb = e.bsb := by unfold collect; split <;> rfl
@[simp] theorem collect_off : (collect P b e).off = e.off := by unfold collect; split <;> rfl
@[simp] theorem collect_count : (collect P b e).count = e.count := by unfold collect; split <;> rfl
@[simp] theorem collect_data : (collect P b e).data = e.data := by unfold collect; split <;> rfl
@[simp] theorem collect_sent : (collect P b e).sent = e.sent := by unfold collect; split <;> rfl

@[simp] theorem collect_rxInline :
    (collect P b e).rxInline = if e.count ≤ P.inlineMax then e.rxInline.setIfInBounds e.idx.toNat b else e.rxInline := by
  unfold collect; split <;> rfl
@[simp] theorem collect_got : (collect P b e).got = if e.count ≤ P.inlineMax then e.got else e.got ++ [b] := by
  unfold collect; split <;> rfl

end Fields

end Sys2Proof.Machine
end

