-- ==== Sys2Proof/Laws/Memory.lean ====
section
/-! SUPPORT. The laws of the chip's memory: read after write, the frame of a write, the canonical
form. -/

namespace Sys2Proof.Machine

/-- The list read back where it was just stored to. -/
theorem cellsGet_set_same (l : List Host.Cell) (a : Nat) (v : Byte) : cellsGet (cellsSet l a v) a = some v := by
  induction l with
  | nil => simp [cellsSet, cellsGet]
  | cons c l ih =>
    simp only [cellsSet]
    split_ifs with h1 h2
    · simp [cellsGet]
    · simp [cellsGet]
    · rw [cellsGet, if_neg h2]; exact ih

/-- Any other address of the list is left alone. -/
theorem cellsGet_set_other (l : List Host.Cell) {a b : Nat} (v : Byte) (h : b ≠ a) :
    cellsGet (cellsSet l a v) b = cellsGet l b := by
  induction l with
  | nil => simp [cellsSet, cellsGet, h]
  | cons c l ih =>
    simp only [cellsSet]
    split_ifs with h1 h2
    · simp [cellsGet, h]
    · subst h2; simp [cellsGet, h]
    · simp only [cellsGet, ih]

/-- Storing keeps the form of the list above any bound below the stored address. -/
theorem cellsWf_set {l : List Host.Cell} {lo a : Nat} {v : Byte} (h : cellsWf lo l = true)
    (hlo : lo ≤ a) (ha : a < Config.chipSize) : cellsWf lo (cellsSet l a v) = true := by
  induction l generalizing lo with
  | nil => simp [cellsSet, cellsWf, hlo, ha]
  | cons c l ih =>
    simp only [cellsWf, Bool.and_eq_true, decide_eq_true_eq] at h
    simp only [cellsSet]
    split_ifs with h1 h2 <;> simp only [cellsWf, Bool.and_eq_true, decide_eq_true_eq]
    · exact ⟨⟨hlo, ha⟩, ⟨⟨h1, h.1.2⟩, h.2⟩⟩
    · subst h2; exact ⟨⟨hlo, ha⟩, h.2⟩
    · exact ⟨h.1, ih h.2 (by omega)⟩

/-- A lower bound may be lowered. -/
theorem cellsWf_mono {l : List Host.Cell} {lo hi : Nat} (h : cellsWf hi l = true) (hl : lo ≤ hi) :
    cellsWf lo l = true := by
  cases l with
  | nil => rfl
  | cons c l =>
    simp only [cellsWf, Bool.and_eq_true, decide_eq_true_eq] at h ⊢
    exact ⟨⟨by omega, h.1.2⟩, h.2⟩

/-- Dropping entries keeps the form. -/
theorem cellsWf_filter {l : List Host.Cell} {lo : Nat} (f : Host.Cell → Bool) (h : cellsWf lo l = true) :
    cellsWf lo (l.filter f) = true := by
  induction l generalizing lo with
  | nil => rfl
  | cons c l ih =>
    simp only [cellsWf, Bool.and_eq_true, decide_eq_true_eq] at h
    rw [List.filter_cons]
    split
    · simp only [cellsWf, Bool.and_eq_true, decide_eq_true_eq]; exact ⟨h.1, ih h.2⟩
    · exact cellsWf_mono (ih h.2) (by omega)

/-- Reading the address just written gives the value written. -/
@[simp] theorem Memory.get_set_same (m : Memory) (a : Nat) (v : Byte) : (m.set a v).get a = some v :=
  cellsGet_set_same _ _ _

/-- Any other address is left alone. -/
theorem Memory.get_set_other (m : Memory) {a b : Nat} (v : Byte) (h : b ≠ a) :
    (m.set a v).get b = m.get b :=
  cellsGet_set_other _ _ h

/-- Storing begins no epoch. -/
@[simp] theorem Memory.epoch_set (m : Memory) (a : Nat) (v : Byte) (b : Nat) :
    (m.set a v).epoch b = m.epoch b := rfl

@[simp] theorem Memory.read_set_same (m : Memory) (a : Nat) (v : Byte) : (m.set a v).read a = v := by
  simp [Memory.read]

theorem Memory.read_set_other (m : Memory) {a b : Nat} (v : Byte) (h : b ≠ a) :
    (m.set a v).read b = m.read b := by
  simp [Memory.read, m.get_set_other v h]

/-- A store inside the chip address space keeps the canonical form. -/
theorem Memory.wf_set {m : Memory} {a : Nat} {v : Byte} (h : m.wf = true) (ha : a < 32 * 65536) :
    (m.set a v).wf = true :=
  cellsWf_set h (Nat.zero_le _) ha

/-- Forgetting a block keeps the canonical form. -/
theorem Memory.wf_forget {m : Memory} (b e : Nat) (h : m.wf = true) : (m.forget b e).wf = true :=
  cellsWf_filter _ h

/-- An address of another block is listed after a block is forgotten as it was before. -/
theorem cellsGet_filter_other (l : List Host.Cell) (f : Host.Cell → Bool) {a : Nat} (h : ∀ v, f (a, v) = true) :
    cellsGet (l.filter f) a = cellsGet l a := by
  induction l with
  | nil => rfl
  | cons c l ih =>
    obtain ⟨b, v⟩ := c
    rw [List.filter_cons]
    by_cases hb : a = b
    · subst hb; rw [h v]; simp [cellsGet]
    · split <;> simp [cellsGet, hb, ih]

/-- An address whose entries are all dropped is not listed. -/
theorem cellsGet_filter_none (l : List Host.Cell) (f : Host.Cell → Bool) {a : Nat} (h : ∀ v, f (a, v) = false) :
    cellsGet (l.filter f) a = none := by
  induction l with
  | nil => rfl
  | cons c l ih =>
    obtain ⟨b, v⟩ := c
    rw [List.filter_cons]
    by_cases hb : a = b
    · subst hb; rw [h v]; exact ih
    · split
      · simp [cellsGet, hb, ih]
      · exact ih

/-- Forgetting a block leaves every other block alone. -/
theorem Memory.read_forget_other (m : Memory) {b e a : Nat} (h : a / Config.blockSize ≠ b) :
    (m.forget b e).read a = m.read a := by
  have hg : (m.forget b e).get a = m.get a := cellsGet_filter_other _ _ (fun v => by simpa using h)
  have he : (m.forget b e).epoch (a / Config.blockSize) = m.epoch (a / Config.blockSize) := by
    simp [Memory.epoch, Memory.forget, Ne.symm h]
  rw [Memory.read, Memory.read, hg, he]

/-- A forgotten block holds the free values of its new epoch. -/
theorem Memory.read_forget_same (m : Memory) {b e a : Nat} (h : a / Config.blockSize = b) (hb : b < 32) :
    (m.forget b e).read a = Config.chipByte e a := by
  have hg : (m.forget b e).get a = none := cellsGet_filter_none _ _ (fun v => by simpa using h)
  have he : (m.forget b e).epoch b = e := by
    simp [Memory.epoch, Memory.forget, hb]
  rw [Memory.read, hg, h, he]; rfl

/-- A chip of which nothing is known any more holds the free values of the new epoch. -/
theorem Memory.read_forgetAll {e a : Nat} (h : a < Config.chipSize) :
    (Memory.forgetAll e).read a = Config.chipByte e a := by
  have hb : a / Config.blockSize < 32 := Nat.div_lt_of_lt_mul (by rw [Nat.mul_comm]; exact h)
  have he : (Memory.forgetAll e).epoch (a / Config.blockSize) = e := by
    simp [Memory.epoch, Memory.forgetAll, hb]
  rw [Memory.read, he]; rfl

/-- What a frame does to the chip as it opens keeps the canonical form. -/
theorem openMem_wf {P : Params} {clocked : Bool} {m : Memory} {free n : Nat} {bsb : Bsb} {off : Word}
    (h : m.wf = true) : (openMem P clocked m free bsb off n).wf = true := by
  unfold openMem
  split_ifs
  · exact Memory.wf_forget _ _ h
  · exact h
  · rfl

/-- A frame whose answer the spec gives leaves the chip alone as it opens. -/
theorem openMem_tame {P : Params} {n : Nat} {bsb : Bsb} {off : Word} (h : wild P bsb off n = false)
    (m : Memory) (free : Nat) : openMem P true m free bsb off n = m := by
  simp [openMem, h]

/-- The opening of a frame in the valid range of the clock leaves every other block alone. -/
theorem openMem_read_other {P : Params} {m : Memory} {free n a : Nat} {bsb : Bsb} {off : Word}
    (h : wild P bsb off n = true → a / Config.blockSize ≠ bsb.toNat) :
    (openMem P true m free bsb off n).read a = m.read a := by
  rw [openMem, if_pos rfl]
  split
  · next hw => exact Memory.read_forget_other _ (h hw)
  · rfl

/-- A chip location lies in the chip address space. -/
theorem chipAddr_lt {bsb : Bsb} {off : Word} {i : Nat} (h : off.toNat + i < 65536) :
    chipAddr bsb off i < 32 * 65536 := by
  have := bsb.isLt
  simp only [chipAddr, Config.blockSize]; omega

/-- The chip's reaction to a byte keeps the canonical form. -/
theorem chipStore_wf {P : Params} {m : Memory} {a : Nat} {v : Byte} (h : m.wf = true)
    (ha : a < 32 * 65536) : (chipStore P m a v).wf = true := by
  have hir : chipAddr P.bsbS0Reg P.regIr 0 < 32 * 65536 := chipAddr_lt (by have := P.regIr.isLt; omega)
  have hcr : chipAddr P.bsbS0Reg P.regCr 0 < 32 * 65536 := chipAddr_lt (by have := P.regCr.isLt; omega)
  unfold chipStore
  dsimp only
  split
  · split
    · exact Memory.wf_set (Memory.wf_set h hcr) hir
    · exact Memory.wf_set h hcr
  · split
    · exact Memory.wf_set h hir
    · exact Memory.wf_set h ha

/-- The chip's reaction to a byte changes no location but the addressed one and, for a SEND written
to the command register, the interrupt-status register. -/
theorem chipStore_read_other {P : Params} {m : Memory} {a b : Nat} {v : Byte} (h : b ≠ a)
    (hir : a = chipAddr P.bsbS0Reg P.regCr 0 → b ≠ chipAddr P.bsbS0Reg P.regIr 0) :
    (chipStore P m a v).read b = m.read b := by
  unfold chipStore
  dsimp only
  split
  · next hcr =>
    split
    · rw [Memory.read_set_other _ _ (hir hcr), Memory.read_set_other _ _ (hcr ▸ h)]
    · rw [Memory.read_set_other _ _ (hcr ▸ h)]
  · split
    · next hi => rw [Memory.read_set_other _ _ (hi ▸ h)]
    · rw [Memory.read_set_other _ _ h]

/-- A location that is neither of the two reacting registers stores the byte. -/
theorem chipStore_plain {P : Params} {m : Memory} {a : Nat} {v : Byte}
    (hcr : a ≠ chipAddr P.bsbS0Reg P.regCr 0) (hir : a ≠ chipAddr P.bsbS0Reg P.regIr 0) :
    chipStore P m a v = m.set a v := by
  simp [chipStore, hcr, hir]

/-- `MemRead` returns as many bytes as were asked for. -/
@[simp] theorem length_memRead (m : Memory) (a n : Nat) : (memRead m a n).length = n := by
  simp [memRead]

/-- `MemRead` of one more byte. -/
theorem memRead_succ (m : Memory) (a n : Nat) : memRead m a (n + 1) = memRead m a n ++ [m.read (a + n)] := by
  simp [memRead, List.range_succ]

/-- `MemWrite` of one more byte. -/
theorem memWrite_append (P : Params) (m : Memory) (a : Nat) (v w : List Byte) :
    memWrite P m a (v ++ w) = memWrite P (memWrite P m a v) (a + v.length) w := by
  induction v generalizing m a with
  | nil => simp [memWrite]
  | cons x v ih => simp [memWrite, ih, Nat.add_assoc, Nat.add_comm 1]

/-- `MemWrite` keeps the canonical form when its span lies in the chip address space. -/
theorem memWrite_wf {P : Params} {m : Memory} {a : Nat} {v : List Byte} (h : m.wf = true)
    (ha : a + v.length ≤ 32 * 65536) : (memWrite P m a v).wf = true := by
  induction v generalizing m a with
  | nil => exact h
  | cons x v ih =>
    simp only [List.length_cons] at ha
    exact ih (chipStore_wf h (by omega)) (by omega)

/-- `MemWrite` leaves every location outside its span alone, but for the interrupt-status register
when the command register lies in the span. -/
theorem memWrite_read_other {P : Params} {m : Memory} {a b : Nat} {v : List Byte}
    (h : b < a ∨ a + v.length ≤ b) (hir : b ≠ chipAddr P.bsbS0Reg P.regIr 0) :
    (memWrite P m a v).read b = m.read b := by
  induction v generalizing m a with
  | nil => rfl
  | cons x v ih =>
    simp only [List.length_cons] at h
    rw [memWrite, ih (by omega), chipStore_read_other (by omega) (fun _ => hir)]

/-- `MemWrite` to locations that are none of the reacting registers stores byte `i` at `a + i`. -/
theorem memWrite_read_in {P : Params} {m : Memory} {a i : Nat} {v : List Byte} (hi : i < v.length)
    (hcr : ∀ j < v.length, a + j ≠ chipAddr P.bsbS0Reg P.regCr 0)
    (hir : ∀ j < v.length, a + j ≠ chipAddr P.bsbS0Reg P.regIr 0) :
    (memWrite P m a v).read (a + i) = v[i] := by
  induction v generalizing m a i with
  | nil => simp at hi
  | cons x v ih =>
    have h0c := hcr 0 (by simp)
    have h0i := hir 0 (by simp)
    cases i with
    | zero =>
      simp only [Nat.add_zero] at h0c h0i ⊢
      rw [memWrite, memWrite_read_other (by omega) h0i, chipStore_plain h0c h0i]
      simp
    | succ i =>
      simp only [List.length_cons] at hi hcr hir
      have := ih (m := chipStore P m a x) (a := a + 1) (i := i) (by omega)
        (fun j hj => by have := hcr (j + 1) (by omega); omega)
        (fun j hj => by have := hir (j + 1) (by omega); omega)
      rw [memWrite, show a + (i + 1) = a + 1 + i by omega, this]; simp

end Sys2Proof.Machine
end

