-- ==== Sys2Proof/Laws/Transport.lean ====
section
/-! SUPPORT. The laws of a port's turns: what a whole frame and a whole transport call do when no
other agent moves. -/

namespace Sys2Proof.Machine

/-- Turns add up. -/
theorem turns_add (p a b : Nat) (s : State) : turns p (a + b) s = turns p b (turns p a s) := by
  induction a generalizing s with
  | zero => simp [turns]
  | succ a ih => rw [Nat.succ_add, turns, ih, turns]

/-- One turn, then the rest. -/
theorem turns_succ (p k : Nat) (s : State) : turns p (k + 1) s = turns p k (turn p s) := rfl

/-- The turns, then one more. -/
theorem turns_succ' (p k : Nat) (s : State) : turns p (k + 1) s = turn p (turns p k s) := by
  rw [turns_add]; rfl

/-- A port at rest that does not own the lock does nothing with its turns. -/
theorem turns_rest {p : Nat} {s : State} (h : (s.lock.held && s.lock.owner == p) = false)
    (ha : (s.port p).act = .rest) (k : Nat) : turns p k s = s := by
  induction k with
  | zero => rfl
  | succ k ih => rw [turns_succ', ih, turn, h, ha]; rfl

/-- The frame in the engine: its direction, address, count and payload, chip select active. -/
structure Engine.Carries (e : Engine) (L : CtrlLayout) (dir : Dir) (bsb : Bsb) (off : Word) (n : Nat)
    (data : List Byte) : Prop where
  hdr : e.hdr = header L dir bsb off
  dir : e.dir = dir
  bsb : e.bsb = bsb
  off : e.off = off
  count : e.count = n
  data : e.data = data
  staged : e.staged = none
  csn : e.csn = false

variable {L : CtrlLayout} {dir : Dir} {bsb : Bsb} {off : Word} {n p : Nat} {data : List Byte} {s : State}

/-- A frame is carried whatever the serial registers, the phase, the index and the bytes so far. -/
theorem Engine.Carries.of_eq {e e' : Engine} (h : e.Carries L dir bsb off n data) (h1 : e'.hdr = e.hdr)
    (h2 : e'.dir = e.dir) (h3 : e'.bsb = e.bsb) (h4 : e'.off = e.off) (h5 : e'.count = e.count)
    (h6 : e'.data = e.data) (h7 : e'.staged = e.staged) (h8 : e'.csn = e.csn) :
    e'.Carries L dir bsb off n data where
  hdr := h1.trans h.hdr
  dir := h2.trans h.dir
  bsb := h3.trans h.bsb
  off := h4.trans h.off
  count := h5.trans h.count
  data := h6.trans h.data
  staged := h7.trans h.staged
  csn := h8.trans h.csn

/-- The owner's turn is its frame's next action. -/
theorem turn_owner (h : s.lock.held = true) (ho : s.lock.owner = p) : turn p s = frameTurn p s := by
  simp [turn, h, ho]

/-- One header byte (40_transport.md R136, R137). -/
theorem headerTurn_spec (s : State) :
    ∃ bit sho shi mosi, headerTurn s =
      { s with
        free := s.free + 1
        eng := { s.eng with
          bit := bit, sho := sho, shi := shi, mosi := mosi, sclk := false
          sent := s.eng.sent ++ [headerByte s.eng.hdr s.eng.idx.toNat]
          ph := if s.eng.idx.toNat < 2 then s.eng.ph else .data
          idx := if s.eng.idx.toNat < 2 then s.eng.idx + 1 else 0 } } := by
  simp only [headerTurn, shiftByte_eq]
  obtain ⟨b, c, d, h⟩ := present_frame (headerAdvance { s.eng with
    sho := headerByte s.eng.hdr s.eng.idx.toNat, shi := Config.misoByte s.free, bit := 0, sclk := false
    mosi := (headerByte s.eng.hdr s.eng.idx.toNat).getLsbD 0
    sent := s.eng.sent ++ [headerByte s.eng.hdr s.eng.idx.toNat] })
  refine ⟨b, c, Config.misoByte s.free, d, ?_⟩
  rw [h, headerAdvance]
  split <;> rfl

/-- One payload byte of a read frame (40_transport.md R137, R142). -/
theorem readTurn_spec (s : State) :
    ∃ bit sho shi mosi, readTurn s =
      { s with
        eng := { advance (collect s.params (s.mem.read (chipAddr s.eng.bsb s.eng.off s.eng.idx.toNat)) s.eng) with
          bit := bit, sho := sho, shi := shi, mosi := mosi, sclk := false, sent := s.eng.sent ++ [0] } } := by
  simp only [readTurn, shiftByte_eq]
  obtain ⟨b, c, d, h⟩ := present_frame (advance (collect s.params
    (s.mem.read (chipAddr s.eng.bsb s.eng.off s.eng.idx.toNat)) { s.eng with
      sho := 0, shi := s.mem.read (chipAddr s.eng.bsb s.eng.off s.eng.idx.toNat), bit := 0, sclk := false
      mosi := (0 : Byte).getLsbD 0, sent := s.eng.sent ++ [0] }))
  refine ⟨b, c, s.mem.read (chipAddr s.eng.bsb s.eng.off s.eng.idx.toNat), d, ?_⟩
  rw [h]
  simp only [advance, collect]
  split <;> split <;> simp_all

/-- One payload byte of a write frame (40_transport.md R136). -/
theorem writeTurn_spec (s : State) :
    ∃ bit sho shi mosi, writeTurn s =
      { s with
        free := s.free + 1
        mem := frameStore s.params s.clocked s.mem s.eng.bsb s.eng.off s.eng.count s.eng.idx.toNat
          (s.eng.data.getD s.eng.idx.toNat 0)
        eng := { advance s.eng with
          bit := bit, sho := sho, shi := shi, mosi := mosi, sclk := false
          sent := s.eng.sent ++ [s.eng.data.getD s.eng.idx.toNat 0] } } := by
  simp only [writeTurn, shiftByte_eq]
  obtain ⟨b, c, d, h⟩ := present_frame (advance { s.eng with
    sho := s.eng.data.getD s.eng.idx.toNat 0, shi := Config.misoByte s.free, bit := 0, sclk := false
    mosi := (s.eng.data.getD s.eng.idx.toNat 0).getLsbD 0
    sent := s.eng.sent ++ [s.eng.data.getD s.eng.idx.toNat 0] })
  refine ⟨b, c, Config.misoByte s.free, d, ?_⟩
  rw [h]
  simp only [advance]
  split <;> rfl

/-- One more in `ENG.IDX` (10_state.md R25). -/
theorem idx_succ {i : Word} {n : Nat} (h : i.toNat + 1 < n) (hn : n ≤ 65535) : (i + 1).toNat = i.toNat + 1 := by
  rw [BitVec.toNat_add]; simp; omega

/-- One header byte of the owner's frame. -/
theorem header_step (h : s.lock.held = true) (ho : s.lock.owner = p)
    (hc : s.eng.Carries L dir bsb off n data) (hp : s.eng.ph = .hdr) :
    ∃ e f, turn p s = { s with eng := e, free := f } ∧ e.Carries L dir bsb off n data ∧
      e.ph = (if s.eng.idx.toNat < 2 then .hdr else .data) ∧
      e.idx.toNat = (if s.eng.idx.toNat < 2 then s.eng.idx.toNat + 1 else 0) ∧
      e.sent = s.eng.sent ++ [headerByte (header L dir bsb off) s.eng.idx.toNat] ∧ e.got = s.eng.got := by
  obtain ⟨b0, b1, b2, b3, h1⟩ := headerTurn_spec s
  rw [turn_owner h ho, frameTurn, hp]
  refine ⟨_, _, h1, hc.of_eq rfl rfl rfl rfl rfl rfl rfl rfl, ?_, ?_, ?_, rfl⟩
  · simp [hp]
  · dsimp only
    split
    · next hi => exact idx_succ (n := 4) (by omega) (by omega)
    · rfl
  · simp [hc.hdr]

/-- The three header bytes. -/
theorem header_run (h : s.lock.held = true) (ho : s.lock.owner = p) (hc : s.eng.Carries L dir bsb off n data)
    (hp : s.eng.ph = .hdr) (hi : s.eng.idx.toNat = 0) (hs : s.eng.sent = []) :
    ∃ e f, turns p 3 s = { s with eng := e, free := f } ∧ e.Carries L dir bsb off n data ∧
      e.ph = .data ∧ e.idx.toNat = 0 ∧ e.sent = headerBytes L dir bsb off ∧ e.got = s.eng.got := by
  obtain ⟨e1, f1, t1, c1, p1, i1, s1, g1⟩ := header_step h ho hc hp
  simp only [hi, hs] at p1 i1 s1
  obtain ⟨e2, f2, t2, c2, p2, i2, s2, g2⟩ :=
    header_step (s := { s with eng := e1, free := f1 }) h ho c1 (by simpa using p1)
  simp only [i1, s1] at p2 i2 s2
  obtain ⟨e3, f3, t3, c3, p3, i3, s3, g3⟩ :=
    header_step (s := { s with eng := e2, free := f2 }) h ho c2 (by simpa using p2)
  simp only [i2, s2] at p3 i3 s3
  refine ⟨e3, f3, ?_, c3, by simpa using p3, by simpa using i3, by simpa [headerBytes] using s3, ?_⟩
  · rw [turns_succ, t1, turns_succ, t2, turns_succ, t3]; rfl
  · rw [g3, g2, g1]

/-- After payload byte `idx` (10_state.md R25). -/
theorem advance_idx_toNat (e : Engine) (hn : e.count ≤ 65535) :
    (advance e).idx.toNat = if e.idx.toNat + 1 < e.count then e.idx.toNat + 1 else 0 := by
  rw [advance_idx]
  split
  · next h => exact idx_succ h hn
  · rfl

/-- One payload byte of the owner's read frame: the filler out, the chip's byte in, on the inline
path or the streaming path (40_transport.md R137, R142). -/
theorem read_step (h : s.lock.held = true) (ho : s.lock.owner = p)
    (hc : s.eng.Carries L .rd bsb off n data) (hp : s.eng.ph = .data) (hn : n ≤ 65535) :
    ∃ e, turn p s = { s with eng := e } ∧ e.Carries L .rd bsb off n data ∧
      e.ph = (if s.eng.idx.toNat + 1 < n then .data else .finish) ∧
      e.idx.toNat = (if s.eng.idx.toNat + 1 < n then s.eng.idx.toNat + 1 else 0) ∧
      e.sent = s.eng.sent ++ [0] ∧
      e.rxInline = (if n ≤ s.params.inlineMax then
        s.eng.rxInline.setIfInBounds s.eng.idx.toNat (s.mem.read (chipAddr bsb off s.eng.idx.toNat))
        else s.eng.rxInline) ∧
      e.got = (if n ≤ s.params.inlineMax then s.eng.got
        else s.eng.got ++ [s.mem.read (chipAddr bsb off s.eng.idx.toNat)]) := by
  obtain ⟨b0, b1, b2, b3, h1⟩ := readTurn_spec s
  rw [turn_owner h ho, frameTurn, hp]
  simp only [hc.dir]
  rw [hc.bsb, hc.off] at h1
  refine ⟨_, h1, hc.of_eq ?_ ?_ ?_ ?_ ?_ ?_ ?_ ?_, ?_, ?_, rfl, ?_, ?_⟩
  case refine_10 =>
    dsimp only
    rw [advance_idx_toNat _ (by simpa [hc.count] using hn)]
    simp [hc.count]
  all_goals simp [hc.count, hp]

/-- The first `j` payload bytes of a read frame. -/
theorem read_run (h : s.lock.held = true) (ho : s.lock.owner = p)
    (hc : s.eng.Carries L .rd bsb off n data) (hp : s.eng.ph = .data) (hi : s.eng.idx.toNat = 0)
    (hg : s.eng.got = []) (hin : s.params.inlineMax ≤ 4) (j : Nat) (hj : j ≤ n) (hn : 0 < n) (hm : n ≤ 65535) :
    ∃ e, turns p j s = { s with eng := e } ∧ e.Carries L .rd bsb off n data ∧
      e.ph = (if j < n then .data else .finish) ∧ e.idx.toNat = (if j < n then j else 0) ∧
      e.sent = s.eng.sent ++ List.replicate j 0 ∧
      (n ≤ s.params.inlineMax → e.rxInline.toList.take j = memRead s.mem (chipAddr bsb off 0) j) ∧
      (s.params.inlineMax < n → e.got = memRead s.mem (chipAddr bsb off 0) j) := by
  induction j with
  | zero =>
    exact ⟨s.eng, rfl, hc, by simp [hp, hn], by simp [hi, hn], by simp, by simp [memRead],
      by simp [hg, memRead]⟩
  | succ j ih =>
    obtain ⟨e, t, c, ph, ix, sn, inl, str⟩ := ih (by omega)
    have hjn : j < n := by omega
    simp only [hjn, if_true] at ph ix
    obtain ⟨e', t', c', ph', ix', sn', inl', str'⟩ := read_step (s := { s with eng := e }) h ho c ph hm
    simp only [ix] at ph' ix' sn' inl' str'
    have hb : s.mem.read (chipAddr bsb off j) = s.mem.read (chipAddr bsb off 0 + j) := by simp [chipAddr]
    refine ⟨e', by rw [turns_succ', t, t'], c', ph', ix', ?_, ?_, ?_⟩
    · rw [sn', sn, List.replicate_succ', List.append_assoc]
    · intro h4
      have hl : j < e.rxInline.toList.length := by simp; omega
      rw [inl', if_pos h4, memRead_succ, ← inl h4, ← hb, Vector.toList_setIfInBounds, List.take_add_one,
        List.take_set_of_le (Nat.le_refl _), List.getElem?_set_self hl]
      rfl
    · intro h4
      rw [str', if_neg (by omega), str h4, memRead_succ, ← hb]

/-- One payload byte of the owner's write frame (40_transport.md R136). -/
theorem write_step (h : s.lock.held = true) (ho : s.lock.owner = p)
    (hc : s.eng.Carries L .wr bsb off n data) (hp : s.eng.ph = .data) (hn : n ≤ 65535) :
    ∃ e f, turn p s =
        { s with
          eng := e, free := f
          mem := frameStore s.params s.clocked s.mem bsb off n s.eng.idx.toNat (data.getD s.eng.idx.toNat 0) } ∧
      e.Carries L .wr bsb off n data ∧
      e.ph = (if s.eng.idx.toNat + 1 < n then .data else .finish) ∧
      e.idx.toNat = (if s.eng.idx.toNat + 1 < n then s.eng.idx.toNat + 1 else 0) ∧
      e.sent = s.eng.sent ++ [data.getD s.eng.idx.toNat 0] := by
  obtain ⟨b0, b1, b2, b3, h1⟩ := writeTurn_spec s
  rw [turn_owner h ho, frameTurn, hp]
  simp only [hc.dir]
  rw [hc.data, hc.bsb, hc.off, hc.count] at h1
  refine ⟨_, _, h1, hc.of_eq ?_ ?_ ?_ ?_ ?_ ?_ ?_ ?_, ?_, ?_, rfl⟩
  case refine_10 =>
    dsimp only
    rw [advance_idx_toNat _ (by simpa [hc.count] using hn), hc.count]
  all_goals simp [hc.count, hp]

/-- The chip after the first payload bytes `v` of a write frame of `n` bytes. -/
def framePut (P : Params) (clocked : Bool) (m : Memory) (bsb : Bsb) (off : Word) (n : Nat) (v : List Byte) :
    Memory :=
  if clocked && !wild P bsb off n then memWrite P m (chipAddr bsb off 0) v else m

/-- A whole write frame, from its opening on. -/
theorem framePut_openMem (P : Params) (clocked : Bool) (m : Memory) (free : Nat) (bsb : Bsb) (off : Word)
    (v : List Byte) : framePut P clocked (openMem P clocked m free bsb off v.length) bsb off v.length v =
      frameWrite P clocked m free bsb off v := by
  cases clocked <;> cases hw : wild P bsb off v.length <;> simp [framePut, openMem, frameWrite, hw]

/-- The next payload byte of a write frame. -/
theorem framePut_succ (P : Params) (clocked : Bool) (m : Memory) (v : List Byte) (b : Byte) :
    frameStore P clocked (framePut P clocked m bsb off n v) bsb off n v.length b =
      framePut P clocked m bsb off n (v ++ [b]) := by
  unfold frameStore framePut; split
  · rw [memWrite_append]; simp [memWrite, chipAddr]
  · rfl

/-- The first `j` payload bytes of a write frame. -/
theorem write_run (h : s.lock.held = true) (ho : s.lock.owner = p)
    (hc : s.eng.Carries L .wr bsb off n data) (hp : s.eng.ph = .data) (hi : s.eng.idx.toNat = 0)
    (hl : data.length = n) {clk : Bool} (hk : s.clocked = clk) (j : Nat) (hj : j ≤ n) (hn : 0 < n) (hm : n ≤ 65535) :
    ∃ e f, turns p j s =
        { s with eng := e, free := f, mem := framePut s.params clk s.mem bsb off n (data.take j) } ∧
      e.Carries L .wr bsb off n data ∧
      e.ph = (if j < n then .data else .finish) ∧ e.idx.toNat = (if j < n then j else 0) ∧
      e.sent = s.eng.sent ++ data.take j := by
  induction j with
  | zero =>
    refine ⟨s.eng, s.free, ?_, hc, by simp [hp, hn], by simp [hi, hn], by simp⟩
    simp [turns, framePut, memWrite]
  | succ j ih =>
    obtain ⟨e, f, t, c, ph, ix, sn⟩ := ih (by omega)
    have hjn : j < n := by omega
    have hjd : j < data.length := by omega
    simp only [hjn, if_true] at ph ix
    obtain ⟨e', f', t', c', ph', ix', sn'⟩ := write_step
      (s := { s with eng := e, free := f, mem := framePut s.params clk s.mem bsb off n (data.take j) })
      h ho c ph hm
    simp only [ix] at t' ph' ix' sn'
    have htake : data.take (j + 1) = data.take j ++ [data.getD j 0] := by
      rw [List.take_add_one]; simp [hjd]
    have hput := framePut_succ (bsb := bsb) (off := off) (n := n) s.params clk s.mem (data.take j) (data.getD j 0)
    rw [List.length_take, Nat.min_eq_left (by omega)] at hput
    refine ⟨e', f', ?_, c', ph', ix', ?_⟩
    · rw [turns_succ', t, t', htake]
      rw [← hput, ← hk]; rfl
    · rw [sn', sn, htake, List.append_assoc]

/-- What opening a frame leaves, but for `ENG.SHO`, `ENG.BIT` and `MOSI` (40_transport.md R138, R139). -/
theorem openFrame_spec (dir : Dir) (bsb : Bsb) (off : Word) (s : State) :
    ∃ bit sho mosi, openFrame dir bsb off s =
      { s with
        mem := openMem s.params s.clocked s.mem s.free bsb off s.eng.count
        free := s.free + 1
        eng := { s.eng with
          ph := .hdr, idx := 0, csn := false, staged := none
          hdr := header s.params.ctrl dir bsb off, dir := dir, bsb := bsb, off := off, sent := [], got := []
          bit := bit, sho := sho, mosi := mosi } } := by
  obtain ⟨b, c, d, h⟩ := present_frame { s.eng with
      ph := .hdr, idx := 0, csn := false, staged := none
      hdr := header s.params.ctrl dir bsb off, dir := dir, bsb := bsb, off := off, sent := [], got := [] }
  exact ⟨b, c, d, by rw [openFrame, h]⟩

/-- The owner's first turn opens the staged frame (40_transport.md R138). -/
theorem turn_opens (h : s.lock.held = true) (ho : s.lock.owner = p) (hp : s.eng.ph = .idle)
    (hL : s.params.ctrl.ok = true) (hs : s.eng.staged = some (header s.params.ctrl dir bsb off)) :
    turn p s = openFrame dir bsb off s := by
  rw [turn_owner h ho, frameTurn, hp, hs]; simp [wireTarget_header hL]

/-- The state when a transport call of port `p` has ended: lock released, frame on the trace. -/
def afterCall (p : Nat) (fr : Frame) (m : Memory) (e : Engine) (f : Nat) (s : State) : State :=
  { s with lock := ⟨false, p⟩, trace := fr :: s.trace, mem := m, eng := e, free := f }

/-- The last turn of a frame: chip select inactive, lock released, the answer delivered. -/
theorem turn_closes (h : s.lock.held = true) (ho : s.lock.owner = p) (hp : s.eng.ph = .finish) :
    turn p s = proceed p (rdataOf s.params s.eng)
      (afterCall p ⟨s.eng.sent, slaveBytes s.params s.eng, true⟩ s.mem
        { s.eng with ph := .idle, idx := 0, csn := true, staged := none } s.free s) := by
  rw [turn_owner h ho, frameTurn, hp]
  simp only [endFrame, closeFrame, hp, ho]
  rfl

/-- A whole read frame from its opening on: `n + 4` turns (40_transport.md R137). -/
theorem readOpen_run (h : s.lock.held = true) (ho : s.lock.owner = p) (hin : s.params.inlineMax ≤ 4)
    (hc : s.eng.count = n) (hn : 0 < n) (hm : n ≤ 65535) :
    let m := openMem s.params s.clocked s.mem s.free bsb off n
    ∃ e f, e.atRest ∧ turns p (n + 4) (openFrame .rd bsb off s) = proceed p (memRead m (chipAddr bsb off 0) n)
      (afterCall p (readFrame s.params bsb off (memRead m (chipAddr bsb off 0) n)) m e f s) := by
  intro m
  obtain ⟨b0, b1, b2, h0⟩ := openFrame_spec .rd bsb off s
  obtain ⟨e1, f1, t1, c1, p1, i1, s1, g1⟩ := header_run (L := s.params.ctrl) (dir := .rd) (bsb := bsb)
    (off := off) (n := n) (data := s.eng.data) (s := { s with
      mem := m, free := s.free + 1
      eng := { s.eng with
        ph := .hdr, idx := 0, csn := false, staged := none
        hdr := header s.params.ctrl .rd bsb off, dir := .rd, bsb := bsb, off := off, sent := [], got := []
        bit := b0, sho := b1, mosi := b2 } }) h ho ⟨rfl, rfl, rfl, rfl, hc, rfl, rfl, rfl⟩ rfl rfl rfl
  obtain ⟨e2, t2, c2, p2, i2, s2, inl, str⟩ := read_run (s := { s with mem := m, free := f1, eng := e1 })
    h ho c1 p1 i1 g1 hin n (Nat.le_refl _) hn hm
  simp only [Nat.lt_irrefl, if_false] at p2 i2
  have hr : rdataOf s.params e2 = memRead m (chipAddr bsb off 0) n := by
    simp only [rdataOf, c2.dir, c2.count]
    split
    · next h4 => exact inl h4
    · next h4 => exact str (Nat.not_le.mp h4)
  have hs : slaveBytes s.params e2 = memRead m (chipAddr bsb off 0) n := by
    simp only [slaveBytes, c2.dir, p2, hr]
  refine ⟨{ e2 with ph := .idle, idx := 0, csn := true, staged := none }, f1, ⟨rfl, rfl, rfl⟩, ?_⟩
  rw [h0, hc, show n + 4 = 3 + (n + 1) by omega, turns_add, turns_add, t1, t2]
  rw [show turns p 1 = turn p from rfl, turn_closes (by exact h) (by exact ho) (by exact p2)]
  simp only [hr, hs, s2, s1, readFrame, length_memRead]
  rfl

/-- A whole read frame from the staged header on: `n + 5` turns. -/
theorem readFrame_run (h : s.lock.held = true) (ho : s.lock.owner = p) (hp : s.eng.ph = .idle)
    (hL : s.params.ctrl.ok = true) (hin : s.params.inlineMax ≤ 4)
    (hs : s.eng.staged = some (header s.params.ctrl .rd bsb off)) (hc : s.eng.count = n) (hn : 0 < n)
    (hm : n ≤ 65535) :
    let m := openMem s.params s.clocked s.mem s.free bsb off n
    ∃ e f, e.atRest ∧ turns p (n + 5) s = proceed p (memRead m (chipAddr bsb off 0) n)
      (afterCall p (readFrame s.params bsb off (memRead m (chipAddr bsb off 0) n)) m e f s) := by
  obtain ⟨e, f, hr, ht⟩ := readOpen_run (bsb := bsb) (off := off) h ho hin hc hn hm
  exact ⟨e, f, hr, by rw [turns_succ, turn_opens h ho hp hL hs, ht]⟩

/-- A whole write frame from its opening on: `n + 4` turns (40_transport.md R136). -/
theorem writeOpen_run (h : s.lock.held = true) (ho : s.lock.owner = p) (hc : s.eng.count = data.length)
    (hd : s.eng.data = data) (hn : 0 < data.length) (hm : data.length ≤ 65535) :
    ∃ e f, e.atRest ∧ turns p (data.length + 4) (openFrame .wr bsb off s) = proceed p []
      (afterCall p (writeFrame s.params bsb off data) (frameWrite s.params s.clocked s.mem s.free bsb off data) e f s) := by
  obtain ⟨b0, b1, b2, h0⟩ := openFrame_spec .wr bsb off s
  obtain ⟨e1, f1, t1, c1, p1, i1, s1, g1⟩ := header_run (L := s.params.ctrl) (dir := .wr) (bsb := bsb)
    (off := off) (n := data.length) (data := data) (s := { s with
      mem := openMem s.params s.clocked s.mem s.free bsb off data.length, free := s.free + 1
      eng := { s.eng with
        ph := .hdr, idx := 0, csn := false, staged := none
        hdr := header s.params.ctrl .wr bsb off, dir := .wr, bsb := bsb, off := off, sent := [], got := []
        bit := b0, sho := b1, mosi := b2 } }) h ho ⟨rfl, rfl, rfl, rfl, hc, hd, rfl, rfl⟩ rfl rfl rfl
  obtain ⟨e2, f2, t2, c2, p2, i2, s2⟩ := write_run (s := { s with
      mem := openMem s.params s.clocked s.mem s.free bsb off data.length, free := f1, eng := e1 })
    h ho c1 p1 i1 rfl (clk := s.clocked) rfl data.length (Nat.le_refl _) hn hm
  simp only [Nat.lt_irrefl, if_false, List.take_length, framePut_openMem] at t2 p2 i2 s2
  have hr : rdataOf s.params e2 = [] := by simp [rdataOf, c2.dir]
  have hs : slaveBytes s.params e2 = [] := by simp [slaveBytes, c2.dir]
  refine ⟨{ e2 with ph := .idle, idx := 0, csn := true, staged := none }, f2, ⟨rfl, rfl, rfl⟩, ?_⟩
  rw [h0, hc, show data.length + 4 = 3 + (data.length + 1) by omega, turns_add, turns_add, t1, t2]
  rw [show turns p 1 = turn p from rfl, turn_closes (by exact h) (by exact ho) (by exact p2)]
  simp only [hr, hs, s2, s1, writeFrame]
  rfl

/-- A whole write frame from the staged header on: `n + 5` turns. -/
theorem writeFrame_run (h : s.lock.held = true) (ho : s.lock.owner = p) (hp : s.eng.ph = .idle)
    (hL : s.params.ctrl.ok = true) (hs : s.eng.staged = some (header s.params.ctrl .wr bsb off))
    (hc : s.eng.count = data.length) (hd : s.eng.data = data) (hn : 0 < data.length)
    (hm : data.length ≤ 65535) :
    ∃ e f, e.atRest ∧ turns p (data.length + 5) s = proceed p []
      (afterCall p (writeFrame s.params bsb off data) (frameWrite s.params s.clocked s.mem s.free bsb off data) e f s) := by
  obtain ⟨e, f, hr, ht⟩ := writeOpen_run (bsb := bsb) (off := off) h ho hc hd hn hm
  exact ⟨e, f, hr, by rw [turns_succ, turn_opens h ho hp hL hs, ht]⟩

/-- A port whose transport call is about to run and whose step is `seq`. -/
def calling (p : Nat) (seq : Seq) (s : State) : State :=
  s.modPort p (fun q => { q with seq := seq, act := .rest, lockWait := 0 })

/-- A call that passes the argument checks makes the port ask for the lock (40_transport.md R131,
R133). -/
theorem xcall_ok {c : Call} {seq : Seq} (he : s.cfg.en = true) (ha : xferArgsOk s.params c.off c.count = true) :
    xcall p c seq s = s.modPort p (fun q => { q with seq := seq, act := .asking c, lockWait := 0 }) := by
  simp [xcall, he, ha]

/-- A call that does not pass them ends the operation `InvalidArgument` (40_transport.md R131). -/
theorem xcall_bad {c : Call} {seq : Seq} (h : (s.cfg.en && xferArgsOk s.params c.off c.count) = false) :
    xcall p c seq s = raise p .invalidArgument s := by
  simp [xcall, h]

/-- The first turn of a call on a free bus: the lock is granted and the frame staged
(40_transport.md R133). -/
theorem xcall_granted {c : Call} {seq : Seq} (hp : p < s.ports.length) (he : s.cfg.en = true)
    (ha : xferArgsOk s.params c.off c.count = true) (hl : s.lock.held = false) :
    turn p (xcall p c seq s) =
      { calling p seq s with
        lock := ⟨true, p⟩
        eng := { s.eng with
          staged := some (header s.params.ctrl c.dir c.bsb c.off), count := c.count, data := c.data } } := by
  rw [xcall_ok he ha, turn]
  simp [hl, port_modPort_same, hp, askTurn, grant, calling, modPort_modPort]

/-- What a call that passes the argument checks carries (40_transport.md R131). -/
theorem xferArgsOk_bounds (h : xferArgsOk s.params off n = true) :
    0 < n ∧ n ≤ 65535 ∧ off.toNat + n ≤ 65536 := by
  simp only [xferArgsOk, Bool.and_eq_true, decide_eq_true_eq] at h; omega

/-- A whole read call on a free bus: `n + 6` turns. -/
theorem readCall_turns {seq : Seq} (hp : p < s.ports.length) (he : s.cfg.en = true)
    (hL : s.params.ctrl.ok = true) (hin : s.params.inlineMax ≤ 4)
    (ha : xferArgsOk s.params off n = true) (hl : s.lock.held = false) (hr : s.eng.ph = .idle) :
    let m := openMem s.params s.clocked s.mem s.free bsb off n
    ∃ e f, e.atRest ∧ turns p (n + 6) (readCall p bsb off n seq s) =
      proceed p (memRead m (chipAddr bsb off 0) n)
        (afterCall p (readFrame s.params bsb off (memRead m (chipAddr bsb off 0) n)) m e f (calling p seq s)) := by
  obtain ⟨hn, hm, -⟩ := xferArgsOk_bounds ha
  obtain ⟨e, f, hrest, ht⟩ := readFrame_run (p := p) (bsb := bsb) (off := off) (n := n)
    (s := { calling p seq s with
        lock := ⟨true, p⟩
        eng := { s.eng with staged := some (header s.params.ctrl .rd bsb off), count := n, data := [] } })
    rfl rfl hr hL hin rfl rfl hn hm
  refine ⟨e, f, hrest, ?_⟩
  rw [turns_succ, readCall, xcall_granted hp he (by simpa using ha) hl]
  exact ht

/-- A whole write call on a free bus: `|data| + 6` turns. -/
theorem writeCall_turns {seq : Seq} (hp : p < s.ports.length) (he : s.cfg.en = true)
    (hL : s.params.ctrl.ok = true)
    (ha : xferArgsOk s.params off data.length = true) (hl : s.lock.held = false) (hr : s.eng.ph = .idle) :
    ∃ e f, e.atRest ∧ turns p (data.length + 6) (writeCall p bsb off data seq s) =
      proceed p []
        (afterCall p (writeFrame s.params bsb off data) (frameWrite s.params s.clocked s.mem s.free bsb off data) e f
          (calling p seq s)) := by
  obtain ⟨hn, hm, -⟩ := xferArgsOk_bounds ha
  obtain ⟨e, f, hrest, ht⟩ := writeFrame_run (p := p) (bsb := bsb) (off := off) (data := data)
    (s := { calling p seq s with
        lock := ⟨true, p⟩
        eng := { s.eng with
          staged := some (header s.params.ctrl .wr bsb off), count := data.length, data := data } })
    rfl rfl hr hL rfl rfl rfl hn hm
  refine ⟨e, f, hrest, ?_⟩
  rw [turns_succ, writeCall, xcall_granted hp he (by simpa using ha) hl]
  exact ht

/-- Moves at the head of `events` that are turns of a port, after which it is not busy: the machine
stops there and the rest of the list stays. -/
theorem drive_turns {k : Nat} {rest : List Event} (he : s.events = .env (.turn p k) :: rest)
    (hb : portBusy p s = true) (hd : portBusy p (turns p k s) = false) :
    drive (portBusy p) s = { turns p k s with events := rest } := by
  rw [drive, he, driveList, if_pos hb, applyEnv]
  cases rest with
  | nil => rfl
  | cons ev rest => cases ev <;> simp [driveList, hd]

/-- The same for the frame in progress. -/
theorem drive_frame {k : Nat} {rest : List Event} (he : s.events = .env (.turn p k) :: rest)
    (hb : frameOn s = true) (hd : frameOn (turns p k s) = false) :
    drive frameOn s = { turns p k s with events := rest } := by
  rw [drive, he, driveList, if_pos hb, applyEnv]
  cases rest with
  | nil => rfl
  | cons ev rest => cases ev <;> simp [driveList, hd]

/-- A machine that has nothing left to run on stops at once. -/
theorem drive_done {going : State → Bool} (h : going s = false) : drive going s = s := by
  rw [drive]
  generalize hev : s.events = l
  cases l with
  | nil => cases s; simp_all [driveList]
  | cons ev l => cases ev <;> simp [driveList, h] <;> (cases s; simp_all)

end Sys2Proof.Machine
end

