-- ==== Sys2Proof/Laws/Sequencer.lean ====
section
/-! SUPPORT. The laws of the sequencer: what starting an operation does, what each transport call of
an operation does on a free bus, and what ends an operation. -/

namespace Sys2Proof.Machine

variable {s : State} {p k : Nat} {rest : List Event}

/-- An operation that runs out within the `k` turns listed next: the machine stops after them and
the rest of the list stays. -/
theorem drive_run (he : s.events = .env (.turn p k) :: rest) (hb : (s.port p).busy = true)
    (hd : ((turns p k s).port p).busy = false) :
    drive (portBusy p) s = { turns p k s with events := rest } :=
  drive_turns he hb hd

/-- Starting an operation on an idle port of an enabled block (30_encoding.md R108). -/
theorem issue_enabled {opc : Byte} {bsb : Bsb} {off len aux : Word} {body : Nat → State → State}
    (hp : s.sel < s.ports.length) (hb : (s.port s.sel).busy = false) (he : s.cfg.en = true) :
    issue opc bsb off len aux body s = .next (drive (portBusy s.sel)
      (body s.sel (s.modPort s.sel (fun q => (latch opc bsb off len aux q).started)))) := by
  simp [issue, hp, hb, he]

/-- Starting an operation on an idle port of a disabled block (10_state.md R31). -/
theorem issue_disabled {opc : Byte} {bsb : Bsb} {off len aux : Word} {body : Nat → State → State}
    (hp : s.sel < s.ports.length) (hb : (s.port s.sel).busy = false) (he : s.cfg.en = false) :
    issue opc bsb off len aux body s =
      .next { s with ports := s.ports.modify s.sel (Port.afterError opc bsb off len aux .invalidArgument) } := by
  simp only [issue, hp, hb, he, if_true, Bool.false_eq_true, if_false]
  rw [drive_done]
  · simp only [raise, modPort_modPort]; rfl
  · simp [portBusy, raise, modPort_modPort, port_modPort_same, hp, Port.failed, Port.ended]

/-- A descriptor written to a busy port is ignored (30_encoding.md R108, 60_exceptions.md R274). -/
theorem issue_busy {opc : Byte} {bsb : Bsb} {off len aux : Word} {body : Nat → State → State}
    (hp : s.sel < s.ports.length) (hb : (s.port s.sel).busy = true) :
    issue opc bsb off len aux body s = .next s := by
  simp [issue, hp, hb]

/-- Once the port is at rest and the lock is free, further turns do nothing: a run of `j` turns that
ends so is a run of any `k ≥ j` turns. -/
theorem turns_settled {t : State} {j : Nat} (h : turns p j s = t) (hl : t.lock.held = false)
    (hr : (t.port p).act = .rest) (hk : j ≤ k) : turns p k s = t := by
  obtain ⟨d, rfl⟩ := Nat.exists_eq_add_of_le hk
  rw [turns_add, h, turns_rest (by simp [hl]) hr]

/-- An operation that is over after `j` turns of its port, on a free bus, when at least that many
turns are listed next. -/
theorem drive_settled {t : State} {j : Nat} (he : s.events = .env (.turn p k) :: rest)
    (hb : (s.port p).busy = true) (h : turns p j s = t) (hk : j ≤ k) (hl : t.lock.held = false)
    (hr : (t.port p).act = .rest) (hd : (t.port p).busy = false) :
    drive (portBusy p) s = { t with events := rest } := by
  have ht := turns_settled h hl hr hk
  rw [drive_run he hb (by rw [ht]; exact hd), ht]

/-- What the invariant says of one port (10_state.md R26, 40_transport.md R131, 60_exceptions.md R254):
at rest when it is not busy, a call that asks for the lock has passed the argument checks, and the status
is not `Unsupported`. -/
def Port.calm (P : Params) (q : Port) : Prop :=
  (q.busy = false → q.seq = .none ∧ q.act = .rest) ∧
    (∀ c, q.act = .asking c → xferArgsOk P c.off c.count = true) ∧ q.err ≠ .unsupported

/-- `t` differs from `s` in the registers of port `p` and the flag `MORE` alone, and a busy port that
was calm is calm. -/
def PortOnly (p : Nat) (s t : State) : Prop :=
  ∃ f m, t = { s.modPort p f with more := m } ∧ ∀ q : Port, q.busy = true → q.calm s.params → (f q).calm s.params

theorem PortOnly.refl (p : Nat) (s : State) : PortOnly p s s :=
  ⟨fun q => q, s.more, by rw [modPort_id], fun _ _ h => h⟩

/-- A port whose operation has ended is calm. -/
theorem ended_calm {P : Params} {e : Status} (he : e ≠ .unsupported) (q : Port) : (q.ended e).calm P :=
  ⟨fun _ => ⟨rfl, rfl⟩, nofun, he⟩

theorem PortOnly.raise (p : Nat) (e : Status) (s : State) (he : e ≠ .unsupported := by decide) :
    PortOnly p s (raise p e s) :=
  ⟨_, s.more, rfl, fun q _ _ => ended_calm (P := s.params) he q⟩

theorem PortOnly.finish (p : Nat) (f : Port → Port) (s : State) : PortOnly p s (finish p f s) :=
  ⟨_, s.more, rfl, fun q _ _ => ended_calm (P := s.params) (by decide) (f q)⟩

theorem PortOnly.pausing (p n : Nat) (seq : Seq) (s : State) :
    PortOnly p s (s.modPort p (fun q => { q with seq := seq, act := .pausing n })) :=
  ⟨_, s.more, rfl, fun q hb hq => ⟨fun h => by simp_all, nofun, hq.2.2⟩⟩

theorem PortOnly.ite {c : Prop} [Decidable c] {p : Nat} {s t u : State} (ht : PortOnly p s t)
    (hu : PortOnly p s u) : PortOnly p s (if c then t else u) := by
  split <;> assumption

theorem PortOnly.xcall (p : Nat) (c : Call) (seq : Seq) (s : State) : PortOnly p s (xcall p c seq s) := by
  by_cases h : (s.cfg.en && xferArgsOk s.params c.off c.count) = true
  · refine ⟨_, s.more, if_pos h, fun q hb hq => ⟨fun hf => by simp_all, fun c' hc => ?_, hq.2.2⟩⟩
    cases hc
    simp_all
  · rw [xcall_bad (by simpa using h)]; exact .raise _ _ _

theorem PortOnly.ringRd (p : Nat) (win : Bsb) (off : Word) (n : Nat) (k : RdCont) (empty : State → State)
    (s : State) (h : PortOnly p s (empty s)) : PortOnly p s (ringRd p win off n k empty s) := by
  unfold Machine.ringRd
  split_ifs
  any_goals exact .raise _ _ _
  · exact h
  all_goals exact .xcall _ _ _ _

theorem PortOnly.ringWr (p : Nat) (win : Bsb) (off : Word) (v : List Byte) (k : WrCont) (empty : State → State)
    (s : State) (h : PortOnly p s (empty s)) : PortOnly p s (ringWr p win off v k empty s) := by
  unfold Machine.ringWr
  split_ifs
  any_goals exact .raise _ _ _
  · exact h
  all_goals exact .xcall _ _ _ _

/-- The error of an exceeded retry cap is one that every operation may end with (60_exceptions.md
R252; log 14). -/
theorem capError_cases (n : Nat) : capError n = .hardwareFault ∨ capError n = .timeout := by
  unfold capError; split
  · exact .inl rfl
  · exact .inr rfl

theorem PortOnly.sizeRetry (p : Nat) (reg : Word) (r : Nat) (k : SizeCont) (s : State) :
    PortOnly p s (sizeRetry p reg r k s) := by
  unfold Machine.sizeRetry
  cases s.params.sizeRetryMax with
  | none => exact .xcall _ _ _ _
  | some m => exact .ite (.raise _ _ _ (by rcases capError_cases s.free with h | h <;> simp [h])) (.xcall _ _ _ _)

/-- The early end of a wait writes the port's registers, and nothing else (40_transport.md R149). -/
theorem PortOnly.expire (p : Nat) (s : State) : PortOnly p s (expire p s) := by
  unfold Machine.expire
  cases (s.port p).act with
  | rest => exact .refl _ _
  | asking c => exact .ite (.raise _ _ _) (.refl _ _)
  | pausing n => exact .raise _ _ _

/-- Delivering the answer of a transport call writes the port's registers and `MORE`, and nothing
else (60_exceptions.md R256, 10_state.md R28). -/
theorem proceed_portOnly (p : Nat) (d : List Byte) (s : State) : PortOnly p s (proceed p d s) := by
  have head : ∀ rsr rd hv, PortOnly p s (rxHeaderKnown p rsr rd hv s) := fun rsr rd hv =>
    .ite (.ringRd _ _ _ _ _ _ _ (.xcall _ _ _ _)) (.raise _ _ _)
  have rd : ∀ k d, PortOnly p s (ringRdDone p k d s) := fun k d => by
    cases k with
    | own => exact .finish _ _ _
    | rxHeader rsr rd => exact head _ _ _
    | rxPayload rsr rd hv => exact .xcall _ _ _ _
  have wr : ∀ k, PortOnly p s (ringWrDone p k s) := fun k => by
    cases k with
    | own => exact .finish _ _ _
    | tx wr len => exact .xcall _ _ _ _
  have cmd : ∀ k, PortOnly p s (cmdDone p k s) := fun k => by
    cases k with
    | own => exact .finish _ _ _
    | tx => exact .xcall _ _ _ _
    | rx rsr hv payload => exact ⟨_, _, rfl, fun q _ _ => ended_calm (by decide) _⟩
  have size : ∀ k v, PortOnly p s (sizeDone p k v s) := fun k v => by
    cases k with
    | own => exact .finish _ _ _
    | tx len => exact .ite (.raise _ _ _) (.xcall _ _ _ _)
    | rx => exact .ite (.finish _ _ _) (.xcall _ _ _ _)
  have polled : ∀ r v, PortOnly p s (txPolled p r v s) := fun r v => by
    unfold txPolled
    split_ifs <;> first | exact .raise _ _ _ | exact .xcall _ _ _ _
  rw [proceed]
  cases (s.port p).seq with
  | none => exact .refl _ _
  | xferRd => exact .finish _ _ _
  | xferWr => exact .finish _ _ _
  | ringRdWhole k => exact rd k d
  | ringRdTail win r k => exact .xcall _ _ _ _
  | ringRdHead tail k => exact rd k _
  | ringWrWhole k => exact wr k
  | ringWrTail win r k => exact .xcall _ _ _ _
  | ringWrHead k => exact wr k
  | sizeFirst reg j k => exact .xcall _ _ _ _
  | sizeSecond reg a j k => exact .ite (size k _) (.sizeRetry _ _ _ _ _)
  | cmdWrite tmo k => exact .xcall _ _ _ _
  | cmdPoll t tmo k => exact .ite (cmd k) (.ite (.raise _ _ _) (.pausing _ _ _ _))
  | txPtr len => exact .ringWr _ _ _ _ _ _ _ (.xcall _ _ _ _)
  | txStore => exact .xcall _ _ _ _
  | txPoll r => exact polled r _
  | txLive r => exact .ite (.xcall _ _ _ _) (.raise _ _ _)
  | txClear => exact .finish _ _ _
  | rxPtr rsr => exact .ringRd _ _ _ _ _ _ _ (head _ _ _)
  | rxStore rsr hv payload => exact .xcall _ _ _ _

section Proceed

variable (p : Nat) (d : List Byte) (s : State)

@[simp] theorem proceed_params : (proceed p d s).params = s.params := by
  obtain ⟨f, m, h, -⟩ := proceed_portOnly p d s; rw [h]; rfl
@[simp] theorem proceed_cfg : (proceed p d s).cfg = s.cfg := by
  obtain ⟨f, m, h, -⟩ := proceed_portOnly p d s; rw [h]; rfl
@[simp] theorem proceed_lock : (proceed p d s).lock = s.lock := by
  obtain ⟨f, m, h, -⟩ := proceed_portOnly p d s; rw [h]; rfl
@[simp] theorem proceed_eng : (proceed p d s).eng = s.eng := by
  obtain ⟨f, m, h, -⟩ := proceed_portOnly p d s; rw [h]; rfl
@[simp] theorem proceed_mem : (proceed p d s).mem = s.mem := by
  obtain ⟨f, m, h, -⟩ := proceed_portOnly p d s; rw [h]; rfl
@[simp] theorem proceed_trace : (proceed p d s).trace = s.trace := by
  obtain ⟨f, m, h, -⟩ := proceed_portOnly p d s; rw [h]; rfl
@[simp] theorem proceed_events : (proceed p d s).events = s.events := by
  obtain ⟨f, m, h, -⟩ := proceed_portOnly p d s; rw [h]; rfl
@[simp] theorem proceed_sel : (proceed p d s).sel = s.sel := by
  obtain ⟨f, m, h, -⟩ := proceed_portOnly p d s; rw [h]; rfl
@[simp] theorem length_proceed : (proceed p d s).ports.length = s.ports.length := by
  obtain ⟨f, m, h, -⟩ := proceed_portOnly p d s; rw [h]; exact length_modPort _ _ _
theorem proceed_port_other (q : Nat) (h : p ≠ q) : (proceed p d s).port q = s.port q := by
  obtain ⟨f, m, hf, -⟩ := proceed_portOnly p d s; rw [hf]; exact port_modPort_other _ _ _ _ h

end Proceed

/-- A free bus as port `p` finds it: the port exists, the block is enabled, the parameters are usable,
nobody holds the lock and the engine is at rest. -/
structure Free (p : Nat) (s : State) : Prop where
  port : p < s.ports.length
  en : s.cfg.en = true
  params : s.params.ok = true
  lock : s.lock.held = false
  rest : s.eng.atRest

/-- A call within a block that passes the checks of usable parameters (40_transport.md R131). -/
theorem xferArgsOk_of {P : Params} (h : P.ok = true) {off : Word} {n : Nat} (h1 : 1 ≤ n) (h2 : n ≤ 65535)
    (h3 : off.toNat + n ≤ 65536) : xferArgsOk P off n = true := by
  simp only [Params.ok, Bool.and_eq_true, decide_eq_true_eq] at h
  have hm : P.minPayload ≤ 1 := by tauto
  simp only [xferArgsOk, Bool.and_eq_true, decide_eq_true_eq]; omega

/-- The lengths of a pointer, a size register and a frame-length header with usable parameters. -/
theorem Params.lengths_ok {P : Params} (h : P.ok = true) :
    (1 ≤ P.ptrLen ∧ P.ptrLen ≤ 2) ∧ (1 ≤ P.sizeLen ∧ P.sizeLen ≤ 2) ∧ 1 ≤ P.hdrLen ∧ P.hdrLen ≤ 2 := by
  simp only [Params.ok, Bool.and_eq_true, decide_eq_true_eq] at h
  tauto

/-- What usable parameters give to a transport call. -/
theorem Params.layout_ok {P : Params} (h : P.ok = true) : P.ctrl.ok = true ∧ P.inlineMax ≤ 4 := by
  simp only [Params.ok, Bool.and_eq_true, decide_eq_true_eq] at h
  exact ⟨by tauto, by tauto⟩

/-- The state when the transport calls of port `p` with the frames `frs` (newest first) have ended:
the lock released, the frames on the wire trace, the memory `m`, and the step `seq` pending. -/
def ended (p : Nat) (seq : Seq) (frs : List Frame) (m : Memory) (e : Engine) (f : Nat) (s : State) : State :=
  { s.modPort p (fun q => { q with seq := seq, act := .rest, lockWait := 0 }) with
    lock := ⟨false, p⟩, trace := frs ++ s.trace, mem := m, eng := e, free := f }

section Ended

variable (p : Nat) (seq : Seq) (frs : List Frame) (m : Memory) (e : Engine) (f : Nat) (s : State)

@[simp] theorem ended_params : (ended p seq frs m e f s).params = s.params := rfl
@[simp] theorem ended_cfg : (ended p seq frs m e f s).cfg = s.cfg := rfl
@[simp] theorem ended_clocked : (ended p seq frs m e f s).clocked = s.clocked := rfl
@[simp] theorem ended_more : (ended p seq frs m e f s).more = s.more := rfl
@[simp] theorem ended_lock : (ended p seq frs m e f s).lock = ⟨false, p⟩ := rfl
@[simp] theorem ended_eng : (ended p seq frs m e f s).eng = e := rfl
@[simp] theorem ended_mem : (ended p seq frs m e f s).mem = m := rfl
@[simp] theorem ended_trace : (ended p seq frs m e f s).trace = frs ++ s.trace := rfl
@[simp] theorem ended_events : (ended p seq frs m e f s).events = s.events := rfl
@[simp] theorem ended_sel : (ended p seq frs m e f s).sel = s.sel := rfl
@[simp] theorem ended_hostData : (ended p seq frs m e f s).hostData = s.hostData := rfl
@[simp] theorem ended_free : (ended p seq frs m e f s).free = f := rfl
@[simp] theorem length_ended : (ended p seq frs m e f s).ports.length = s.ports.length := by simp [ended]

/-- The port whose calls have ended has its step still pending. -/
theorem ended_port (h : p < s.ports.length) :
    (ended p seq frs m e f s).port p = { s.port p with seq := seq, act := .rest, lockWait := 0 } := by
  exact port_modPort_same s p (fun q => { q with seq := seq, act := .rest, lockWait := 0 }) h

/-- Two runs of calls are one run of the frames of both. -/
theorem ended_ended (seq' : Seq) (frs' : List Frame) (m' : Memory) (e' : Engine) (f' : Nat) :
    ended p seq' frs' m' e' f' (ended p seq frs m e f s) = ended p seq' (frs' ++ frs) m' e' f' s := by
  simp only [ended, State.modPort, List.modify_modify_eq, List.append_assoc]; rfl

/-- The registers of a port that are changed after its calls have ended. -/
theorem modPort_ended (g : Port → Port) : (ended p seq frs m e f s).modPort p g =
    { s.modPort p (fun q => g { q with seq := seq, act := .rest, lockWait := 0 }) with
      lock := ⟨false, p⟩, trace := frs ++ s.trace, mem := m, eng := e, free := f } := by
  simp only [ended, State.modPort, List.modify_modify_eq]; rfl

variable {p seq frs m e f s}

/-- The bus is free again when the calls have ended. -/
theorem Free.ended (h : Free p s) (he : e.atRest) : Free p (ended p seq frs m e f s) :=
  ⟨by rw [length_ended]; exact h.port, h.en, h.params, rfl, he⟩

/-- A change of the port's registers leaves the bus free. -/
theorem Free.modPort (h : Free p s) (g : Port → Port) : Free p (s.modPort p g) :=
  ⟨by rw [length_modPort]; exact h.port, h.en, h.params, h.lock, h.rest⟩

/-- A port that can start an operation finds a free bus. -/
theorem State.ready.free (h : s.ready) (hP : s.params.ok = true) : Free s.sel s :=
  ⟨h.1, h.2.2.1, hP, h.2.2.2.1, h.2.2.2.2⟩

/-- A whole read call on a free bus, and what its answer leads to. -/
theorem readCall_run {bsb : Bsb} {off : Word} {n : Nat} (h : Free p s) (ha : xferArgsOk s.params off n = true) :
    let m := openMem s.params s.clocked s.mem s.free bsb off n
    ∃ e f, e.atRest ∧ turns p (n + 6) (readCall p bsb off n seq s) =
      proceed p (memRead m (chipAddr bsb off 0) n)
        (ended p seq [readFrame s.params bsb off (memRead m (chipAddr bsb off 0) n)] m e f s) :=
  readCall_turns h.port h.en (Params.layout_ok h.params).1 (Params.layout_ok h.params).2 ha h.lock h.rest.1

/-- The same where the spec gives the chip's answer: the chip does not change. -/
theorem readCall_tame {bsb : Bsb} {off : Word} {n : Nat} (h : Free p s)
    (ha : xferArgsOk s.params off n = true) (hk : s.clocked = true) (hw : wild s.params bsb off n = false) :
    ∃ e f, e.atRest ∧ turns p (n + 6) (readCall p bsb off n seq s) =
      proceed p (memRead s.mem (chipAddr bsb off 0) n)
        (ended p seq [readFrame s.params bsb off (memRead s.mem (chipAddr bsb off 0) n)] s.mem e f s) := by
  simpa only [hk, openMem_tame hw] using readCall_run (bsb := bsb) (seq := seq) h ha

/-- A whole write call on a free bus, and what its answer leads to. -/
theorem writeCall_run {bsb : Bsb} {off : Word} {v : List Byte} (h : Free p s)
    (ha : xferArgsOk s.params off v.length = true) :
    ∃ e f, e.atRest ∧ turns p (v.length + 6) (writeCall p bsb off v seq s) =
      proceed p [] (ended p seq [writeFrame s.params bsb off v]
        (frameWrite s.params s.clocked s.mem s.free bsb off v) e f s) :=
  writeCall_turns h.port h.en (Params.layout_ok h.params).1 ha h.lock h.rest.1

/-- The same where the spec gives the chip's answer. -/
theorem writeCall_tame {bsb : Bsb} {off : Word} {v : List Byte} (h : Free p s)
    (ha : xferArgsOk s.params off v.length = true) (hk : s.clocked = true)
    (hw : wild s.params bsb off v.length = false) :
    ∃ e f, e.atRest ∧ turns p (v.length + 6) (writeCall p bsb off v seq s) =
      proceed p [] (ended p seq [writeFrame s.params bsb off v]
        (memWrite s.params s.mem (chipAddr bsb off 0) v) e f s) := by
  simpa only [frameWrite, hk, hw, Bool.not_false, Bool.and_self, if_true] using writeCall_run (bsb := bsb) (seq := seq) h ha

end Ended

/-- The blocks of registers are answered by M0 (20_memory.md R62, R73): no frame to them is wild. -/
theorem wild_s0Reg {P : Params} (h : P.ok = true) (off : Word) (n : Nat) :
    wild P P.bsbS0Reg off n = false ∧ wild P P.bsbCommon off n = false := by
  simp only [Params.ok, Bool.and_eq_true, Bool.not_eq_true', isWindow] at h
  have h1 : windowOk P P.bsbS0Reg = false := by unfold windowOk; tauto
  have h2 : windowOk P P.bsbCommon = false := by unfold windowOk; tauto
  simp [wild, h1, h2]

/-- A frame inside a window is answered by M0 (41_ring_accessor.md R174). -/
theorem wild_window {P : Params} {win : Bsb} {off : Word} {n : Nat} (hw : windowOk P win = true)
    (h : off.toNat + n ≤ P.window) : wild P win off n = false := by
  simp [wild, hw, h]

end Sys2Proof.Machine
end

