-- ==== Sys2Proof/Laws/Exec.lean ====
section
/-! SUPPORT. The laws of executing an instruction: every operation is one start by its descriptor's
fields, and every frame header one frame; what the next step runs. -/

namespace Sys2Proof.Machine

/-- The start of each operation: the checks before its first transport call, then that call. -/
def start : Instr → Nat → State → State
  | .wireRd _ _ => fun _ s => s
  | .wireWr _ _ => fun _ s => s
  | .xferRd bsb off len => fun p => readCall p bsb off len.toNat .xferRd
  | .xferWr bsb off len => fun p s => writeCall p bsb off (wbufBytes p (s.port p).wbuf 0 len.toNat) .xferWr s
  | .bufRd bsb off len => fun p => ringRd p bsb off len.toNat .own (finish p (fun q => { q with rbuf := [] }))
  | .bufWr bsb off len => fun p s =>
    ringWr p bsb off (wbufBytes p (s.port p).wbuf 0 len.toNat) .own (finish p id) s
  | .getTxFree => fun p s => sizeStart p s.params.regTxFsr 0 .own s
  | .getRxSize => fun p s => sizeStart p s.params.regRxRsr 0 .own s
  | .sockCmd code tmo => fun p => cmdStart p code tmo.toNat .own
  | .txEnq len => fun p s =>
    if len = 0 then raise p .invalidArgument s else sizeStart p s.params.regTxFsr 0 (.tx len) s
  | .rxDeq => rxStart

/-- Executing an operation starts it with its descriptor's fields (30_encoding.md R108). -/
theorem exec_cmd {L : CtrlLayout} {i : Instr} {d : Descriptor} (h : encode L i = .cmd d) (s : State) :
    exec i s = issue (opcOf d) (bsbOf d) (offOf d) (lenOf d) (auxOf d) (start i) s := by
  cases i <;> simp only [encode, Encoded.cmd.injEq, reduceCtorEq] at h <;>
    rw [← h, opcOf_descriptor, bsbOf_descriptor, offOf_descriptor, lenOf_descriptor, auxOf_descriptor] <;>
    rfl

/-- The start of an operation writes the port's registers and `MORE`, and nothing else
(60_exceptions.md R256). -/
theorem start_portOnly (i : Instr) (p : Nat) (s : State) : PortOnly p s (start i p s) := by
  cases i with
  | wireRd bsb off => exact .refl _ _
  | wireWr bsb off => exact .refl _ _
  | xferRd bsb off len => exact .xcall _ _ _ _
  | xferWr bsb off len => exact .xcall _ _ _ _
  | bufRd bsb off len => exact .ringRd _ _ _ _ _ _ _ (.finish _ _ _)
  | bufWr bsb off len => exact .ringWr _ _ _ _ _ _ _ (.finish _ _ _)
  | getTxFree => exact .xcall _ _ _ _
  | getRxSize => exact .xcall _ _ _ _
  | sockCmd code tmo => exact .xcall _ _ _ _
  | txEnq len => exact .ite (.raise _ _ _) (.xcall _ _ _ _)
  | rxDeq =>
    obtain ⟨f, m, h, hc⟩ := PortOnly.xcall p ⟨.rd, s.params.bsbS0Reg, s.params.regRxRsr, s.params.sizeLen, []⟩
      (.sizeFirst s.params.regRxRsr 0 .rx) { s with more := false }
    exact ⟨f, m, h, hc⟩

/-- The state in which an operation starts: the descriptor's fields latched, `BUSY` set. -/
def issued (d : Descriptor) (s : State) : State :=
  s.modPort s.sel (fun q => (latch (opcOf d) (bsbOf d) (offOf d) (lenOf d) (auxOf d) q).started)

/-- An operation that is over after `j` turns of its port, when at least that many are listed next. -/
theorem exec_run {L : CtrlLayout} {i : Instr} {d : Descriptor} {s t : State} {j k : Nat} {rest : List Event}
    (h : encode L i = .cmd d) (hr : s.ready) (he : s.events = .env (.turn s.sel k) :: rest) (hk : j ≤ k)
    (hs : ((start i s.sel (issued d s)).port s.sel).busy = true)
    (hev : (start i s.sel (issued d s)).events = s.events)
    (ht : turns s.sel j (start i s.sel (issued d s)) = t) (hl : t.lock.held = false)
    (ha : (t.port s.sel).act = .rest) (hb : (t.port s.sel).busy = false) :
    exec i s = .next { t with events := rest } := by
  rw [exec_cmd h, issue_enabled hr.1 hr.2.1 hr.2.2.1]
  exact congrArg _ (drive_settled (hev.trans he) hs ht hk hl ha hb)

/-- A call that passes its checks leaves the port busy. -/
theorem xcall_busy {p : Nat} {c : Call} {seq : Seq} {s : State} (h : Free p s)
    (ha : xferArgsOk s.params c.off c.count = true) (hb : (s.port p).busy = true) :
    ((xcall p c seq s).port p).busy = true := by
  rw [xcall_ok h.en ha, port_modPort_same _ _ _ h.port]; exact hb

/-- What the start of an operation leaves alone. -/
theorem PortOnly.events {p : Nat} {s t : State} (h : PortOnly p s t) : t.events = s.events := by
  obtain ⟨f, m, rfl, -⟩ := h; rfl

/-- An operation in its start state is busy. -/
theorem issued_busy {d : Descriptor} {s : State} (h : s.sel < s.ports.length) :
    ((issued d s).port s.sel).busy = true := by
  rw [issued, port_modPort_same _ _ _ h]; rfl

/-- The bus is as free as before. -/
theorem issued_free {d : Descriptor} {s : State} (h : s.ready) (hP : s.params.ok = true) :
    Free s.sel (issued d s) :=
  (h.free hP).modPort _

/-- `PORT[p].CMD` has register number `19 + 4p` (10_state.md R30). -/
theorem cmdPort_cmd (p : Nat) : cmdPort (19 + 4 * p) = some p := by
  have : 19 ≤ 19 + 4 * p ∧ (19 + 4 * p) % 4 = 3 := by omega
  rw [cmdPort, if_pos this]; congr 1; omega

/-- A state that listens takes the first of `events` (log 16). -/
theorem fetch_listening {s : State} (h : s.listening) : fetch s = fetchEvent s := by
  simp [fetch, h.1, h.2]

/-- A reset or a failure is taken whatever is staged (log 16). -/
theorem fetch_cut {s : State} (hf : s.faulted = false) (hc : s.cutNext = true) : fetch s = fetchEvent s := by
  simp [fetch, hf, hc]

/-- The other registers of port `p` (10_state.md R30). -/
theorem regPort_reg (p k : Nat) (hk : k < 4) : regPort (16 + k + 4 * p) = p := by
  simp only [regPort]; omega

/-- What executing an operation on a port can be: nothing where the port is busy, a fault where it
does not exist, else the start and the moves listed next. -/
theorem exec_cmd_cases {L : CtrlLayout} {i : Instr} {d : Descriptor} {s t : State} (h : encode L i = .cmd d)
    (ht : exec i s = .next t) :
    s.sel < s.ports.length ∧
      (((s.port s.sel).busy = true ∧ t = s) ∨
        ((s.port s.sel).busy = false ∧
          let s1 := s.modPort s.sel (fun q => (latch (opcOf d) (bsbOf d) (offOf d) (lenOf d) (auxOf d) q).started)
          t = drive (portBusy s.sel) (if s.cfg.en then start i s.sel s1 else raise s.sel .invalidArgument s1))) := by
  rw [exec_cmd h, issue] at ht
  split at ht
  · next hp =>
    refine ⟨hp, ?_⟩
    split at ht
    · next hb => exact .inl ⟨hb, by simpa using ht.symm⟩
    · next hb => exact .inr ⟨by simpa using hb, by simpa using ht.symm⟩
  · cases ht

/-- Executing a frame header opens its frame, where it can be executed at all. -/
theorem runFrame_cases {dir : Dir} {bsb : Bsb} {off : Word} {s t : State}
    (ht : runFrame dir bsb off s = .next t) :
    s.lock.held = true ∧ s.eng.ph = .idle ∧ xferArgsOk s.params off s.eng.count = true ∧
      t = drive frameOn (openFrame dir bsb off s) := by
  unfold runFrame at ht
  split at ht
  · cases ht
  · next h1 =>
    split at ht
    · cases ht
    · next h2 =>
      split at ht
      · cases ht
      · next h3 => exact ⟨by simpa using h1, by simpa using h2, by simpa using h3, by simpa using ht.symm⟩

end Sys2Proof.Machine
end

