-- ==== Sys2Proof/Laws/PerInstr.lean ====
section
/-! SUPPORT. Statements for all instructions, one lemma per constructor. MatchesRow: the word of
every instruction matches the match and mask of its own row of spec/opcode_table.json
(30_encoding.md R103, R111), whatever its operands. -/

namespace Sys2Proof.Laws.MatchesRow

/-- The mask and the match of each row of spec/opcode_table.json. -/
def row : Instr → Encoded × Encoded
  | .wireRd _ _ => (.wire 0x000007#24, .wire 0x000000#24)
  | .wireWr _ _ => (.wire 0x000007#24, .wire 0x000004#24)
  | .xferRd _ _ _ => (.cmd 0xFF0700000000FFFF#64, .cmd 0x0100000000000000#64)
  | .xferWr _ _ _ => (.cmd 0xFF0700000000FFFF#64, .cmd 0x0200000000000000#64)
  | .bufRd _ _ _ => (.cmd 0xFF0700000000FFFF#64, .cmd 0x1100000000000000#64)
  | .bufWr _ _ _ => (.cmd 0xFF0700000000FFFF#64, .cmd 0x1200000000000000#64)
  | .getTxFree => (.cmd 0xFFFFFFFFFFFFFFFF#64, .cmd 0x2100000000000000#64)
  | .getRxSize => (.cmd 0xFFFFFFFFFFFFFFFF#64, .cmd 0x2200000000000000#64)
  | .sockCmd _ _ => (.cmd 0xFFFFFFFFFF000000#64, .cmd 0x3000000000000000#64)
  | .txEnq _ => (.cmd 0xFFFFFFFF0000FFFF#64, .cmd 0x4100000000000000#64)
  | .rxDeq => (.cmd 0xFFFFFFFFFFFFFFFF#64, .cmd 0x4200000000000000#64)

/-- A word matches a mask and a match of its own format. -/
def matchesWord : Encoded → Encoded × Encoded → Prop
  | .wire h, (.wire m, .wire v) => h &&& m = v
  | .cmd d, (.cmd m, .cmd v) => d &&& m = v
  | _, _ => False

/-- The word of `i` matches its row. -/
def Statement (i : Instr) : Prop := matchesWord (encode .default i) (row i)

/-- The low three bits of a header with the table's layout: the mode and the direction. -/
theorem header_row (dir : Dir) (bsb : Bsb) (off : Word) :
    header .default dir bsb off &&& 0x000007#24 = 0#16 ++ (if dir = .wr then 4#8 else 0#8) := by
  have hc : ∀ (dir : Dir) (bsb : Bsb), ctrlByte .default dir bsb &&& 7#8 = if dir = .wr then 4#8 else 0#8 := by
    intro dir bsb; cases dir <;> revert bsb <;> decide
  rw [← hc dir bsb]
  apply BitVec.eq_of_getLsbD_eq; intro i hi
  rw [header_eq (CtrlLayout.usable (by decide))]
  simp only [BitVec.getLsbD_and, BitVec.getLsbD_append]
  interval_cases i <;> simp

theorem wireRd (bsb : Bsb) (off : Word) : Statement (.wireRd bsb off) :=
  header_row .rd bsb off

theorem wireWr (bsb : Bsb) (off : Word) : Statement (.wireWr bsb off) :=
  header_row .wr bsb off

/-- A row whose reserved bits and `AUX` are zero and whose `OPC` is fixed. -/
theorem opcode_row (opc : Byte) (bsb : Bsb) (off len : Word) :
    descriptor opc bsb off len 0 &&& 0xFF0700000000FFFF#64 = opc ++ 0#56 := by
  apply BitVec.eq_of_getLsbD_eq; intro i hi
  simp only [descriptor, BitVec.getLsbD_and, BitVec.getLsbD_append]
  interval_cases i <;> simp

theorem xferRd (bsb : Bsb) (off len : Word) : Statement (.xferRd bsb off len) :=
  opcode_row 0x01 bsb off len

theorem xferWr (bsb : Bsb) (off len : Word) : Statement (.xferWr bsb off len) :=
  opcode_row 0x02 bsb off len

theorem bufRd (bsb : Bsb) (off len : Word) : Statement (.bufRd bsb off len) :=
  opcode_row 0x11 bsb off len

theorem bufWr (bsb : Bsb) (off len : Word) : Statement (.bufWr bsb off len) :=
  opcode_row 0x12 bsb off len

theorem getTxFree : Statement .getTxFree := by
  show descriptor 0x21 0 0 0 0 &&& 0xFFFFFFFFFFFFFFFF#64 = 0x2100000000000000#64
  decide

theorem getRxSize : Statement .getRxSize := by
  show descriptor 0x22 0 0 0 0 &&& 0xFFFFFFFFFFFFFFFF#64 = 0x2200000000000000#64
  decide

theorem sockCmd (code : Byte) (tmo : Word) : Statement (.sockCmd code tmo) := by
  show descriptor 0x30 0 0 (0#8 ++ code) tmo &&& 0xFFFFFFFFFF000000#64 = 0x3000000000000000#64
  apply BitVec.eq_of_getLsbD_eq; intro i hi
  simp only [descriptor, BitVec.getLsbD_and, BitVec.getLsbD_append]
  interval_cases i <;> simp

theorem txEnq (len : Word) : Statement (.txEnq len) := by
  show descriptor 0x41 0 0 len 0 &&& 0xFFFFFFFF0000FFFF#64 = 0x4100000000000000#64
  apply BitVec.eq_of_getLsbD_eq; intro i hi
  simp only [descriptor, BitVec.getLsbD_and, BitVec.getLsbD_append]
  interval_cases i <;> simp

theorem rxDeq : Statement .rxDeq := by
  show descriptor 0x42 0 0 0 0 &&& 0xFFFFFFFFFFFFFFFF#64 = 0x4200000000000000#64
  decide

end Sys2Proof.Laws.MatchesRow
end

