-- ==== Sys2Proof/Laws/Runs.lean ====
section
/-! SUPPORT. What the sequences of transport calls do on a free bus: the ring accessor, the double
read of a size register, the socket command. -/

namespace Sys2Proof.Machine

/-- `WBUF[i .. i+n-1]` has `n` bytes. -/
@[simp] theorem length_wbufBytes (p : Nat) (w : List Byte) (i n : Nat) : (wbufBytes p w i n).length = n := by
  simp [wbufBytes]

/-- A ring read returns as many bytes as were asked for. -/
@[simp] theorem length_ringRead (P : Params) (m : Memory) (win : Bsb) (off : Word) (n : Nat) :
    (ringRead P m win off n).length = n := by
  simp [ringRead]

/-- What usable parameters say of `WINDOW`. -/
theorem Params.window_ok {P : Params} (h : P.ok = true) : 2 ≤ P.window ∧ P.window ≤ 65535 := by
  simp only [Params.ok, Bool.and_eq_true, decide_eq_true_eq] at h
  exact ⟨by tauto, by tauto⟩

/-- The ring offset lies in the window (41_ring_accessor.md R171). -/
theorem ringOff_toNat {P : Params} (h : P.ok = true) (off : Word) :
    (ringOff P off).toNat = off.toNat % P.window ∧ off.toNat % P.window < P.window := by
  obtain ⟨h1, h2⟩ := Params.window_ok h
  have hlt := Nat.mod_lt off.toNat (show 0 < P.window by omega)
  refine ⟨?_, hlt⟩
  rw [ringOff, BitVec.toNat_ofNat, Nat.mod_eq_of_lt (by omega)]

/-- The length of the tail, as the split computes it (41_ring_accessor.md R172). -/
theorem tailLen_ringOff {P : Params} (h : P.ok = true) (off : Word) :
    tailLen P (ringOff P off) = ringTail P off ∧ 1 ≤ ringTail P off ∧
      (ringOff P off).toNat + ringTail P off = P.window := by
  obtain ⟨ho, hlt⟩ := ringOff_toNat h off
  rw [tailLen, ringTail, ho]; omega

/-- The split is made where the bytes pass the tail (41_ring_accessor.md R172). -/
theorem crosses_ringOff {P : Params} (h : P.ok = true) (off : Word) (n : Nat) :
    crosses P (ringOff P off) n = decide (ringTail P off < n) := by
  obtain ⟨-, -, hs⟩ := tailLen_ringOff h off
  rw [crosses]; congr 1; simp only [eq_iff_iff]; omega

/-- The start of a window's tail. -/
theorem chipAddr_ringOff {P : Params} (h : P.ok = true) (win : Bsb) (off : Word) :
    chipAddr win (ringOff P off) 0 = ringAddr P win off 0 := by
  rw [chipAddr, ringAddr, (ringOff_toNat h off).1, Nat.add_zero, Nat.add_zero]

/-- A location of the tail. -/
theorem ringAddr_tail {P : Params} (h : P.ok = true) (win : Bsb) (off : Word) {i : Nat}
    (hi : i < ringTail P off) : ringAddr P win off i = ringAddr P win off 0 + i := by
  obtain ⟨ho, hlt⟩ := ringOff_toNat h off
  simp only [ringTail] at hi
  rw [ringAddr, ringAddr, Nat.add_zero, Nat.add_mod, Nat.mod_eq_of_lt (a := i) (by omega),
    Nat.mod_eq_of_lt (by omega), Nat.add_assoc]

/-- A location of the head. -/
theorem ringAddr_head {P : Params} (h : P.ok = true) (win : Bsb) (off : Word) {i : Nat}
    (hi : ringTail P off ≤ i) (hn : i < P.window) :
    ringAddr P win off i = win.toNat * Config.blockSize + (i - ringTail P off) := by
  obtain ⟨ho, hlt⟩ := ringOff_toNat h off
  simp only [ringTail] at hi ⊢
  rw [ringAddr, Nat.add_mod, Nat.mod_eq_of_lt (a := i) hn, Nat.mod_eq_sub_mod (by omega),
    Nat.mod_eq_of_lt (by omega)]
  omega

/-- A span that does not cross the end of the window is one run of chip locations. -/
theorem ringRead_whole {P : Params} (hP : P.ok = true) {m : Memory} {win : Bsb} {off : Word} {n : Nat}
    (h : n ≤ ringTail P off) : ringRead P m win off n = memRead m (chipAddr win (ringOff P off) 0) n := by
  simp only [ringRead, memRead, chipAddr_ringOff hP]
  refine List.map_congr_left fun i hi => ?_
  rw [List.mem_range] at hi
  rw [ringAddr_tail hP _ _ (by omega)]

/-- A span that crosses it is the tail and then the head (41_ring_accessor.md R172, R173). -/
theorem ringRead_split {P : Params} (hP : P.ok = true) {m : Memory} {win : Bsb} {off : Word} {n : Nat}
    (h : ringTail P off < n) (hn : n ≤ P.window) :
    ringRead P m win off n = memRead m (chipAddr win (ringOff P off) 0) (ringTail P off) ++
      memRead m (chipAddr win 0 0) (n - ringTail P off) := by
  apply List.ext_getElem
  · simp only [length_ringRead, List.length_append, length_memRead]; omega
  intro i h1 h2
  simp only [length_ringRead] at h1
  by_cases hi : i < ringTail P off
  · rw [List.getElem_append_left (by simpa using hi)]
    simp only [ringRead, memRead, List.getElem_map, List.getElem_range, chipAddr_ringOff hP]
    rw [ringAddr_tail hP _ _ hi]
  · rw [List.getElem_append_right (by simpa using hi)]
    simp only [ringRead, memRead, List.getElem_map, List.getElem_range, List.length_map, List.length_range]
    rw [ringAddr_head hP _ _ (by omega) (by omega)]
    simp [chipAddr]

variable {p : Nat} {s : State}

/-- A ring read on a free bus: after at most `n + 12` turns its bytes are delivered, in one frame or
two (41_ring_accessor.md R172, R176, R180). -/
theorem ringRd_run {win : Bsb} {off : Word} {n : Nat} {k : RdCont} {empty : State → State} (h : Free p s)
    (hk : s.clocked = true) (hw : windowOk s.params win = true) (h1 : 1 ≤ n) (h2 : n ≤ s.params.window) :
    ∃ j seq e f, j ≤ n + 12 ∧ e.atRest ∧ turns p j (ringRd p win off n k empty s) =
      ringRdDone p k (ringRead s.params s.mem win off n)
        (ended p seq (ringRdFrames s.params win off (ringRead s.params s.mem win off n)) s.mem e f s) := by
  have hP := h.params
  obtain ⟨ho, hlt⟩ := ringOff_toNat hP off
  obtain ⟨hT, hT1, hTs⟩ := tailLen_ringOff hP off
  obtain ⟨hw1, hw2⟩ := Params.window_ok hP
  have hn : n ≠ 0 := by omega
  have hlen : lengthOk s.params n = true := by simpa [lengthOk] using h2
  by_cases hc : ringTail s.params off < n
  · obtain ⟨e, f, hr, ht⟩ := readCall_tame (bsb := win) (off := ringOff s.params off) (n := ringTail s.params off)
      (seq := .ringRdTail win (n - ringTail s.params off) k) h
      (xferArgsOk_of hP (by omega) (by omega) (by omega)) hk (wild_window hw (by omega))
    have hp' : (ended p (.ringRdTail win (n - ringTail s.params off) k)
        [readFrame s.params win (ringOff s.params off) (memRead s.mem (chipAddr win (ringOff s.params off) 0)
          (ringTail s.params off))] s.mem e f s).params = s.params := rfl
    obtain ⟨e', f', hr', ht'⟩ := readCall_tame (bsb := win) (off := 0) (n := n - ringTail s.params off)
      (seq := .ringRdHead (memRead s.mem (chipAddr win (ringOff s.params off) 0) (ringTail s.params off)) k)
      (h.ended (seq := .ringRdTail win (n - ringTail s.params off) k)
        (frs := [readFrame s.params win (ringOff s.params off) (memRead s.mem (chipAddr win (ringOff s.params off) 0)
          (ringTail s.params off))]) (m := s.mem) (f := f) hr)
      (xferArgsOk_of hP (by omega) (by omega) (by simp; omega)) hk (wild_window hw (by rw [hp']; simp; omega))
    refine ⟨(ringTail s.params off + 6) + (n - ringTail s.params off + 6),
      .ringRdHead (memRead s.mem (chipAddr win (ringOff s.params off) 0) (ringTail s.params off)) k, e', f', by omega, hr', ?_⟩
    have hs : ringRd p win off n k empty s = readCall p win (ringOff s.params off) (ringTail s.params off)
        (.ringRdTail win (n - ringTail s.params off) k) s := by
      simp [ringRd, h.en, hw, hlen, hn, crosses_ringOff hP, hc, hT]
    rw [turns_add, hs, ht]
    rw [proceed, ended_port _ _ _ _ _ _ _ h.port]
    simp only [ringRdHeadCall]
    rw [ht', proceed, ended_port _ _ _ _ _ _ _ (by rw [length_ended]; exact h.port)]
    simp only [ended_ended, ended_mem, ended_params]
    rw [← ringRead_split hP hc h2]
    have hne : (ringRead s.params s.mem win off n).length ≠ 0 := by simpa using hn
    have hcl : ringTail s.params off < (ringRead s.params s.mem win off n).length := by simpa using hc
    simp only [ringRdFrames, hne, hcl, if_true, if_false]
    rw [ringRead_split hP hc h2, List.take_left' (by simp), List.drop_left' (by simp)]
    simp
  · obtain ⟨e, f, hr, ht⟩ := readCall_tame (bsb := win) (off := ringOff s.params off) (n := n)
      (seq := .ringRdWhole k) h
      (xferArgsOk_of hP (by omega) (by omega) (by omega)) hk (wild_window hw (by omega))
    refine ⟨n + 6, .ringRdWhole k, e, f, by omega, hr, ?_⟩
    have hs : ringRd p win off n k empty s = readCall p win (ringOff s.params off) n (.ringRdWhole k) s := by
      simp [ringRd, h.en, hw, hlen, hn, crosses_ringOff hP, hc]
    rw [hs, ht, proceed, ended_port _ _ _ _ _ _ _ h.port]
    have hne : (ringRead s.params s.mem win off n).length ≠ 0 := by simpa using hn
    have hcl : ¬ ringTail s.params off < (ringRead s.params s.mem win off n).length := by simpa using hc
    simp only [ringRdFrames, hne, hcl, if_false]
    rw [ringRead_whole hP (Nat.not_lt.mp hc)]

/-- A ring write on a free bus (41_ring_accessor.md R172, R175, R180). -/
theorem ringWr_run {win : Bsb} {off : Word} {v : List Byte} {k : WrCont} {empty : State → State} (h : Free p s)
    (hk : s.clocked = true) (hw : windowOk s.params win = true) (h1 : 1 ≤ v.length) (h2 : v.length ≤ s.params.window) :
    ∃ j seq e f, j ≤ v.length + 12 ∧ e.atRest ∧ turns p j (ringWr p win off v k empty s) =
      ringWrDone p k (ended p seq (ringWrFrames s.params win off v) (ringWrite s.params s.mem win off v) e f s) := by
  have hP := h.params
  obtain ⟨ho, hlt⟩ := ringOff_toNat hP off
  obtain ⟨hT, hT1, hTs⟩ := tailLen_ringOff hP off
  obtain ⟨hw1, hw2⟩ := Params.window_ok hP
  have hn : v.length ≠ 0 := by omega
  have hlen : lengthOk s.params v.length = true := by simpa [lengthOk] using h2
  have h0 : chipAddr win 0 0 = win.toNat * Config.blockSize := by simp [chipAddr]
  by_cases hc : ringTail s.params off < v.length
  · have hl : (v.take (ringTail s.params off)).length = ringTail s.params off := by
      rw [List.length_take]; omega
    have hd : (v.drop (ringTail s.params off)).length = v.length - ringTail s.params off := List.length_drop
    obtain ⟨e, f, hr, ht⟩ := writeCall_tame (bsb := win) (off := ringOff s.params off)
      (v := v.take (ringTail s.params off)) (seq := .ringWrTail win (v.drop (ringTail s.params off)) k) h
      (xferArgsOk_of hP (by omega) (by omega) (by omega)) hk
      (wild_window hw (by rw [hl]; omega))
    obtain ⟨e', f', hr', ht'⟩ := writeCall_tame (bsb := win) (off := 0) (v := v.drop (ringTail s.params off))
      (seq := .ringWrHead k)
      (h.ended (seq := .ringWrTail win (v.drop (ringTail s.params off)) k)
        (frs := [writeFrame s.params win (ringOff s.params off) (v.take (ringTail s.params off))])
        (m := memWrite s.params s.mem (chipAddr win (ringOff s.params off) 0) (v.take (ringTail s.params off)))
        (f := f) hr)
      (xferArgsOk_of hP (by omega) (by omega) (by simp; omega)) hk (wild_window hw (by simp; omega))
    refine ⟨(v.take (ringTail s.params off)).length + 6 + ((v.drop (ringTail s.params off)).length + 6),
      .ringWrHead k, e', f', by rw [hl, hd]; omega, hr', ?_⟩
    have hs : ringWr p win off v k empty s = writeCall p win (ringOff s.params off) (v.take (ringTail s.params off))
        (.ringWrTail win (v.drop (ringTail s.params off)) k) s := by
      simp [ringWr, h.en, hw, hlen, hn, crosses_ringOff hP, hc, hT]
    rw [turns_add, hs, ht]
    rw [proceed, ended_port _ _ _ _ _ _ _ h.port]
    simp only [ringWrHeadCall]
    rw [ht', proceed, ended_port _ _ _ _ _ _ _ (by rw [length_ended]; exact h.port)]
    simp only [ended_ended, ended_mem, ended_params, ringWrFrames, ringWrite, hn, hc, if_true, if_false,
      chipAddr_ringOff hP, h0]
    rfl
  · obtain ⟨e, f, hr, ht⟩ := writeCall_tame (bsb := win) (off := ringOff s.params off) (v := v)
      (seq := .ringWrWhole k) h
      (xferArgsOk_of hP (by omega) (by omega) (by omega)) hk (wild_window hw (by omega))
    refine ⟨v.length + 6, .ringWrWhole k, e, f, by omega, hr, ?_⟩
    have hs : ringWr p win off v k empty s = writeCall p win (ringOff s.params off) v (.ringWrWhole k) s := by
      simp [ringWr, h.en, hw, hlen, hn, crosses_ringOff hP, hc]
    rw [hs, ht, proceed, ended_port _ _ _ _ _ _ _ h.port]
    simp only [ringWrFrames, ringWrite, hn, hc, if_false, chipAddr_ringOff hP]

/-- The double read of a size register on a quiet chip: at most 16 turns, two read frames that agree
(42_size_query.md R191). -/
theorem size_run {reg : Word} {r : Nat} {k : SizeCont} (h : Free p s) (hk : s.clocked = true)
    (hr : reg.toNat + 2 ≤ 65536) :
    let v := memRead s.mem (chipAddr s.params.bsbS0Reg reg 0) s.params.sizeLen
    ∃ j seq e f, j ≤ 16 ∧ e.atRest ∧ turns p j (sizeStart p reg r k s) =
      sizeDone p k (numOf v)
        (ended p seq (List.replicate 2 (readFrame s.params s.params.bsbS0Reg reg v)) s.mem e f s) := by
  intro v
  obtain ⟨-, ⟨hs1, hs2⟩, -⟩ := Params.lengths_ok h.params
  have ha : xferArgsOk s.params reg s.params.sizeLen = true :=
    xferArgsOk_of h.params hs1 (by omega) (by omega)
  obtain ⟨e, f, hre, ht⟩ := readCall_tame (bsb := s.params.bsbS0Reg) (seq := .sizeFirst reg r k) h ha
    hk (wild_s0Reg h.params _ _).1
  obtain ⟨e', f', hre', ht'⟩ := readCall_tame (bsb := s.params.bsbS0Reg) (seq := .sizeSecond reg v r k)
    (h.ended (seq := .sizeFirst reg r k) (frs := [readFrame s.params s.params.bsbS0Reg reg v])
      (m := s.mem) (f := f) hre) ha hk (wild_s0Reg h.params _ _).1
  refine ⟨(s.params.sizeLen + 6) + (s.params.sizeLen + 6), .sizeSecond reg v r k, e', f', by omega, hre', ?_⟩
  rw [turns_add, sizeStart, ht, proceed, ended_port _ _ _ _ _ _ _ h.port]
  simp only [sizeSecondCall, ended_params]
  rw [ht', proceed, ended_port _ _ _ _ _ _ _ (by rw [length_ended]; exact h.port)]
  simp only [ended_ended, ended_mem, if_true, v]
  rfl

/-- The command register of M0 reads zero after a command byte (20_memory.md R73). -/
theorem chipStore_read_cr {P : Params} (hP : P.regCr ≠ P.regIr) (m : Memory) (v : Byte) :
    (chipStore P m (chipAddr P.bsbS0Reg P.regCr 0) v).read (chipAddr P.bsbS0Reg P.regCr 0) = 0 := by
  have hne : chipAddr P.bsbS0Reg P.regCr 0 ≠ chipAddr P.bsbS0Reg P.regIr 0 := by
    intro h; apply hP; apply BitVec.eq_of_toNat_eq; simp only [chipAddr] at h; omega
  simp only [chipStore, if_true]
  split
  · rw [Memory.read_set_other _ _ hne, Memory.read_set_same]
  · rw [Memory.read_set_same]

/-- The socket command on a chip that accepts at once: 14 turns, the write and one poll
(43_fifo_sequences.md R211). -/
theorem cmd_run {code : Byte} {tmo : Nat} {k : CmdCont} (h : Free p s) (hk : s.clocked = true) :
    ∃ seq e f, e.atRest ∧ turns p 14 (cmdStart p code tmo k s) =
      cmdDone p k (ended p seq
        [readFrame s.params s.params.bsbS0Reg s.params.regCr [0],
          writeFrame s.params s.params.bsbS0Reg s.params.regCr [code]]
        (chipStore s.params s.mem (chipAddr s.params.bsbS0Reg s.params.regCr 0) code) e f s) := by
  have hP : s.params.regCr ≠ s.params.regIr := by
    have := h.params
    simp only [Params.ok, Bool.and_eq_true, decide_eq_true_eq] at this
    tauto
  have ha : xferArgsOk s.params s.params.regCr 1 = true :=
    xferArgsOk_of h.params (Nat.le_refl _) (by omega) (by have := s.params.regCr.isLt; omega)
  obtain ⟨e, f, hre, ht⟩ := writeCall_tame (bsb := s.params.bsbS0Reg) (off := s.params.regCr) (v := [code])
    (seq := .cmdWrite tmo k) h ha hk (wild_s0Reg h.params _ _).1
  obtain ⟨e', f', hre', ht'⟩ := readCall_tame (bsb := s.params.bsbS0Reg) (off := s.params.regCr) (n := 1)
    (seq := .cmdPoll 0 tmo k)
    (h.ended (seq := .cmdWrite tmo k) (frs := [writeFrame s.params s.params.bsbS0Reg s.params.regCr [code]])
      (m := chipStore s.params s.mem (chipAddr s.params.bsbS0Reg s.params.regCr 0) code) (f := f) hre) ha
    hk (wild_s0Reg h.params _ _).1
  refine ⟨.cmdPoll 0 tmo k, e', f', hre', ?_⟩
  have hm : memRead (chipStore s.params s.mem (chipAddr s.params.bsbS0Reg s.params.regCr 0) code)
      (chipAddr s.params.bsbS0Reg s.params.regCr 0) 1 = [0] := by
    simp only [memRead, List.range_one, List.map_cons, List.map_nil, Nat.add_zero]
    rw [chipStore_read_cr hP]
  rw [show (14 : Nat) = ([code].length + 6) + (1 + 6) from rfl, turns_add, cmdStart, ht, proceed,
    ended_port _ _ _ _ _ _ _ h.port]
  simp only [cmdPollCall, ended_params, memWrite]
  rw [ht', proceed, ended_port _ _ _ _ _ _ _ (by rw [length_ended]; exact h.port)]
  simp only [ended_ended, ended_mem, hm]
  simp

end Sys2Proof.Machine
end

