-- ==== Sys2Proof/Tests/Slice0.lean ====
section
/-! SUPPORT. The model's own tests. Expected results come from spec/95_test_vectors.md (the vector is
named beside each test) or from the rule cited; the last part gives, for each statement of
Certificates/Slice0/Obligations.lean that has hypotheses, a state and operands that meet them. -/

namespace Sys2Proof.Tests

open Sys2Proof Sys2Proof.Machine

/-! ### Well-formedness: an ill-formed term for each check -/

theorem test_wf_xfer_empty : Instr.wellFormed .default (.xferRd 1 0 0) = false := by decide
theorem test_wf_xfer_span : Instr.wellFormed .default (.xferWr 1 0x8000 0x8001) = false := by decide
theorem test_wf_xfer_last_byte : Instr.wellFormed .default (.xferWr 1 0xFFFF 1) = true := by decide
theorem test_wf_buf_window : Instr.wellFormed .default (.bufRd 1 0 4) = false := by decide
theorem test_wf_buf_length : Instr.wellFormed .default (.bufWr 2 0 16385) = false := by decide
theorem test_wf_buf_full : Instr.wellFormed .default (.bufWr 3 1 16384) = true := by decide
theorem test_wf_tx_empty : Instr.wellFormed .default (.txEnq 0) = false := by decide
theorem test_ok_default : Params.ok .default = true := by decide
theorem test_ok_fsr : Params.ok { Params.default with regTxFsr := 0xFFFF } = false := by decide
theorem test_ok_wr : Params.ok { Params.default with regTxWr := 0xFFFF } = false := by decide
theorem test_ok_rsr : Params.ok { Params.default with regRxRsr := 0xFFFF } = false := by decide
theorem test_ok_rd : Params.ok { Params.default with regRxRd := 0xFFFF } = false := by decide
theorem test_ok_cr_ir : Params.ok { Params.default with regIr := 0x0001 } = false := by decide
theorem test_ok_mask : Params.ok { Params.default with irSendOk := 0 } = false := by decide
theorem test_ok_window : Params.ok { Params.default with window := 1 } = false ∧
    Params.ok { Params.default with window := 65536 } = false := by decide
theorem test_ok_inline : Params.ok { Params.default with inlineMax := 5 } = false := by decide
theorem test_ok_blocks : Params.ok { Params.default with bsbS0Reg := 2 } = false ∧
    Params.ok { Params.default with bsbCommon := 3 } = false := by decide
theorem test_ok_lengths : Params.ok { Params.default with ptrW := 24 } = false ∧
    Params.ok { Params.default with sizeW := 0 } = false ∧ Params.ok { Params.default with hdrLen := 3 } = false ∧
    Params.ok { Params.default with minPayload := 2 } = false := by decide
theorem test_ok_ctrl : Params.ok { Params.default with ctrl := { CtrlLayout.default with om := 4 } } = false := by decide

/-- Another layout: direction in bit 7, block select in 4:0, `OM` = 11 in 6:5. -/
def otherLayout : CtrlLayout := { CtrlLayout.default with bsbPos := 0, rwbPos := 7, om := 0x60 }

/-- A layout with a block-select field of six bits, 7:2, and the direction in bit 1. -/
def wideLayout : CtrlLayout := { CtrlLayout.default with bsbW := 6, bsbPos := 2, rwbPos := 1 }

theorem test_layout_ok : otherLayout.ok = true ∧ CtrlLayout.default.ok = true ∧ wideLayout.ok = true := by decide
theorem test_layout_narrow : CtrlLayout.ok { CtrlLayout.default with bsbW := 4 } = false := by decide
theorem test_layout_beyond : CtrlLayout.ok { CtrlLayout.default with bsbPos := 4 } = false ∧
    CtrlLayout.ok { CtrlLayout.default with rwbPos := 8 } = false := by decide
theorem test_layout_widths : CtrlLayout.ok { CtrlLayout.default with offW := 15 } = false ∧
    CtrlLayout.ok { CtrlLayout.default with ctrlW := 16 } = false := by decide
theorem test_layout_overlap : CtrlLayout.ok { CtrlLayout.default with rwbPos := 3 } = false := by decide

/-! ### Decoding of words written out bit by bit from 30_encoding.md R101, R103, R109, R110 -/

/-- V1.13: OFF = 0x0026, BSB = 00001, RWB = 0, OM = 00. -/
theorem test_decode_wireRd : decodeWire .default 0b000000000010011000001000#24 = some (.wireRd 1 0x0026) := by decide
/-- V1.14: OFF = 0x0024, BSB = 00001, RWB = 1, OM = 00. -/
theorem test_decode_wireWr : decodeWire .default 0b000000000010010000001100#24 = some (.wireWr 1 0x0024) := by decide
/-- R113: a mode other than 00 is never produced. -/
theorem test_decode_wire_mode : decodeWire .default 0x002609#24 = none ∧ decodeWire .default 0x00260A#24 = none := by decide
/-- R101 with another layout: OFF = 0x0024, RWB = 1, OM = 11, BSB = 00001; and with OM = 00 refused. -/
theorem test_decode_wire_layout :
    decodeWire otherLayout 0b000000000010010011100001#24 = some (.wireWr 1 0x0024) ∧
    decodeWire otherLayout 0b000000000010010010000001#24 = none := by decide
/-- 00_scope.md R8 with `BSB_W` = 6: block select 31 is the last that is decoded (log 12). -/
theorem test_decode_wire_wide :
    decodeWire wideLayout 0b000000000010010001111100#24 = some (.wireRd 31 0x0024) ∧
    decodeWire wideLayout 0b000000000010010010000000#24 = none := by decide
/-- V1.11 in wire order: a header and one payload byte. -/
theorem test_decode_wire_bytes :
    decodeWireBytes .default [0x00, 0x39, 0x00, 0x00] = some (.wireRd 0 0x0039, [0x00]) := by decide
/-- V2.2: OPC = 00000001, BSB = 00001, 000, OFF = 0x0020, LEN = 2, AUX = 0. -/
theorem test_decode_xferRd :
    decodeCmd 0b0000000100001000000000000010000000000000000000100000000000000000#64 =
      some (.xferRd 1 0x0020 2) := by decide
/-- V2.1. -/
theorem test_decode_xferWr :
    decodeCmd 0b0000001000001000000000000010010000000000000000100000000000000000#64 =
      some (.xferWr 1 0x0024 2) := by decide
/-- V2.6. -/
theorem test_decode_bufRd :
    decodeCmd 0b0001000100011000011111111111111100000000000000110000000000000000#64 =
      some (.bufRd 3 0x7FFF 3) := by decide
/-- V2.5. -/
theorem test_decode_bufWr :
    decodeCmd 0b0001001000010000001111111111111000000000000001100000000000000000#64 =
      some (.bufWr 2 0x3FFE 6) := by decide
/-- V2.7. -/
theorem test_decode_getTxFree :
    decodeCmd 0b0010000100000000000000000000000000000000000000000000000000000000#64 = some .getTxFree := by
  decide
/-- V2.8. -/
theorem test_decode_getRxSize :
    decodeCmd 0b0010001000000000000000000000000000000000000000000000000000000000#64 = some .getRxSize := by
  decide
/-- V2.9. -/
theorem test_decode_sockCmd :
    decodeCmd 0b0011000000000000000000000000000000000000010000000000000001100100#64 =
      some (.sockCmd 0x40 100) := by decide
/-- V2.11. -/
theorem test_decode_txEnq :
    decodeCmd 0b0100000100000000000000000000000000000000000001100000000000000000#64 = some (.txEnq 6) := by
  decide
/-- V2.12. -/
theorem test_decode_rxDeq :
    decodeCmd 0b0100001000000000000000000000000000000000000000000000000000000000#64 = some .rxDeq := by decide
/-- V2.13 to V2.19: illegal descriptors. -/
theorem test_decode_illegal :
    [0x0300000000010000, 0x0101000000010000, 0x2100000000000001, 0x0108002000020001, 0x3000000001400064,
      0x4100000100060000, 0x0000000000000000].all (fun d => (decodeCmd d).isNone) = true := by decide
/-- The words of the table's numbering. -/
theorem test_decodeTableWord :
    decodeTableWord 24 0x00240C = some (.wireWr 1 0x0024) ∧
    decodeTableWord 64 0x12103FFE00060000 = some (.bufWr 2 0x3FFE 6) ∧
    decodeTableWord 64 0x0300000000010000 = none := by decide

/-! ### One step of each instruction -/

/-- The configuration of the vectors: `TXPOLL_LIVE` = 3, `TXPOLL_MAX` = 10, `MAX_FRAME` = 1518. -/
def cfg : Cfg where
  fsclk := 20
  en := true
  cfgErr := false
  lockTmo := 10
  cmdTmo := 100
  pollInt := 10
  txPollMax := 10
  txPollLive := 3
  maxFrame := 1518

/-- An enabled block at rest, with a chip that holds `m` and the moves `ev` listed. -/
def board (ev : List Event) (m : List Host.Cell) : State :=
  { State.reset with cfg := cfg, events := ev, mem := { Memory.empty with cells := m } }

/-- `k` turns of port 0. -/
def t0 (k : Nat) : Event := .env (.turn 0 k)

/-- Socket-0 register and window locations (20_memory.md R62, R64). -/
def reg (off : Nat) : Nat := 65536 + off
def txw (off : Nat) : Nat := 2 * 65536 + off
def rxw (off : Nat) : Nat := 3 * 65536 + off

/-- The bytes the master drives in a read and in a write frame of a socket-0 register (R101, R136, R137). -/
def rdS0 (off : Byte) (n : Nat) : List Byte := [0x00, off, 0x08] ++ List.replicate n 0x00
def wrS0 (off : Byte) (v : List Byte) : List Byte := [0x00, off, 0x0C] ++ v

/-- The next state, if there is one. -/
def ran : Host.Outcome State Fault Refusal → Option State
  | .next s => some s
  | _ => none

/-- The same board with a granted frame of port 0: count, payload. -/
def granted (n : Nat) (data : List Byte) (ev : List Event) (m : List Host.Cell) : State :=
  { board ev m with lock := ⟨true, 0⟩, eng := { Engine.reset with count := n, data := data } }

/-- The same board with port 0's `WBUF` filled. -/
def filled (w : List Byte) (ev : List Event) (m : List Host.Cell) : State :=
  { board ev m with ports := [{ Port.reset with wbuf := w }, .reset] }

/-- V1.13. -/
theorem test_wireRd :
    (ran (exec (.wireRd 1 0x0026) (granted 2 [] [t0 6] [(reg 0x26, 0x00), (reg 0x27, 0x42)]))).map
      (fun s => (s.trace, s.lock.held, s.eng.csn)) =
      some ([⟨[0x00, 0x26, 0x08, 0x00, 0x00], [0x00, 0x42], true⟩], false, true) := by decide
/-- V1.14. -/
theorem test_wireWr :
    (ran (exec (.wireWr 1 0x0024) (granted 2 [0x12, 0x34] [t0 6] []))).map (fun s => (s.trace, s.mem.cells)) =
      some ([⟨[0x00, 0x24, 0x0C, 0x12, 0x34], [], true⟩], [(reg 0x24, 0x12), (reg 0x25, 0x34)]) := by decide
/-- V4.1. -/
theorem test_xferRd :
    (ran (exec (.xferRd 1 0x0026 2) (board [t0 8] [(reg 0x26, 0x00), (reg 0x27, 0x42)]))).map
      (fun s => ((s.port 0).err, (s.port 0).rbuf, s.trace)) =
      some (.ok, [0x00, 0x42], [⟨[0x00, 0x26, 0x08, 0x00, 0x00], [0x00, 0x42], true⟩]) := by decide
/-- V4.3: five bytes, the streaming path. -/
theorem test_xferRd_streaming :
    (ran (exec (.xferRd 3 0 5) (board [t0 11]
      [(rxw 0, 1), (rxw 1, 2), (rxw 2, 3), (rxw 3, 4), (rxw 4, 5)]))).map
      (fun s => ((s.port 0).rbuf, s.eng.rxInline.toList)) = some ([1, 2, 3, 4, 5], [0, 0, 0, 0]) := by decide
/-- V4.6: the interrupt-status register is write one to clear. -/
theorem test_xferWr :
    (ran (exec (.xferWr 1 0x0002 1) (filled [0x10] [t0 7] [(reg 2, 0x14)]))).map
      (fun s => ((s.port 0).err, s.mem.cells, s.trace)) =
      some (.ok, [(reg 2, 0x04)], [⟨[0x00, 0x02, 0x0C, 0x10], [], true⟩]) := by decide
/-- V3.3. -/
theorem test_xferWr_empty :
    (ran (exec (.xferWr 1 0x0000 0) (board [t0 7] []))).map (fun s => ((s.port 0).err, s.trace)) =
      some (.invalidArgument, []) := by decide
/-- V5.9 as BUF.RD on the RX window. -/
theorem test_bufRd :
    (ran (exec (.bufRd 3 0xFFFF 4) (board [t0 16]
      [(rxw 0, 2), (rxw 1, 3), (rxw 2, 4), (rxw 0x3FFF, 1)]))).map
      (fun s => ((s.port 0).rbuf, s.trace.map (fun f => f.master))) =
      some ([1, 2, 3, 4], [[0x00, 0x00, 0x18, 0, 0, 0], [0x3F, 0xFF, 0x18, 0]]) := by decide +kernel
/-- V5.16. -/
theorem test_bufRd_window :
    (ran (exec (.bufRd 1 0 4) (board [t0 16] []))).map (fun s => ((s.port 0).err, s.trace)) =
      some (.invalidArgument, []) := by decide
/-- V5.9 as BUF.WR on the TX window. -/
theorem test_bufWr :
    (ran (exec (.bufWr 2 0xFFFF 4) (filled [1, 2, 3, 4] [t0 16] []))).map (fun s => (s.mem.cells, s.trace.map (fun f => f.master))) =
      some ([(txw 0, 2), (txw 1, 3), (txw 2, 4), (txw 0x3FFF, 1)],
        [[0x00, 0x00, 0x14, 2, 3, 4], [0x3F, 0xFF, 0x14, 1]]) := by decide +kernel
/-- V5.6: `o + LEN = WINDOW` is not a crossing. -/
theorem test_bufWr_edge :
    (ran (exec (.bufWr 2 0x3FFE 2) (filled [1, 2] [t0 8] []))).map (fun s => s.trace.map (fun f => f.master)) =
      some [[0x3F, 0xFE, 0x14, 1, 2]] := by decide
/-- V6.2: the first pair is torn. -/
theorem test_getTxFree :
    (ran (exec .getTxFree (board [t0 8, .env (.chip (reg 0x20) 0x3F), .env (.chip (reg 0x21) 0xF0), t0 24]
      [(reg 0x20, 0x40), (reg 0x21, 0x00)]))).map (fun s => ((s.port 0).result, s.trace.length)) =
      some (some 0x3FF0, 4) := by decide +kernel
/-- V6.4. -/
theorem test_getRxSize :
    (ran (exec .getRxSize (board [t0 16] [(reg 0x26, 0x00), (reg 0x27, 0x00)]))).map
      (fun s => ((s.port 0).err, (s.port 0).result, s.trace.length)) = some (.ok, some 0, 2) := by decide +kernel
/-- V7.1. -/
theorem test_sockCmd :
    (ran (exec (.sockCmd 0x40 100) (board [t0 14] []))).map
      (fun s => ((s.port 0).err, s.trace.map (fun f => f.master))) =
      some (.ok, [[0x00, 0x01, 0x08, 0x00], [0x00, 0x01, 0x0C, 0x40]]) := by decide +kernel
/-- V7.4: polls at 0, 10, 20, 30 ticks, then the timeout. -/
theorem test_sockCmd_timeout :
    (ran (exec (.sockCmd 0x20 25) (board [t0 7, .env (.chip (reg 1) 0x20), t0 61] []))).map
      (fun s => ((s.port 0).err, s.trace.length)) = some (.timeout, 5) := by decide +kernel
/-- P3, variant a. -/
theorem test_txEnq :
    (ran (exec (.txEnq 6) (filled [0xA0, 0xA1, 0xA2, 0xA3, 0xA4, 0xA5] [t0 78]
      [(reg 0x02, 0x00), (reg 0x20, 0x40), (reg 0x21, 0x00), (reg 0x24, 0xFF), (reg 0x25, 0xFE)]))).map
      (fun s => ((s.port 0).err, s.trace.map (fun f => f.master), s.mem.read (reg 2))) =
      some (.ok,
        [wrS0 0x02 [0x10], rdS0 0x02 1, rdS0 0x01 1, wrS0 0x01 [0x20], wrS0 0x24 [0x00, 0x04],
          [0x00, 0x00, 0x14, 0xA2, 0xA3, 0xA4, 0xA5], [0x3F, 0xFE, 0x14, 0xA0, 0xA1], rdS0 0x24 2, rdS0 0x20 2,
          rdS0 0x20 2], 0x00) := by decide +kernel
/-- V8.29: `IR_SENDOK` never set: 11 reads of `REG_IR`, 7 of `REG_PHYCFG`, `Timeout`. -/
theorem test_txEnq_timeout :
    (ran (exec (.txEnq 6) (board [t0 51, .env (.chip (reg 2) 0), t0 133]
      [(0x2E, 0), (reg 0x20, 0x40), (reg 0x21, 0x00), (reg 0x24, 0), (reg 0x25, 0)]))).map
      (fun s => ((s.port 0).err, (s.trace.countP (fun f => f.master.take 3 == [0x00, 0x02, 0x08]),
        s.trace.countP (fun f => f.master.take 3 == [0x00, 0x2E, 0x00])))) = some (.timeout, 11, 7) := by
  decide +kernel
/-- P2, first call. -/
theorem test_rxDeq :
    (ran (exec .rxDeq (board [t0 76]
      [(reg 0x26, 0x00), (reg 0x27, 0x0A), (reg 0x28, 0xBF), (reg 0x29, 0xFF), (rxw 0, 6), (rxw 1, 0xE1),
        (rxw 2, 0xE2), (rxw 3, 0xE3), (rxw 4, 0xE4), (rxw 0x3FFF, 0)]))).map
      (fun s => (((s.port 0).lenOut, (s.port 0).rbuf, s.more), s.trace.map (fun f => f.master.take 5))) =
      some ((some 4, [0xE1, 0xE2, 0xE3, 0xE4], true),
        [rdS0 0x01 1, wrS0 0x01 [0x40], wrS0 0x28 [0xC0, 0x05], [0x00, 0x01, 0x18, 0x00, 0x00],
          [0x00, 0x00, 0x18, 0x00], [0x3F, 0xFF, 0x18, 0x00], rdS0 0x28 2, rdS0 0x26 2, rdS0 0x26 2]) := by
  decide +kernel
/-- V8.16, with the header across the wrap: `CorruptHeader`, `MORE` = 0; the state is faulted, and the
step after it stops (93 U8). -/
theorem test_rxDeq_corrupt :
    (ran (exec .rxDeq (board [t0 38]
      [(reg 0x26, 0x00), (reg 0x27, 0x05), (reg 0x28, 0xBF), (reg 0x29, 0xFF), (rxw 0, 6), (rxw 0x3FFF, 0)]))).map
      (fun s => (((s.port 0).err, (s.port 0).lenOut, s.more, s.trace.length), s.faulted,
        (ran (step { s with events := [.write 19 0x4200000000000000] })).isNone)) =
      some ((.corruptHeader, none, false, 5), true, true) := by decide +kernel
/-- 60_exceptions.md R266, 93 U10: the wait after a poll that read non-zero may end at once. -/
theorem test_sockCmd_expire :
    (ran (exec (.sockCmd 0x20 25) (board [t0 7, .env (.chip (reg 1) 0x20), t0 7, .env (.expire 0)] []))).map
      (fun s => ((s.port 0).err, s.trace.length, s.events)) = some (.timeout, 2, []) := by decide +kernel
/-- 42_size_query.md R193 with `SIZE_RETRY_MAX` = 0: one pair, then an error. -/
theorem test_getTxFree_cap :
    (ran (exec .getTxFree { board [t0 8, .env (.chip (reg 0x21) 0xF0), t0 24] [(reg 0x20, 0x40), (reg 0x21, 0x00)] with
      params := { Params.default with sizeRetryMax := some 0 } })).map
      (fun s => ((s.port 0).busy, (s.port 0).result, s.trace.length)) = some (false, none, 2) := by decide +kernel
/-- 93 U3: a raw write past the end of a window leaves nothing known of it; 93 U2: so does a read of a
block that is not named. Other blocks keep their bytes. -/
theorem test_wild :
    (ran (exec (.xferWr 2 0x3FFF 2) (filled [1, 2] [t0 8] [(reg 2, 0x10), (txw 0, 9), (rxw 5, 7)]))).map
      (fun s => (s.mem.cells, s.mem.epochs.toList.take 3, s.trace.length)) =
      some ([(reg 2, 0x10), (rxw 5, 7)], [0, 0, 1], 1) ∧
    (ran (exec (.xferRd 5 0 1) (board [t0 7] [(5 * 65536, 9)]))).map (fun s => s.mem.cells) = some [] := by decide +kernel

/-! ### The rest of the machine -/

/-- 40_transport.md R139: the first bit is on `MOSI` when chip select becomes active, `BIT` = 7, and a
byte ends with the first bit of the next. The header is 0x80, 0x00, 0x0C, the payload 0xFF. -/
theorem test_mosi :
    let s := { granted 1 [0xFF] [] [] with eng := { Engine.reset with
      staged := some (header .default .wr 1 0x8000), count := 1, data := [0xFF] } }
    [1, 2, 3, 4, 5].map (fun k => ((turns 0 k s).eng.csn, (turns 0 k s).eng.mosi, (turns 0 k s).eng.bit.toNat)) =
      [(false, true, 7), (false, false, 7), (false, false, 7), (false, true, 7), (false, true, 0)] := by decide +kernel
/-- The third cycle of a byte, before its rising edge: bit 5 of 0x20 on `MOSI`, the slave's bits 7:6 of
0xC0 taken. -/
theorem test_cycles :
    let e := cycles 2 0xC0 (loadByte 0x20 Engine.reset)
    (e.bit, e.mosi, e.shi, e.sclk) = (5, true, 0xC0, false) := by decide

/-- P5: the gate refuses 12 MHz, accepts 20 MHz, and the operation then runs. -/
theorem test_enable :
    (ran (Host.Core.run core 6
      { State.reset with
        mem := { Memory.empty with cells := [(0x39, 4)] }
        events := [.write 19 0x0100003900010000, .write 0 12, .write 1 1, .write 0 20, .write 1 1,
          .write 19 0x0100003900010000, t0 7] })).map
      (fun s => (s.cfg.en, s.cfg.cfgErr, (s.port 0).err, (s.port 0).rbuf)) = some (true, false, .ok, [4]) := by
  decide +kernel
/-- 10_state.md R30, 40_transport.md R141: `FSCLK` takes any value; outside the valid range `EN` becomes 0
(log 11), and `CFGERR` stays. -/
theorem test_clock_write :
    (ran (step (board [.write 0 13] []))).map (fun s => (s.cfg.fsclk, s.cfg.en, s.cfg.cfgErr)) =
      some (13, false, false) ∧
    (ran (step (board [.write 0 25] []))).map (fun s => (s.cfg.fsclk, s.cfg.en)) = some (25, true) := by decide
/-- The form of 92 D12: the operation after such a write ends `InvalidArgument` and makes no frame. -/
theorem test_clock_write_then_operation :
    (ran (Host.Core.run core 2 (board [.write 0 26, .write 19 0x0100003900010000, t0 7] []))).map
      (fun s => ((s.port 0).err, s.trace)) = some (.invalidArgument, []) := by decide
/-- 93 U19: in a state that no run reaches, enabled at 13 MHz, an operation runs to its end; the chip's part
of it is open (log 11). -/
theorem test_clock_out_of_range :
    (ran (exec (.xferWr 1 0x0024 1) { filled [7] [t0 7] [(reg 2, 0x10)] with cfg := { cfg with fsclk := 13 } })).map
      (fun s => ((s.port 0).err, s.mem.cells, s.mem.epochs.toList.take 2, s.trace)) =
      some (.ok, [], [1, 1], [⟨[0x00, 0x24, 0x0C, 0x07], [], true⟩]) := by decide +kernel
/-- 20_memory.md R65: the most significant byte first. -/
theorem test_byte_order : numOf [0x12, 0x34] = 0x1234 ∧ bytesOf 2 0x1234 = [0x12, 0x34] ∧ numOf [0x34] = 0x34 := by
  decide
/-- P4, part a: with `LOCK_TMO` = 0 the second port times out at once, inside the first one's frame. -/
theorem test_lock_timeout :
    (ran (Host.Core.run core 2 { board [.write 19 0x0210000000030000, t0 6, .write 23 0x0108002600020000,
      .env (.turn 1 1), t0 20] [] with cfg := { cfg with lockTmo := 0 } })).map
      (fun s => ((s.port 1).err, (s.port 0).busy, s.eng.ph)) = some (.timeout, true, .data) := by decide +kernel
/-- A reset inside a write frame (10_state.md R37, R38): the cut location holds what the event says. -/
theorem test_reset_in_frame :
    (ran (Host.Core.run core 2 (board [.write 19 0x0210000000010000, t0 6, .reset [7]] []))).map
      (fun s => ((s.port 0).busy, s.eng.csn, s.mem.get (txw 0), s.trace.map (fun f => f.master.take 3))) =
      some (false, true, some 7, [[0x00, 0x00, 0x14]]) := by decide +kernel
/-- The same for a frame that is granted and not yet open, which has touched nothing. -/
theorem test_reset_granted :
    (ran (Host.Core.run core 2 (board [.write 19 0x0210000000010000, t0 1, .reset [7]] []))).map
      (fun s => ((s.port 0).busy, s.eng.staged.isSome, s.mem.cells, s.trace)) = some (false, false, [], []) := by
  decide +kernel
/-- V4.7: a failed frame. -/
theorem test_hardware_fault :
    (ran (step (board [.write 19 0x0108002600020000, t0 6, .env .fault] []))).map
      (fun s => ((s.port 0).err, (s.port 0).rbuf, s.lock.held, s.eng.csn)) =
      some (.hardwareFault, [], false, true) := by decide +kernel
/-- 10_state.md R30: `DEV.STATUS` while port 1 holds the lock; `PORT[0].STATUS` after a `Timeout`. -/
theorem test_status_reads :
    (ran (step { board [.read 8] [] with lock := ⟨true, 1⟩, more := true })).map (fun s => s.hostData) = some 0x13 ∧
    (ran (step { board [.read 16] [] with ports := [{ Port.reset with done := true, err := .timeout }] })).map
      (fun s => s.hostData) = some 0x6 := by decide
/-- 10_state.md R30: `CFG.CTRL` with `EN` and `CFGERR` set, `MAX_FRAME`; a read-only register ignores a write. -/
theorem test_config_reads :
    (ran (step { board [.read 1] [] with cfg := { cfg with cfgErr := true } })).map (fun s => s.hostData) = some 3 ∧
    (ran (step (board [.read 7] []))).map (fun s => s.hostData) = some 1518 ∧
    (ran (step (board [.write 16 0xFF] []))).map (fun s => s.ports) = some [.reset, .reset] := by decide
/-- The stops of register accesses (10_state.md R22, R30; 93 U6, U12; 70 R308). -/
theorem test_register_stops :
    ran (step (board [.read 19] [])) = none ∧ ran (step (board [.read 9] [])) = none ∧
    ran (step (board [.readBuf 0 0] [])) = none ∧
    ran (step { board [.read 17] [] with ports := [{ Port.reset with busy := true }] }) = none ∧
    ran (step { board [.fill 0 [1]] [] with ports := [{ Port.reset with busy := true }] }) = none := by decide
/-- A placed word is the next thing executed: at reset the block is disabled (P5, step 1). -/
theorem test_withFetchWord_cmd :
    (ran (step (State.reset.withFetchWord 64 0x0100003900010000))).map (fun s => ((s.port 0).err, s.trace)) =
      some (.invalidArgument, []) := by decide
theorem test_withFetchWord_wire :
    (ran (step (State.reset.withFetchWord 24 0x002608))).map (fun s => (s.eng.ph, s.eng.csn, s.eng.hdr)) =
      some (.hdr, false, 0x002608#24) := by decide

/-! ### For each statement with hypotheses, a state and operands that meet them -/

theorem board_ready (ev : List Event) (m : List Host.Cell) : (board ev m).ready :=
  ⟨Nat.succ_pos _, rfl, rfl, rfl, rfl, rfl, rfl⟩

theorem board_listening (ev : List Event) (m : List Host.Cell) : (board ev m).listening := ⟨rfl, rfl⟩

/-- Port 0 with these registers, port 1 at rest. -/
def withPort (q : Port) (ev : List Event) (m : List Host.Cell) : State := { board ev m with ports := [q, .reset] }

def busyPort : Port := { Port.reset with busy := true }

/-- A chip with two frames' worth of parameters: size, pointer and header bytes of the RX side. -/
def rxChip (rsr hv : Byte) : List Host.Cell :=
  [(reg 0x26, 0), (reg 0x27, rsr), (reg 0x28, 0), (reg 0x29, 0), (rxw 0, 0), (rxw 1, hv)]

/-- The same for the TX side: free size and pointer. -/
def txChip (hi lo : Byte) : List Host.Cell := [(reg 0x20, hi), (reg 0x21, lo), (reg 0x24, 0), (reg 0x25, 0)]

/-- A write frame of port 0 in its last payload byte. -/
def inData : State :=
  { granted 1 [0x20] [] [] with
    eng := { Engine.reset with ph := .data, csn := false, dir := .wr, bsb := 1, off := 1, count := 1, data := [0x20] } }

/-- A frame header staged by the grant of port 0's call. -/
def stagedBoard (h : Header) (ev : List Event) : State :=
  { granted 1 [] ev [] with eng := { Engine.reset with staged := some h, count := 1 } }

/-- Both layouts meet the premise of the encoding statements. -/
theorem test_witness_Layouts :
    (∃ L w i, L.ok = true ∧ decode L w = some i ∧ L = .default) ∧
    (∃ w i, otherLayout.ok = true ∧ decode otherLayout w = some i) :=
  ⟨⟨.default, .wire 0x002608#24, .wireRd 1 0x0026, by decide, by decide, rfl⟩,
    ⟨.wire 0x0024E1#24, .wireWr 1 0x0024, by decide, by decide⟩⟩

theorem test_witness_HeaderWithOtherMode :
    (0x002609#24 &&& 0x000003#24 ≠ 0 ∧ 0x00260A#24 &&& 0x000003#24 ≠ 0 ∧ 0xFFFFFF#24 &&& 0x000003#24 ≠ 0) ∧
    (CtrlLayout.default.ctrlBits 0x002609#24 &&& ~~~CtrlLayout.default.fields ≠ CtrlLayout.default.om ∧
      otherLayout.ctrlBits 0x002601#24 &&& ~~~otherLayout.fields ≠ otherLayout.om ∧
      wideLayout.ctrlBits 0x002480#24 &&& ~~~wideLayout.fields ≠ wideLayout.om) ∧
    ∃ s : State, s.faulted = false ∧ s.cutNext = false ∧ s.params.ctrl = .default ∧ s.eng.staged = some 0x002609#24 :=
  ⟨by decide, by decide, stagedBoard 0x002609#24 [t0 1], rfl, rfl, rfl, rfl⟩

/-- No frame, a frame that is granted and not yet open, and a frame in progress. -/
theorem test_witness_ResetInput :
    (∃ s : State, s.faulted = false ∧ s.events = .reset [] :: [] ∧ s.eng.ph = .idle ∧ s.eng.staged = none) ∧
    (∃ s : State, s.faulted = false ∧ s.events = .reset [] :: [] ∧ s.eng.ph = .idle ∧ s.eng.staged ≠ none) ∧
    (∃ s : State, s.faulted = false ∧ s.events = .reset [7] :: [] ∧ s.eng.ph ≠ .idle ∧
      chipAddr s.eng.bsb s.eng.off 0 + s.eng.count ≤ reg 2) :=
  ⟨⟨board [.reset []] [], rfl, rfl, rfl, rfl⟩, ⟨stagedBoard 0x002608#24 [.reset []], rfl, rfl, rfl, nofun⟩,
    ⟨{ inData with events := [.reset [7]] }, rfl, rfl, by decide, by decide⟩⟩

theorem test_witness_StepExecutesTheDescriptorWritten :
    (∃ s : State, s.listening ∧ s.events = .write (19 + 4 * 0) 0x4200000000000000 :: [] ∧
      decodeCmd 0x4200000000000000 = some .rxDeq) ∧
    (∃ s : State, s.listening ∧ s.events = .write (19 + 4 * 1) 0x4200000000000000 :: []) :=
  ⟨⟨board [.write 19 0x4200000000000000] [], board_listening _ _, rfl, by decide⟩,
    ⟨board [.write 23 0x4200000000000000] [], board_listening _ _, rfl⟩⟩

theorem test_witness_StepExecutesTheStagedFrame :
    ∃ (s : State) (h : Header), s.faulted = false ∧ s.cutNext = false ∧ s.eng.staged = some h ∧
      decodeWire s.params.ctrl h = some (.wireRd 1 0x0026) :=
  ⟨stagedBoard 0x002608#24 [.write 19 0], _, rfl, rfl, rfl, by decide⟩

theorem test_witness_IllegalDescriptor :
    ∃ s : State, s.listening ∧ s.events = .write (19 + 4 * 1) 0 :: [] ∧ decodeCmd 0 = none ∧
      1 < s.ports.length ∧ (s.port 1).busy = false :=
  ⟨board [.write 23 0] [], board_listening _ _, rfl, by decide, by decide, rfl⟩

/-- A busy port, and the first port that does not exist. -/
theorem test_witness_DescriptorToABusyPort :
    (∃ s : State, s.listening ∧ s.events = .write (19 + 4 * 0) 0 :: [] ∧ 0 < s.ports.length ∧
      (s.port 0).busy = true) ∧
    (∃ s : State, s.listening ∧ s.events = .write (19 + 4 * 2) 0 :: [] ∧ s.ports.length ≤ 2) :=
  ⟨⟨withPort busyPort [.write 19 0] [], ⟨rfl, rfl⟩, rfl, by decide, rfl⟩,
    ⟨board [.write 27 0] [], board_listening _ _, rfl, by decide⟩⟩

/-- The gate at 14, 25, 13 and 26 MHz, the write of 0 while busy, and the disabled block. -/
theorem test_witness_ClockGate :
    (∀ f ∈ [14, 25, 13, 26], ∃ s : State, s.listening ∧ s.events = .write 1 1 :: [] ∧
      s.cfg.fsclk.toNat = f ∧ s.params.fMin = 14 ∧ s.params.fMax = 25 ∧ s.cfg.en = false) ∧
    (1#64).getLsbD 0 = true ∧
    (∃ s : State, s.listening ∧ s.events = .write 1 0 :: [] ∧ ∃ q ∈ s.ports, q.busy = true) ∧
    (∃ s : State, s.sel < s.ports.length ∧ (s.port s.sel).busy = false ∧ s.cfg.en = false ∧
      encode s.params.ctrl .rxDeq = .cmd 0x4200000000000000) := by
  refine ⟨?_, by decide, ⟨withPort busyPort [.write 1 0] [], ⟨rfl, rfl⟩, rfl, busyPort, by decide, rfl⟩,
    ⟨State.reset, by decide, rfl, rfl, by decide⟩⟩
  intro f hf
  refine ⟨{ State.reset with cfg := { Cfg.reset with fsclk := BitVec.ofNat 8 f }, events := [.write 1 1] }, ⟨rfl, rfl⟩,
    rfl, ?_, rfl, rfl, rfl⟩
  simp only [List.mem_cons, List.not_mem_nil, or_false] at hf
  rcases hf with rfl | rfl | rfl | rfl <;> rfl

theorem test_witness_DisableWhileIdle :
    ∃ s : State, s.listening ∧ s.events = .write 1 0 :: [] ∧ ∀ q ∈ s.ports, q.busy = false :=
  ⟨board [.write 1 0] [], board_listening _ _, rfl, by decide⟩

/-- Each register while a port is busy and while none is. -/
theorem test_witness_ConfigurationWrites :
    ∀ n ∈ [0, 2, 3, 4, 5, 6, 7], (n ≤ 7 ∧ n ≠ 1) ∧
      (∃ s : State, s.listening ∧ s.events = .write n 9 :: [] ∧ ∃ q ∈ s.ports, q.busy = true) ∧
      (∃ s : State, s.listening ∧ s.events = .write n 9 :: [] ∧ ∀ q ∈ s.ports, q.busy = false) := by
  intro n hn
  have idle : ∀ q ∈ State.reset.ports, q.busy = false := by decide
  refine ⟨?_, ⟨withPort busyPort [.write n 9] [], ⟨rfl, rfl⟩, rfl, busyPort, .head _, rfl⟩,
    ⟨{ State.reset with events := [.write n 9] }, ⟨rfl, rfl⟩, rfl, idle⟩⟩
  revert n; decide

/-- `FSCLK` at 13, 14, 25 and 26 MHz while enabled. -/
theorem test_witness_ClockWrites :
    ∀ v ∈ [13#64, 14#64, 25#64, 26#64], ∃ s : State, s.listening ∧ s.events = .write 0 v :: [] ∧ s.cfg.en = true ∧
      (∀ q ∈ s.ports, q.busy = false) ∧ s.params.fMin = 14 ∧ s.params.fMax = 25 := by
  intro v _
  have idle : ∀ q ∈ State.reset.ports, q.busy = false := by decide
  exact ⟨board [.write 0 v] [], board_listening _ _, rfl, rfl, idle, rfl, rfl⟩

/-- The ignored registers 8, 16 to 18 and 20 to 22, and the registers 9, 15, 24 and 26 that do not exist. -/
theorem test_witness_IgnoredWrites :
    (∀ n ∈ [8, 16, 17, 18, 20, 21, 22, 9, 15, 24, 26], ∃ s : State, s.listening ∧ s.events = .write n 9 :: [] ∧
      s.ports.length = 2) ∧
    ((∃ p < 2, 22 = 18 + 4 * p) ∧ ∃ p, 2 ≤ p ∧ 24 = 16 + 4 * p) :=
  ⟨fun n _ => ⟨board [.write n 9] [], board_listening _ _, rfl, rfl⟩, ⟨1, by decide, rfl⟩, 2, Nat.le_refl _, rfl⟩

/-- Registers 0 to 7, `DEV.STATUS` with the lock held, and the status of the last port. -/
theorem test_witness_StatusRegisterReads :
    (∀ n ≤ 7, ∃ s : State, s.listening ∧ s.events = .read n :: []) ∧
    (∃ s : State, s.listening ∧ s.events = .read 8 :: [] ∧ s.lock.held = true) ∧
    (∃ s : State, s.listening ∧ s.events = .read (16 + 4 * 1) :: [] ∧ 1 < s.ports.length) :=
  ⟨fun n _ => ⟨board [.read n] [], board_listening _ _, rfl⟩,
    ⟨{ board [.read 8] [] with lock := ⟨true, 1⟩ }, ⟨rfl, rfl⟩, rfl, rfl⟩,
    ⟨board [.read 20] [], board_listening _ _, rfl, by decide⟩⟩

/-- The three cases of each of the three reads: busy, no value, a value; and the reads that stop. -/
theorem test_witness_ResultReads :
    (∀ ev ∈ [Event.read (17 + 4 * 0), .read (18 + 4 * 0), .readBuf 0 0],
      (∃ s : State, s.listening ∧ 0 < s.ports.length ∧ s.events = ev :: [] ∧ (s.port 0).busy = true) ∧
      (∃ s : State, s.listening ∧ s.events = ev :: [] ∧ (s.port 0).busy = false ∧
        (s.port 0).result = none ∧ (s.port 0).lenOut = none ∧ (s.port 0).rbuf.length ≤ 0) ∧
      (∃ s : State, s.listening ∧ s.events = ev :: [] ∧ (s.port 0).busy = false ∧
        (s.port 0).result = some 5 ∧ (s.port 0).lenOut = some 6 ∧ (s.port 0).rbuf[0]? = some 7)) ∧
    (∃ s : State, s.listening ∧ 1 < s.ports.length ∧ s.events = .read (19 + 4 * 1) :: []) ∧
    (∀ n ∈ [9, 15, 24], ∃ s : State, s.listening ∧ s.events = .read n :: [] ∧ s.ports.length = 2) ∧
    (∃ s : State, s.listening ∧ s.events = .readBuf 2 0 :: [] ∧ s.ports.length ≤ 2) :=
  ⟨fun ev _ => ⟨⟨withPort busyPort [ev] [], ⟨rfl, rfl⟩, Nat.succ_pos _, rfl, rfl⟩,
    ⟨withPort { Port.reset with result := none, lenOut := none } [ev] [], ⟨rfl, rfl⟩, rfl, rfl, rfl, rfl, Nat.le_refl _⟩,
    ⟨withPort { Port.reset with result := some 5, lenOut := some 6, rbuf := [7] } [ev] [], ⟨rfl, rfl⟩, rfl, rfl, rfl, rfl,
      rfl⟩⟩, ⟨board [.read 23] [], board_listening _ _, by decide, rfl⟩,
    fun n _ => ⟨board [.read n] [], board_listening _ _, rfl, rfl⟩,
    ⟨board [.readBuf 2 0] [], board_listening _ _, rfl, Nat.le_refl _⟩⟩

theorem test_witness_WbufIsWrittenOnlyWhileIdle :
    (∃ s : State, s.listening ∧ s.events = .fill 0 [1] :: [] ∧ 0 < s.ports.length ∧ (s.port 0).busy = true) ∧
    (∃ s : State, s.listening ∧ s.events = .fill 1 [1] :: [] ∧ 1 < s.ports.length ∧ (s.port 1).busy = false) ∧
    (∃ s : State, s.listening ∧ s.events = .fill 2 [1] :: [] ∧ s.ports.length ≤ 2) :=
  ⟨⟨withPort busyPort [.fill 0 [1]] [], ⟨rfl, rfl⟩, rfl, by decide, rfl⟩,
    ⟨board [.fill 1 [1]] [], board_listening _ _, rfl, by decide, rfl⟩,
    ⟨board [.fill 2 [1]] [], board_listening _ _, rfl, by decide⟩⟩

/-- The same state with the clock just below its valid range. -/
def slow (s : State) : State := { s with cfg := { s.cfg with fsclk := 13 } }

/-- One byte at the last offset, and the largest frame; a frame whose answer the spec gives (in a register
block, and up to the end of a window) and one whose answer it leaves open (one byte further); in the valid
range of the clock and outside it. -/
theorem test_witness_WireRdCarriesAReadFrame :
    (∃ s : State, s.clocked = true ∧ s.params.ok = true ∧ s.lock.held = true ∧ s.eng.ph = .idle ∧ s.eng.count = 1 ∧
      (0xFFFF#16).toNat + 1 ≤ 65536 ∧ s.events = .env (.turn s.lock.owner (1 + 4)) :: []) ∧
    (∃ s : State, s.clocked = false ∧ s.params.ok = true ∧ s.lock.held = true ∧ s.eng.ph = .idle ∧ s.eng.count = 65535 ∧
      (1#16).toNat + 65535 ≤ 65536 ∧ s.events = .env (.turn s.lock.owner (65535 + 4)) :: []) ∧
    wild .default 1 0xFFFF 1 = false ∧ wild .default 2 0x3FFF 1 = false ∧ wild .default 2 0x3FFF 2 = true ∧
    wild .default 4 0 1 = true :=
  ⟨⟨granted 1 [] [t0 5] [], by decide, by decide, rfl, rfl, rfl, by decide, rfl⟩,
    ⟨slow (granted 65535 [] [t0 65539] []), by decide, by decide, rfl, rfl, rfl, by decide, rfl⟩, by decide, by decide,
    by decide, by decide⟩

/-- Inside and outside the valid range of the clock. -/
theorem test_witness_WireWrCarriesAWriteFrame :
    ∀ c ∈ [true, false], (∃ (s : State) (v : List Byte), s.clocked = c ∧ s.params.ok = true ∧ s.lock.held = true ∧ s.eng.ph = .idle ∧ s.eng.data = v ∧
      s.eng.count = v.length ∧ 1 ≤ v.length ∧ v.length ≤ 65535 ∧ (0xFFFE#16).toNat + v.length ≤ 65536 ∧
      s.events = .env (.turn s.lock.owner (v.length + 4)) :: []) := by
  intro c _
  cases c
  · exact ⟨slow (granted 2 [0x12, 0x34] [t0 6] []), [0x12, 0x34], by decide, by decide, rfl, rfl, rfl, rfl, by decide,
      by decide, by decide, rfl⟩
  · exact ⟨granted 2 [0x12, 0x34] [t0 6] [], [0x12, 0x34], by decide, by decide, rfl, rfl, rfl, rfl, by decide, by decide,
      by decide, rfl⟩

theorem test_witness_FrameStopsByName :
    (∃ s : State, s.lock.held = false) ∧ (∃ s : State, s.lock.held = true ∧ s.eng.ph ≠ .idle) ∧
    (∀ n ∈ [0, 65536], ∃ s : State, s.lock.held = true ∧ s.eng.ph = .idle ∧ s.eng.count = n) ∧
    (∃ s : State, s.lock.held = true ∧ s.eng.ph = .idle ∧ 65536 < (0xFFFF#16).toNat + s.eng.count) ∧
    (∃ s : State, s.lock.held = true ∧ s.eng.ph = .idle ∧ s.eng.count = 1 ∧ s.eng.count < s.params.minPayload) :=
  ⟨⟨board [] [], rfl⟩, ⟨inData, rfl, by decide⟩, fun n _ => ⟨granted n [] [] [], rfl, rfl, rfl⟩,
    ⟨granted 2 [] [] [], rfl, rfl, by decide⟩,
    ⟨{ granted 1 [] [] [] with params := { Params.default with minPayload := 2 } }, rfl, rfl, rfl, by decide⟩⟩

/-- A turn after which there is a next byte. -/
theorem test_witness_EightCycles :
    ∃ s : State, s.params.ctrl.ok = true ∧ headerTurn s ∈ [headerTurn s, readTurn s, writeTurn s] ∧
      outByte (headerTurn s).eng = some 0x26 := by
  refine ⟨{ granted 1 [] [] [] with eng := { Engine.reset with ph := .hdr, hdr := 0x002608#24, count := 1 } }, by decide,
    .head _, ?_⟩
  decide +kernel

/-- For XFER.RD and XFER.WR: one byte at the last offset (V3.1), and `LEN` = 65535 from offset 1
(V3.5), this one outside the valid range of the clock. -/
theorem test_witness_Xfer :
    (∃ s : State, s.clocked = true ∧ s.ready ∧ s.params.ok = true ∧ (1#16) ≠ 0 ∧ (0xFFFF#16).toNat + (1#16).toNat ≤ 65536 ∧
      s.events = .env (.turn s.sel 7) :: [] ∧ (1#16).toNat + 6 ≤ 7) ∧
    (∃ s : State, s.clocked = false ∧ s.ready ∧ s.params.ok = true ∧ (1#16).toNat + (0xFFFF#16).toNat ≤ 65536 ∧
      s.events = .env (.turn s.sel 65541) :: [] ∧ (0xFFFF#16).toNat + 6 ≤ 65541) :=
  ⟨⟨board [t0 7] [], by decide, board_ready _ _, by decide, by decide, by decide, rfl, by decide⟩,
    ⟨slow (board [t0 65541] []), by decide, board_ready [t0 65541] [], by decide, by decide, rfl, by decide⟩⟩

/-- V3.3, V3.6 and the disabled block; and V3.5, on an enabled one with nothing listed. -/
theorem test_witness_TransportArgumentChecks :
    (∃ s : State, s.sel < s.ports.length ∧ (s.port s.sel).busy = false ∧ s.cfg.en = false) ∧
    65536 < (2#16).toNat + (0xFFFF#16).toNat ∧
    (∃ s : State, s.sel < s.ports.length ∧ (s.port s.sel).busy = false ∧ s.cfg.en = true ∧ (0xFFFF#16) ≠ 0 ∧
      s.params.minPayload ≤ (0xFFFF#16).toNat ∧ (1#16).toNat + (0xFFFF#16).toNat ≤ 65536 ∧ s.events = []) ∧
    (∃ s : State, s.sel < s.ports.length ∧ (s.port s.sel).busy = false ∧ (1#16).toNat < s.params.minPayload) :=
  ⟨⟨State.reset, by decide, rfl, rfl⟩, by decide, ⟨board [] [], by decide, rfl, rfl, by decide, by decide, by decide, rfl⟩,
    ⟨{ board [] [] with params := { Params.default with minPayload := 2 } }, by decide, rfl, by decide⟩⟩

/-- The lock free, held with the wait at its bound, and held with the wait one below it. -/
theorem test_witness_LockTick :
    ((board [] []).cfg.en = true ∧ xferArgsOk Params.default 0xFFFF 1 = true) ∧
    (∃ (s : State) (c : Call), 0 < s.ports.length ∧ (s.port 0).act = .asking c ∧ s.lock.held = false) ∧
    (∀ w ∈ [10, 9], ∃ (s : State) (c : Call), 0 < s.ports.length ∧ (s.port 0).act = .asking c ∧ s.lock.held = true ∧
      s.lock.owner ≠ 0 ∧ (s.port 0).lockWait = w ∧ s.cfg.lockTmo.toNat = 10) :=
  ⟨by decide, ⟨withPort { busyPort with act := .asking ⟨.rd, 1, 0x26, 2, []⟩ } [] [], _, by decide, rfl, rfl⟩,
    fun w _ => ⟨{ withPort { busyPort with act := .asking ⟨.rd, 1, 0x26, 2, []⟩, lockWait := w } [] [] with
      lock := ⟨true, 1⟩ }, _, Nat.succ_pos _, rfl, rfl, Nat.one_ne_zero, rfl, rfl⟩⟩

/-- XFER.RD, and RX.DEQ, which clears `MORE`; a bound of ten ticks. -/
theorem test_witness_LockTimeout :
    ∃ s : State, encode s.params.ctrl (.xferRd 1 0x26 2) = .cmd 0x0108002600020000 ∧
      (Instr.xferRd 1 0x26 2).wellFormed s.params = true ∧ encode s.params.ctrl .rxDeq = .cmd 0x4200000000000000 ∧
      Instr.rxDeq.wellFormed s.params = true ∧ s.params.ok = true ∧ s.sel < s.ports.length ∧
      (s.port s.sel).busy = false ∧ s.cfg.en = true ∧ s.lock.held = true ∧ s.lock.owner ≠ s.sel ∧
      s.events = .env (.turn s.sel 11) :: [] ∧ s.cfg.lockTmo.toNat + 1 ≤ 11 :=
  ⟨{ board [t0 11] [] with lock := ⟨true, 1⟩ }, by decide, by decide, by decide, by decide, by decide, by decide, rfl,
    rfl, rfl, by decide, rfl, by decide⟩

/-- A frame in progress, and a frame that is granted and not yet open. -/
theorem test_witness_FailedFrame :
    (∃ s : State, s.faulted = false ∧ s.lock.held = true ∧ s.lock.owner < s.ports.length ∧
      (s.port s.lock.owner).seq ≠ .none ∧ s.events = .env .fault :: [] ∧ s.eng.ph ≠ .idle) ∧
    (∃ s : State, s.faulted = false ∧ s.lock.held = true ∧ s.lock.owner < s.ports.length ∧
      (s.port s.lock.owner).seq ≠ .none ∧ s.events = .env .fault :: [] ∧ s.eng.ph = .idle ∧ s.eng.staged ≠ none) :=
  ⟨⟨{ inData with ports := [{ busyPort with seq := .xferWr }], events := [.env .fault] }, rfl, rfl, by decide,
      by decide, rfl, by decide⟩,
    ⟨{ stagedBoard 0x002608#24 [.env .fault] with ports := [{ busyPort with seq := .xferRd }] }, rfl, rfl, by decide,
      by decide, rfl, rfl, nofun⟩⟩

theorem test_witness_OneFramePerLockHolding :
    (∃ s : State, s.lock.held = true ∧ s.lock.owner = 0 ∧ s.eng.ph = .finish) ∧
    (∃ s : State, ¬ (s.lock.held = true ∧ s.lock.owner = 0 ∧ s.eng.ph = .finish) ∧ s.lock.held = true) :=
  ⟨⟨{ granted 1 [] [] [] with eng := { Engine.reset with ph := .finish, count := 1 } }, rfl, rfl, rfl⟩,
    ⟨granted 1 [] [] [], by decide, rfl⟩⟩

/-- V5.1 and V5.3: the shortest and the longest span, without and with a crossing; and the narrowest
window. -/
theorem test_witness_RingSplit :
    Params.default.ok = true ∧ Params.ok { Params.default with window := 2 } = true ∧
    (1 ≤ 1 ∧ 1 ≤ Params.default.window) ∧ crosses .default (ringOff .default 0) 16384 = false ∧
    crosses .default (ringOff .default 1) 16384 = true := by decide

/-- The disabled block, V5.16, V5.15, and V5.14. -/
theorem test_witness_RingArgumentChecks :
    (∃ s : State, s.sel < s.ports.length ∧ (s.port s.sel).busy = false ∧ s.cfg.en = false) ∧
    (∃ s : State, s.sel < s.ports.length ∧ (s.port s.sel).busy = false ∧ s.cfg.en = true ∧
      (1#5 ≠ s.params.bsbS0Tx ∧ 1#5 ≠ s.params.bsbS0Rx) ∧ 3#5 = s.params.bsbS0Rx ∧
      s.params.window < (16385#16).toNat) :=
  ⟨⟨State.reset, by decide, rfl, rfl⟩, ⟨board [] [], by decide, rfl, rfl, by decide, rfl, by decide⟩⟩

/-- For BUF.RD and BUF.WR: one byte of either window, and a whole window. -/
theorem test_witness_Buf :
    (∃ s : State, s.ready ∧ s.clocked = true ∧ s.params.ok = true ∧ (3#5 = s.params.bsbS0Rx ∧ 2#5 = s.params.bsbS0Tx) ∧ (1#16) ≠ 0 ∧
      (1#16).toNat ≤ s.params.window ∧ s.events = .env (.turn s.sel 13) :: [] ∧ (1#16).toNat + 12 ≤ 13) ∧
    (∃ s : State, s.ready ∧ s.clocked = true ∧ s.params.ok = true ∧ (16384#16).toNat ≤ s.params.window ∧
      s.events = .env (.turn s.sel 16396) :: [] ∧ (16384#16).toNat + 12 ≤ 16396) :=
  ⟨⟨board [t0 13] [], board_ready _ _, by decide, by decide, ⟨rfl, rfl⟩, by decide, by decide, rfl, by decide⟩,
    ⟨board [t0 16396] [], board_ready _ _, by decide, by decide, by decide, rfl, by decide⟩⟩

theorem test_witness_RingWritePlacesEachByte :
    Params.default.ok = true ∧ (2#5 ≠ Params.default.bsbS0Reg) ∧
    (List.replicate 16384 (0 : Byte)).length ≤ Params.default.window ∧
    ∀ i < 6, 7 ≠ ringAddr .default 2 0x3FFE i := by
  exact ⟨by decide, by decide, List.length_replicate.le, by decide⟩

/-- A crossing read and a crossing write on the TX window, and the state in which the second call follows. -/
theorem test_witness_RingCallsStayInTheWindow :
    ∃ s : State, 0 < s.ports.length ∧ s.params.ok = true ∧ s.cfg.en = true ∧ 2#5 = s.params.bsbS0Tx ∧
      1 ≤ ([1, 2] : List Byte).length ∧ ([1, 2] : List Byte).length ≤ s.params.window ∧
      ((ringRd 0 2 0x3FFF 2 .own id s).port 0).act = .asking ⟨.rd, 2, 0x3FFF, 1, []⟩ ∧
      ((ringRd 0 2 0x3FFF 2 .own id s).port 0).seq = .ringRdTail 2 1 .own ∧
      ((ringWr 0 2 0x3FFF [1, 2] .own id s).port 0).act = .asking ⟨.wr, 2, 0x3FFF, 1, [1]⟩ ∧
      ((ringWr 0 2 0x3FFF [1, 2] .own id s).port 0).seq = .ringWrTail 2 [2] .own ∧
      ∃ t u : State, (0 < t.ports.length ∧ t.cfg.en = true ∧ t.params = s.params ∧
          (t.port 0).seq = .ringRdTail 2 1 .own) ∧
        (0 < u.ports.length ∧ u.cfg.en = true ∧ u.params = s.params ∧ (u.port 0).seq = .ringWrTail 2 [2] .own) :=
  ⟨board [] [], by decide, by decide, rfl, rfl, by decide, by decide, by decide, by decide, by decide, by decide,
    withPort { busyPort with seq := .ringRdTail 2 1 .own } [] [],
    withPort { busyPort with seq := .ringWrTail 2 [2] .own } [] [], ⟨by decide, rfl, rfl, rfl⟩, ⟨by decide, rfl, rfl, rfl⟩⟩

/-- A whole window, and a later state that differs from the state after the write (another port, another
register, another byte of the chip). -/
theorem test_witness_RingRoundTrip :
    (∃ s : State, s.ready ∧ s.clocked = true ∧ s.params.ok = true ∧ 2#5 = s.params.bsbS0Tx ∧ (16384#16) ≠ 0 ∧
      (16384#16).toNat ≤ s.params.window ∧ s.events = .env (.turn s.sel 16396) :: [] ∧ (16384#16).toNat + 12 ≤ 16396) ∧
    (∃ s t u : State, s.ready ∧ exec (.bufWr 2 0 1) s = .next t ∧ u.ready ∧ u.clocked = true ∧ u.params = t.params ∧
      (∀ i < (1#16).toNat, u.mem.read (ringAddr s.params 2 0 i) = t.mem.read (ringAddr s.params 2 0 i)) ∧
      u.events = .env (.turn u.sel 13) :: [] ∧ u.sel ≠ t.sel ∧ u.cfg ≠ t.cfg) := by
  refine ⟨⟨board [t0 16396] [], board_ready _ _, by decide, by decide, rfl, by decide, by decide, rfl, by decide⟩,
    filled [5] [t0 13] [], _, { board [.env (.turn 1 13)] [(reg 3, 1), (txw 0, 5)] with
      sel := 1, cfg := { cfg with maxFrame := 9 } }, ?_, rfl, ?_, by decide, rfl, ?_, rfl, by decide, by decide +kernel⟩
  · exact ⟨Nat.succ_pos _, rfl, rfl, rfl, rfl, rfl, rfl⟩
  · exact ⟨by decide, rfl, rfl, rfl, rfl, rfl, rfl⟩
  · intro i hi
    have h0 : i = 0 := by
      have : (1#16).toNat = 1 := rfl
      omega
    subst h0; decide +kernel

theorem test_witness_SizeQueries :
    ∃ s : State, s.ready ∧ s.params.ok = true ∧ s.clocked = true ∧ s.events = .env (.turn s.sel 16) :: [] ∧ 16 ≤ 16 ∧
      s.params.sizeLen = 2 :=
  ⟨board [t0 16] [], board_ready _ _, by decide, by decide, rfl, by decide, rfl⟩

/-- Each clause for each caller: after a first read, after a second that agrees, after one that does not;
unbounded retries, the last retry of a bound, and the bound exceeded. -/
theorem test_witness_ReadsAreTakenInPairs :
    (∀ k ∈ [SizeCont.own, .tx 6, .rx], ∀ q ∈ [Machine.Seq.sizeFirst 0x20 2 k, .sizeSecond 0xFFFE [0x3F, 0xF0] 2 k],
      ∀ m ∈ [none, some 3, some 2], ∃ s : State, 0 < s.ports.length ∧ s.cfg.en = true ∧ s.params.ok = true ∧
        (s.port 0).seq = q ∧ s.params.sizeRetryMax = m) ∧
    (0xFFFE#16).toNat + 2 ≤ 65536 ∧ (2 + 1 ≤ 3 ∧ 2 < 2 + 1) ∧ ([0x3F, 0xF0] : List Byte) ≠ [0x40, 0x00] := by
  refine ⟨fun k _ q _ m _ => ⟨{ withPort { busyPort with seq := q } [] [] with
    params := { Params.default with sizeRetryMax := m } }, Nat.succ_pos _, rfl, ?_, rfl, rfl⟩, by decide, by decide,
    by decide⟩
  exact test_ok_default

/-- A board whose chip changes the free size between the two reads of the first pair. -/
def tornBoard (m : Option Nat) : State :=
  { board [t0 8, .env (.chip (reg 0x21) 0xF0), t0 24] [(reg 0x20, 0x40), (reg 0x21, 0)] with
    params := { Params.default with sizeRetryMax := m } }

/-- Unbounded, and the smallest bound that allows a retry. -/
theorem test_witness_TornPair :
    ∀ m ∈ [none, some 1], ∃ s : State, s.ready ∧ s.clocked = true ∧ s.params.ok = true ∧ s.params.sizeRetryMax = m ∧
      m ≠ some 0 ∧ s.mem.read (chipAddr s.params.bsbS0Reg s.params.regTxFsr (s.params.sizeLen - 1)) ≠ 0xF0 ∧
      s.events = .env (.turn s.sel (s.params.sizeLen + 6)) ::
        .env (.chip (chipAddr s.params.bsbS0Reg s.params.regTxFsr (s.params.sizeLen - 1)) 0xF0) ::
        .env (.turn s.sel 24) :: [] := by
  have hr (m : Option Nat) : (tornBoard m).ready := ⟨Nat.succ_pos _, rfl, rfl, rfl, rfl, rfl, rfl⟩
  intro m hm
  simp only [List.mem_cons, List.not_mem_nil, or_false] at hm
  rcases hm with rfl | rfl
  · exact ⟨tornBoard none, hr _, by decide, by decide, rfl, by decide, by decide +kernel, by decide +kernel⟩
  · exact ⟨tornBoard (some 1), hr _, by decide, by decide, rfl, by decide, by decide +kernel, by decide +kernel⟩

theorem test_witness_SockCmd :
    ∃ s : State, s.ready ∧ s.params.ok = true ∧ s.clocked = true ∧ s.events = .env (.turn s.sel 14) :: [] ∧ 14 ≤ 14 :=
  ⟨board [t0 14] [], board_ready _ _, by decide, by decide, rfl, by decide⟩

/-- The clauses of the command loop for each caller: after the write; a poll with the timeout at `t` =
`tmo` and the wait at `t` = `tmo` - 1; the wait at its end, with the lock free and held by another. -/
theorem test_witness_CommandPollLoop :
    (∀ k ∈ [CmdCont.own, .tx, .rx 10 6 [1]],
      ∀ q ∈ [Machine.Seq.cmdWrite 25 k, .cmdPoll 25 25 k, .cmdPoll 24 25 k],
        ∃ s : State, 0 < s.ports.length ∧ s.cfg.en = true ∧ s.params.ok = true ∧ (s.port 0).seq = q) ∧
    (25 ≤ 25 ∧ 24 < 25) ∧ ([0x20] : List Byte).getD 0 0 ≠ 0 ∧ ([0] : List Byte).getD 0 0 = 0 ∧
    (∀ k ∈ [CmdCont.own, .tx, .rx 10 6 [1]], ∀ l ∈ [Lock.mk false 0, ⟨true, 1⟩], ∃ s : State, s.cfg.en = true ∧ s.params.ok = true ∧
      s.lock = l ∧ (s.port 0).seq = .cmdPoll 10 25 k ∧ (s.port 0).act = .pausing 0) ∧
    (∀ l ∈ [Lock.mk false 0, ⟨true, 1⟩], l.held = true → l.owner ≠ 0) :=
  ⟨fun k _ q _ => ⟨withPort { busyPort with seq := q } [] [], Nat.succ_pos _, rfl, test_ok_default, rfl⟩, by decide, by decide,
    by decide, fun k _ l _ => ⟨{ withPort { busyPort with seq := .cmdPoll 10 25 k, act := .pausing 0 } [] [] with lock := l },
      rfl, test_ok_default, rfl, rfl, rfl⟩, by decide⟩

/-- V8.22: `LEN` = free is accepted; a frame of one byte and one of a whole window. -/
theorem test_witness_TxEnq :
    (∃ s : State, s.ready ∧ s.clocked = true ∧ s.params.ok = true ∧ (6#16) ≠ 0 ∧ (6#16).toNat ≤ s.params.window ∧
      (6#16).toNat ≤ (numOf (memRead s.mem (chipAddr s.params.bsbS0Reg s.params.regTxFsr 0) s.params.sizeLen)).toNat ∧
      s.events = .env (.turn s.sel 78) :: [] ∧ (6#16).toNat + 72 ≤ 78) ∧
    (∃ s : State, s.ready ∧ s.clocked = true ∧ s.params.ok = true ∧ (16384#16).toNat ≤ s.params.window ∧
      (16384#16).toNat ≤ (numOf (memRead s.mem (chipAddr s.params.bsbS0Reg s.params.regTxFsr 0) s.params.sizeLen)).toNat ∧
      s.events = .env (.turn s.sel 16456) :: [] ∧ (16384#16).toNat + 72 ≤ 16456) :=
  ⟨⟨board [t0 78] (txChip 0 6), board_ready _ _, by decide, by decide, by decide, by decide, by decide +kernel, rfl, by decide⟩,
    ⟨board [t0 16456] (txChip 0x40 0), board_ready _ _, by decide, by decide, by decide, by decide +kernel, rfl, by decide⟩⟩

/-- V8.23. -/
theorem test_witness_TxEnqWithoutRoom :
    ∃ s : State, s.ready ∧ s.params.ok = true ∧ s.clocked = true ∧
      (numOf (memRead s.mem (chipAddr s.params.bsbS0Reg s.params.regTxFsr 0) s.params.sizeLen)).toNat < (6#16).toNat ∧
      s.events = .env (.turn s.sel 16) :: [] ∧ 16 ≤ 16 :=
  ⟨board [t0 16] (txChip 0 5), board_ready _ _, by decide, by decide, by decide +kernel, rfl, by decide⟩

/-- V8.24 and V8.25. -/
theorem test_witness_TxEnqLengthChecks :
    ∃ s : State, s.ready ∧ s.params.ok = true ∧ s.events = .env (.turn s.sel 24) :: [] ∧ s.clocked = true ∧ s.params.window < (16385#16).toNat ∧
      (16385#16).toNat ≤ (numOf (memRead s.mem (chipAddr s.params.bsbS0Reg s.params.regTxFsr 0) s.params.sizeLen)).toNat ∧ 24 ≤ 24 :=
  ⟨board [t0 24] (txChip 0xFF 0xFF), board_ready _ _, by decide, rfl, by decide, by decide, by decide +kernel, by decide⟩

theorem test_witness_PointerSum :
    (Params.default.ptrMod = 65536 ∧ 0 < 65536 ∧ 65536 ≤ 65536 ∧ Params.default.window ∣ 65536) ∧
    ∃ P : Params, P.ptrMod = P.window ∧ 0 < P.ptrMod ∧ P.ptrMod ≤ 65536 :=
  ⟨by decide, { Params.default with ptrMod := 16384 }, rfl, by decide, by decide⟩

/-- The clauses of the send-complete poll, with `TXPOLL_LIVE` = 3 and `TXPOLL_MAX` = 10: the bit seen;
the misses 11, 4 and 3 (V8.29, V8.28, V8.27); the liveness read, alive and dead (V8.28, V8.30). -/
theorem test_witness_SendCompletePoll :
    (0x10#8 &&& Params.default.irSendOk ≠ 0) ∧ (0x04#8 &&& Params.default.irSendOk = 0) ∧
    (∀ r ∈ [10, 9, 3, 2], ∃ s : State, 0 < s.ports.length ∧ s.cfg.en = true ∧ s.params.ok = true ∧ (s.port 0).seq = .txPoll r ∧
      s.cfg.txPollMax.toNat = 10 ∧ s.cfg.txPollLive.toNat = 3) ∧
    (∃ s : State, s.cfg.en = true ∧ s.params.ok = true ∧ (s.port 0).seq = .txLive 4 ∧ phyAlive s.params 0 = true) ∧
    (∃ s : State, s.cfg.en = true ∧ s.params.ok = true ∧ (s.port 0).seq = .txLive 4 ∧ phyAlive s.params 0 = false) :=
  ⟨by decide, by decide,
    fun r _ => ⟨withPort { busyPort with seq := .txPoll r } [] [], Nat.succ_pos _, rfl, test_ok_default, rfl, rfl, rfl⟩,
    ⟨withPort { busyPort with seq := .txLive 4 } [] [], rfl, test_ok_default, rfl, by decide +kernel⟩,
    ⟨{ withPort { busyPort with seq := .txLive 4 } [] [] with params := { Params.default with phyAlive := 0 } }, rfl,
      by decide, rfl, by decide +kernel⟩⟩

/-- V8.13 (`hv` = `rsr`) and V8.15 (`hv` = 2, no payload). -/
theorem test_witness_RxDeq :
    ∀ c ∈ [((6 : Byte), (6 : Byte)), (2, 2)], ∃ s : State, s.ready ∧ s.params.ok = true ∧ s.clocked = true ∧
      (let hv := numOf (ringRead s.params s.mem s.params.bsbS0Rx
          (numOf (memRead s.mem (chipAddr s.params.bsbS0Reg s.params.regRxRd 0) s.params.ptrLen)) s.params.hdrLen)
       hv.toNat = c.2.toNat ∧ hv.toNat - s.params.hdrLen ≤ s.params.window ∧ s.params.hdrLen ≤ hv.toNat ∧
       hv.toNat ≤ (numOf (memRead s.mem (chipAddr s.params.bsbS0Reg s.params.regRxRsr 0) s.params.sizeLen)).toNat ∧
       hv.toNat - s.params.hdrLen ≤ s.cfg.maxFrame.toNat ∧ hv.toNat - s.params.hdrLen + 72 ≤ 76) ∧ s.events = .env (.turn s.sel 76) :: [] := by
  intro c hc
  refine ⟨board [t0 76] (rxChip c.1 c.2), board_ready _ _, test_ok_default, rfl, ?_, rfl⟩
  simp only [List.mem_cons, List.not_mem_nil, or_false] at hc
  rcases hc with rfl | rfl <;> decide +kernel

/-- V8.21. -/
theorem test_witness_RxDeqOfAnEmptyRing :
    ∃ s : State, s.ready ∧ s.params.ok = true ∧ s.clocked = true ∧
      numOf (memRead s.mem (chipAddr s.params.bsbS0Reg s.params.regRxRsr 0) s.params.sizeLen) = 0 ∧
      s.events = .env (.turn s.sel 16) :: [] ∧ 16 ≤ 16 :=
  ⟨board [t0 16] (rxChip 0 0), board_ready _ _, by decide, by decide, by decide +kernel, rfl, by decide⟩

/-- V8.16 (`hv` > `rsr`), V8.17 (`hv` = 1), and `hv - 2` one above `MAX_FRAME`. -/
theorem test_witness_ImpossibleHeader :
    ∀ c ∈ [((5 : Byte), (6 : Byte), (1518 : Word)), (10, 1, 1518), (10, 6, 3)], ∃ s : State,
      s.ready ∧ s.params.ok = true ∧ s.clocked = true ∧
      (let rsr := numOf (memRead s.mem (chipAddr s.params.bsbS0Reg s.params.regRxRsr 0) s.params.sizeLen)
       let hv := numOf (ringRead s.params s.mem s.params.bsbS0Rx
          (numOf (memRead s.mem (chipAddr s.params.bsbS0Reg s.params.regRxRd 0) s.params.ptrLen)) s.params.hdrLen)
       rsr ≠ 0 ∧ (hv.toNat < s.params.hdrLen ∨ rsr.toNat < hv.toNat ∨ s.cfg.maxFrame.toNat < hv.toNat - s.params.hdrLen)) ∧
      s.events = .env (.turn s.sel 38) :: [] ∧ 38 ≤ 38 := by
  intro c hc
  refine ⟨{ board [t0 38] (rxChip c.1 c.2.1) with cfg := { cfg with maxFrame := c.2.2 } },
    ⟨Nat.succ_pos _, rfl, rfl, rfl, rfl, rfl, rfl⟩, test_ok_default, rfl, ?_, rfl, by decide⟩
  simp only [List.mem_cons, List.not_mem_nil, or_false] at hc
  rcases hc with rfl | rfl | rfl <;> decide +kernel

/-- `hv` = 16387 with `MAX_FRAME` = 16385. -/
theorem test_witness_RxDeqPayloadBeyondAWindow :
    ∃ s : State, s.ready ∧ s.params.ok = true ∧ s.clocked = true ∧
      (let rsr := numOf (memRead s.mem (chipAddr s.params.bsbS0Reg s.params.regRxRsr 0) s.params.sizeLen)
       let hv := numOf (ringRead s.params s.mem s.params.bsbS0Rx
          (numOf (memRead s.mem (chipAddr s.params.bsbS0Reg s.params.regRxRd 0) s.params.ptrLen)) s.params.hdrLen)
       hv.toNat ≤ rsr.toNat ∧ hv.toNat - s.params.hdrLen ≤ s.cfg.maxFrame.toNat ∧ s.params.window < hv.toNat - s.params.hdrLen) ∧
      s.events = .env (.turn s.sel 38) :: [] ∧ 38 ≤ 38 :=
  ⟨{ board [t0 38] [(reg 0x26, 0x40), (reg 0x27, 3), (reg 0x28, 0), (reg 0x29, 0), (rxw 0, 0x40), (rxw 1, 3)] with
      cfg := { cfg with maxFrame := 16385 } },
    ⟨by decide, rfl, rfl, rfl, rfl, rfl, rfl⟩, by decide, by decide, by decide +kernel, rfl, by decide⟩

/-- The last poll of an RX.DEQ with bytes remaining, in the END phase of its frame; and an instruction
with nothing listed. -/
theorem test_witness_MoreIsWritten :
    (∃ s : State, (turn 0 s).more ≠ s.more) ∧
    (∃ s t : State, s.events = [] ∧ Instr.getTxFree ≠ .rxDeq ∧ exec .getTxFree s = .next t) :=
  ⟨⟨{ withPort { busyPort with seq := .cmdPoll 0 100 (.rx 10 6 []) } [] [] with
      lock := ⟨true, 0⟩
      eng := { Engine.reset with ph := .finish, csn := false, dir := .rd, bsb := 1, off := 1, count := 1 } },
    by decide⟩, ⟨board [] [], _, rfl, by decide, rfl⟩⟩

theorem board_inv (ev : List Event) : (board ev []).Inv :=
  ⟨rfl, test_layout_ok.2.1, by simp [board, State.reset, Engine.reset], nofun,
    by simp [board, State.reset, Engine.reset], rfl, fun h => absurd rfl h, nofun,
    by simp [board, State.reset, Port.reset], by simp [board, State.reset, Port.reset],
    by simp [board, State.reset, Port.reset], fun _ => rfl⟩

theorem test_witness_StepKeepsTheInvariant : ∃ s t : State, s.Inv ∧ step s = .next t :=
  ⟨board [.read 8] [], _, board_inv _, rfl⟩

/-- A byte of a write frame, the reaction of the interrupt-status register; a write frame past the end
of a window, which opens; and any frame that opens outside the valid range of the clock. -/
theorem test_witness_TurnWritesOneByte :
    (∃ (s : State) (a : Nat), (turn 0 s).mem.read a ≠ s.mem.read a ∧ s.eng.ph = .data ∧ s.clocked = true) ∧
    (∃ s : State, s.clocked = true ∧ (turn 0 s).mem ≠ s.mem ∧ s.eng.ph = .idle ∧ s.lock.held = true ∧ s.lock.owner = 0 ∧
      ∃ h dir bsb off, s.eng.staged = some h ∧ wireTarget s.params.ctrl h = some (dir, bsb, off) ∧
        wild s.params bsb off s.eng.count = true) ∧
    (∃ s : State, s.clocked = false ∧ (turn 0 s).mem ≠ s.mem ∧ s.eng.ph = .idle ∧ s.lock.held = true) :=
  ⟨⟨{ inData with mem := { Memory.empty with cells := [(reg 1, 7)] } }, reg 1, by decide +kernel, rfl, by decide⟩,
    ⟨{ granted 2 [1, 2] [] [(txw 0, 9)] with eng := { Engine.reset with
      staged := some (header .default .wr 2 0x3FFF), count := 2, data := [1, 2] } }, by decide, by decide, rfl, rfl, rfl,
      _, .wr, 2, 0x3FFF, rfl, by decide, by decide⟩,
    slow (stagedBoard 0x002608#24 []), by decide, by decide, rfl, rfl⟩

theorem test_witness_ConfigurationChanges :
    (∃ s t : State, exec .rxDeq s = .next t) ∧
    (∃ s t : State, step s = .next t ∧ t.cfg ≠ s.cfg ∧ s.events = .write 0 20 :: []) ∧
    (∃ s t : State, step s = .next t ∧ t.cfg ≠ s.cfg ∧ s.events = .reset [] :: []) :=
  ⟨⟨board [] [], _, rfl⟩, ⟨{ State.reset with events := [.write 0 20] }, _, rfl, by decide, rfl⟩,
    ⟨board [.reset []] [], _, rfl, by decide, rfl⟩⟩

/-- For the three frame statements: each instruction answers a next state on a board whose port alone
moves, here within a call still running; the descriptors they name, an XFER.WR past the end of a window, and a byte
outside what it may touch. -/
theorem test_witness_OperationFrames :
    (∃ s : State, s.ready ∧ s.solo s.sel ∧ s.params.ok = true ∧ s.clocked = true ∧
      ∀ i ∈ [Instr.xferRd 1 0x26 2, .bufRd 3 0 4, .getTxFree, .getRxSize, .xferWr 1 2 1, .xferWr 2 0x3FFF 2, .bufWr 2 0 4,
        .sockCmd 0x40 100, .txEnq 6, .rxDeq], (∃ d, encode s.params.ctrl i = .cmd d) ∧ ∃ t, exec i s = .next t) ∧
    wild .default 2 0x3FFF 2 = true ∧ rxw 0 / Config.blockSize ≠ (2#5).toNat ∧ wild .default 1 2 1 = false := by
  refine ⟨⟨board [t0 6] [], board_ready _ _, ?_, by decide, by decide, ?_⟩, by decide, by decide, by decide⟩
  · intro ev h
    exact ⟨6, List.mem_singleton.mp h⟩
  · intro i h
    simp only [List.mem_cons, List.not_mem_nil, or_false] at h
    rcases h with rfl | rfl | rfl | rfl | rfl | rfl | rfl | rfl | rfl | rfl <;> exact ⟨⟨_, rfl⟩, _, rfl⟩

end Sys2Proof.Tests
end

section
/-! SUPPORT. What one turn of a port, one instruction and one step can do, said once: an inversion
lemma for each, and the inductions over turns and listed moves. -/

namespace Sys2Proof.Machine

/-! ### A change of one port's registers and `MORE` -/

section PortOnly

variable {p : Nat} {s t : State} (h : PortOnly p s t)
include h

theorem PortOnly.cfg : t.cfg = s.cfg := by obtain ⟨f, m, rfl, -⟩ := h; rfl
theorem PortOnly.params : t.params = s.params := by obtain ⟨f, m, rfl, -⟩ := h; rfl
theorem PortOnly.eng : t.eng = s.eng := by obtain ⟨f, m, rfl, -⟩ := h; rfl

end PortOnly

/-! ### One turn -/

/-- What one turn of port `p` can make of `s` (10_state.md R24; 40_transport.md R133, R138). -/
inductive Turned (p : Nat) (s : State) : State → Prop
  | nothing : Turned p s s
  | opens {h : Header} {dir : Dir} {bsb : Bsb} {off : Word} (held : s.lock.held = true) (own : s.lock.owner = p)
      (ph : s.eng.ph = .idle) (staged : s.eng.staged = some h)
      (target : wireTarget s.params.ctrl h = some (dir, bsb, off)) : Turned p s (openFrame dir bsb off s)
  | header (held : s.lock.held = true) (own : s.lock.owner = p) (ph : s.eng.ph = .hdr) : Turned p s (headerTurn s)
  | reads (held : s.lock.held = true) (own : s.lock.owner = p) (ph : s.eng.ph = .data) (dir : s.eng.dir = .rd) :
      Turned p s (readTurn s)
  | writes (held : s.lock.held = true) (own : s.lock.owner = p) (ph : s.eng.ph = .data) (dir : s.eng.dir = .wr) :
      Turned p s (writeTurn s)
  | closes (held : s.lock.held = true) (own : s.lock.owner = p) (ph : s.eng.ph = .finish) :
      Turned p s (proceed p (rdataOf s.params s.eng) (closeFrame true s))
  | grants {c : Call} (free : s.lock.held = false) (asks : (s.port p).act = .asking c) : Turned p s (grant p c s)
  | waits {t : State} (waiting : (s.port p).act ≠ .rest) (only : PortOnly p s t) (more : t.more = s.more) :
      Turned p s t

@[simp] theorem raise_more (p : Nat) (e : Status) (s : State) : (raise p e s).more = s.more := rfl

@[simp] theorem finish_more (p : Nat) (f : Port → Port) (s : State) : (finish p f s).more = s.more := rfl

@[simp] theorem xcall_more (p : Nat) (c : Call) (seq : Seq) (s : State) : (xcall p c seq s).more = s.more := by
  unfold xcall; split <;> rfl

/-- One tick of a port that asks for the lock (40_transport.md R133). -/
theorem askTurn_turned {p : Nat} {c : Call} {s : State} (asks : (s.port p).act = .asking c) :
    Turned p s (askTurn p c s) := by
  have waiting : (s.port p).act ≠ .rest := by simp [asks]
  unfold askTurn
  split_ifs with hl hw
  · exact .grants (by simpa using hl) asks
  · exact .waits waiting (.raise _ _ _) rfl
  · exact .waits waiting ⟨_, s.more, rfl, fun q _ hq => hq⟩ rfl

/-- One tick of a port that waits between two polls (43_fifo_sequences.md R211). -/
theorem pauseTurn_turned {p left : Nat} {s : State} (pauses : (s.port p).act = .pausing left) :
    Turned p s (pauseTurn p left s) := by
  have waiting : (s.port p).act ≠ .rest := by simp [pauses]
  cases left with
  | succ left =>
    exact .waits waiting ⟨_, s.more, rfl, fun q hb hq => ⟨fun h => by simp_all, nofun, hq.2.2⟩⟩ rfl
  | zero =>
    unfold pauseTurn
    split
    · next hs => exact nomatch hs
    · split
      · exact .waits waiting (.xcall _ _ _ _) (xcall_more _ _ _ _)
      · exact .nothing

/-- What a turn does is one of these. -/
theorem turn_turned (p : Nat) (s : State) : Turned p s (turn p s) := by
  by_cases ho : s.lock.held = true ∧ s.lock.owner = p
  · obtain ⟨held, own⟩ := ho
    rw [turn_owner held own, frameTurn]
    cases ph : s.eng.ph with
    | idle =>
      cases staged : s.eng.staged with
      | none => exact .nothing
      | some h =>
        rw [Option.bind_some]
        cases target : wireTarget s.params.ctrl h with
        | none => exact .nothing
        | some a => exact .opens held own ph staged target
    | hdr => exact .header held own ph
    | data =>
      cases dir : s.eng.dir with
      | rd => exact .reads held own ph dir
      | wr => exact .writes held own ph dir
    | finish => exact .closes held own ph
  · rw [turn, if_neg (by simpa using ho)]
    cases act : (s.port p).act with
    | rest => exact .nothing
    | asking c => exact askTurn_turned act
    | pausing left => exact pauseTurn_turned act

/-! ### Turns, moves and runs -/

/-- What every turn of a port keeps, any number of them keeps. -/
theorem turns_keeps {I : State → Prop} {p : Nat} (h : ∀ s, I s → I (turn p s)) (k : Nat) {s : State} (hs : I s) :
    I (turns p k s) := by
  induction k generalizing s with
  | zero => exact hs
  | succ k ih => exact ih (h s hs)

/-- What every turn, every change the chip makes of a location, the failure of the frame and the end of a
wait keep, every move of the environment keeps. -/
theorem applyEnv_keeps {I : State → Prop} (turns : ∀ p s, I s → I (turn p s))
    (chip : ∀ a v s, a < Config.chipSize → I s → I { s with mem := s.mem.set a v })
    (fails : ∀ s, I s → I (failFrame s)) (expires : ∀ p s, I s → I (expire p s)) (e : Env) (s : State) (hs : I s) :
    I (applyEnv e s) := by
  cases e with
  | turn p k => exact turns_keeps (turns p) k hs
  | chip a v =>
    rw [applyEnv]
    split
    · next ha => exact chip a v s ha hs
    · exact hs
  | fault => exact fails s hs
  | expire p => exact expires p s hs

/-- What every move keeps and what does not depend on the list of events, a run of listed moves keeps. -/
theorem drive_keeps {I : State → Prop} (listed : ∀ s es, I s → I { s with events := es })
    (moves : ∀ e s, I s → I (applyEnv e s)) (going : State → Bool) {s : State} (hs : I s) : I (drive going s) := by
  rw [drive]
  generalize s.events = l
  induction l generalizing s with
  | nil => exact listed s _ hs
  | cons ev l ih =>
    cases ev with
    | env e =>
      rw [driveList]
      split
      · exact ih (moves e s hs)
      · exact listed s _ hs
    | _ => exact listed s _ hs

/-- With nothing listed nothing runs on. -/
theorem drive_nil {going : State → Bool} {s : State} (h : s.events = []) : drive going s = s := by
  rw [drive, h, driveList, ← h]

/-! ### One instruction -/

/-- What executing instruction `i` can make of `s` (30_encoding.md R103, R108): a descriptor is ignored by a
busy port, refused by a disabled block, or starts its operation; a header opens its frame. -/
inductive Executed (i : Instr) (s : State) : State → Prop
  | busy (port : s.sel < s.ports.length) (busy : (s.port s.sel).busy = true) : Executed i s s
  | disabled {d : Descriptor} (port : s.sel < s.ports.length) (idle : (s.port s.sel).busy = false)
      (en : s.cfg.en = false) : Executed i s (s.modPort s.sel
      (Port.afterError (opcOf d) (bsbOf d) (offOf d) (lenOf d) (auxOf d) .invalidArgument))
  | started {d : Descriptor} (port : s.sel < s.ports.length) (idle : (s.port s.sel).busy = false)
      (en : s.cfg.en = true) : Executed i s (drive (portBusy s.sel) (start i s.sel (issued d s)))
  | frame {dir : Dir} {bsb : Bsb} {off : Word} (held : s.lock.held = true) (ph : s.eng.ph = .idle)
      (args : xferArgsOk s.params off s.eng.count = true) :
      Executed i s (drive frameOn (openFrame dir bsb off s))

/-- What an instruction does is one of these. -/
theorem exec_executed {i : Instr} {s t : State} (ht : exec i s = .next t) : Executed i s t := by
  cases he : encode s.params.ctrl i with
  | wire h =>
    have hr : ∃ dir bsb off, runFrame dir bsb off s = .next t := by
      cases i with
      | wireRd bsb off => exact ⟨.rd, bsb, off, ht⟩
      | wireWr bsb off => exact ⟨.wr, bsb, off, ht⟩
      | _ => exact nomatch he
    obtain ⟨dir, bsb, off, hr⟩ := hr
    obtain ⟨held, ph, args, rfl⟩ := runFrame_cases hr
    exact .frame held ph args
  | cmd d =>
    obtain ⟨port, ⟨busy, rfl⟩ | ⟨idle, hd⟩⟩ := exec_cmd_cases he ht
    · exact .busy port busy
    · cases en : s.cfg.en with
      | true =>
        rw [hd, if_pos en]
        exact .started port idle en
      | false =>
        rw [exec_cmd he, issue_disabled port idle en] at ht
        cases ht
        exact .disabled port idle en

/-! ### One step -/

/-- The clock is in its valid range where the block is enabled (40_transport.md R141). -/
def Cfg.Gated (P : Params) (c : Cfg) : Prop := c.en = true → clockOk P c.fsclk = true

/-- The enable gate keeps the clock of an enabled block in its valid range (10_state.md R31). -/
theorem Cfg.Gated.writeEn {P : Params} {c : Cfg} (h : c.Gated P) (v anyBusy : Bool) :
    (c.writeEn P v anyBusy).Gated P := by
  unfold Cfg.writeEn
  split_ifs with _ range
  · exact fun _ => range
  · exact h
  · exact h
  · nofun

/-- A write of the clock's frequency disables a block whose clock it takes out of the range (log 11). -/
theorem Cfg.writeFsclk_gated (P : Params) (c : Cfg) (v : BitVec 8) : (c.writeFsclk P v).Gated P := fun en =>
  ((Bool.and_eq_true _ _).mp en).2

/-- A register written while no port is busy changes the configuration alone. -/
theorem idleWrite_cfg {P : Params} {f : Cfg → Cfg} {s : State} (hf : s.cfg.Gated P → (f s.cfg).Gated P) :
    ∃ c, idleWrite f s = { s with cfg := c } ∧ (s.cfg.Gated P → c.Gated P) := by
  rw [idleWrite]
  split
  · exact ⟨s.cfg, rfl, id⟩
  · exact ⟨f s.cfg, rfl, hf⟩

/-- A requester's write to a register that starts no operation changes the configuration alone, by a write
of registers 0 to 7, and keeps the clock of an enabled block in its valid range (10_state.md R30, R31). -/
theorem regWrite_next {n : Nat} {v : BitVec 64} {s t : State} (h : regWrite n v s = .next t) :
    ∃ c, t = { s with cfg := c } ∧ (c ≠ s.cfg → n ≤ 7) ∧ (s.cfg.Gated s.params → c.Gated s.params) := by
  have idle : ∀ f : Cfg → Cfg, n ≤ 7 → (s.cfg.Gated s.params → (f s.cfg).Gated s.params) →
      ∃ c, idleWrite f s = { s with cfg := c } ∧ (c ≠ s.cfg → n ≤ 7) ∧ (s.cfg.Gated s.params → c.Gated s.params) :=
    fun f hn hf =>
      have ⟨c, hc, gated⟩ := idleWrite_cfg hf
      ⟨c, hc, fun _ => hn, gated⟩
  have ignored : s = { s with cfg := s.cfg } ∧ (s.cfg ≠ s.cfg → n ≤ 7) ∧ (s.cfg.Gated s.params → s.cfg.Gated s.params) :=
    ⟨rfl, fun hc => absurd rfl hc, id⟩
  unfold regWrite at h
  split at h
  case h_1 => cases h; exact idle _ (by decide) fun _ => Cfg.writeFsclk_gated _ _ _
  case h_2 => cases h; exact ⟨_, rfl, fun _ => by decide, fun hg => hg.writeEn _ _⟩
  case h_9 => cases h; exact ⟨_, ignored⟩
  case h_10 =>
    split at h
    · cases h; exact ⟨_, ignored⟩
    · cases h
  -- the registers 2 to 7 hold neither `EN` nor the clock's frequency
  all_goals cases h; exact idle _ (by decide) id

/-- What a step can make of a state that is not faulted (30_encoding.md R108, R116; log 16). -/
inductive Stepped (s : State) : State → Prop
  | frame {h : Header} {i : Instr} {t : State} (staged : s.eng.staged = some h)
      (decoded : decodeWire s.params.ctrl h = some i) (run : exec i s = .next t) : Stepped s t
  | free (listed : s.events = []) : Stepped s (applyEnv (Config.freeEnv s.free) { s with free := s.free + 1 })
  | move {e : Env} {es : List Event} (listed : s.events = .env e :: es) :
      Stepped s (applyEnv e { s with events := es })
  | descriptor {n p : Nat} {d : Descriptor} {es : List Event} {i : Instr} {t : State}
      (listed : s.events = .write n d :: es) (command : cmdPort n = some p) (decoded : decodeCmd d = some i)
      (run : exec i { s with events := es, sel := p } = .next t) : Stepped s t
  | illegal {n p : Nat} {d : Descriptor} {es : List Event} {t : State} (listed : s.events = .write n d :: es)
      (command : cmdPort n = some p) (illegal : decodeCmd d = none)
      (run : issueIllegal d { s with events := es, sel := p } = .next t) : Stepped s t
  | write {n : Nat} {v : BitVec 64} {es : List Event} {t : State} (unstaged : s.eng.staged = none)
      (listed : s.events = .write n v :: es) (run : regWrite n v { s with events := es } = .next t) : Stepped s t
  | read {es : List Event} {v : BitVec 64} : Stepped s { s with events := es, hostData := v, free := s.free + 1 }
  | fill {p : Nat} {v : List Byte} {es : List Event} (listed : s.events = .fill p v :: es)
      (port : p < s.ports.length) (idle : (s.port p).busy = false) :
      Stepped s ({ s with events := es }.modPort p (fun q => { q with wbuf := v }))
  | reset {cut : List Byte} {es : List Event} (listed : s.events = .reset cut :: es) :
      Stepped s (resetBlock cut { s with events := es })

/-- An access that is answered with a value. -/
theorem answer_next {r : Except Fault (BitVec 64)} {s t : State} (h : answer r s = .next t) :
    ∃ v, t = { s with hostData := v, free := s.free + 1 } := by
  cases r with
  | ok v => cases h; exact ⟨v, rfl⟩
  | error f => cases h

/-- A fill that is accepted. -/
theorem fillBuf_next {p : Nat} {v : List Byte} {s t : State} (h : fillBuf p v s = .next t) :
    p < s.ports.length ∧ (s.port p).busy = false ∧ t = s.modPort p (fun q => { q with wbuf := v }) := by
  unfold fillBuf at h
  split_ifs at h with hp hb
  cases h
  exact ⟨hp, by simpa using hb, rfl⟩

/-- What taking the first of `events` can make of a state; `unstaged` where that is a register access. -/
theorem fetchEvent_stepped {s t : State} (fetched : fetch s = fetchEvent s)
    (unstaged : s.cutNext = false → s.eng.staged = none) (h : step s = .next t) : Stepped s t := by
  rw [step, fetched, fetchEvent] at h
  cases listed : s.events with
  | nil => rw [listed] at h; cases h; rw [← listed]; exact .free listed
  | cons ev es =>
    rw [listed] at h
    cases ev with
    | env e => cases h; exact .move listed
    | write n v =>
      dsimp only at h
      cases command : cmdPort n with
      | some p =>
        rw [command] at h
        dsimp only at h
        cases decoded : decodeCmd v with
        | some i => rw [decoded] at h; exact .descriptor listed command decoded h
        | none => rw [decoded] at h; exact .illegal listed command decoded h
      | none =>
        rw [command] at h
        exact .write (unstaged (by rw [State.cutNext, listed])) listed h
    | read n => obtain ⟨v, rfl⟩ := answer_next h; exact .read
    | fill p v => obtain ⟨hp, hb, rfl⟩ := fillBuf_next h; exact .fill listed hp hb
    | readBuf p i => obtain ⟨v, rfl⟩ := answer_next h; exact .read
    | reset cut => cases h; exact .reset listed

/-- A faulted state makes no step (log 10). -/
theorem step_faulted {s : State} (h : s.faulted = true) : step s = .fault .corruptHeader := by
  rw [step, fetch, if_pos h]

/-- What a step does is one of these. -/
theorem step_stepped {s t : State} (h : step s = .next t) : s.faulted = false ∧ Stepped s t := by
  cases faulted : s.faulted with
  | true => rw [step_faulted faulted] at h; cases h
  | false =>
    refine ⟨rfl, ?_⟩
    cases cut : s.cutNext with
    | true => exact fetchEvent_stepped (fetch_cut faulted cut) (fun hc => by rw [hc] at cut; cases cut) h
    | false =>
      cases staged : s.eng.staged with
      | none => exact fetchEvent_stepped (fetch_listening ⟨staged, faulted⟩) (fun _ => staged) h
      | some w =>
        rw [step, fetch, faulted, staged, cut] at h
        cases decoded : decodeWire s.params.ctrl w with
        | some i => simp only [decoded] at h; exact .frame staged decoded h
        | none => simp [decoded] at h

end Sys2Proof.Machine
end

section
/-! SUPPORT and the proof of O54, O53: every step keeps the machine invariant. The state's operations first,
then a turn, the environment's moves, an instruction, and the step. -/

namespace Sys2Proof.Machine

/-! ### The canonical form of memory -/

/-- The chip's reaction to a byte of a frame keeps the canonical form. -/
theorem frameStore_wf {P : Params} {clocked : Bool} {m : Memory} {bsb : Bsb} {off : Word} {n i : Nat} {v : Byte}
    (h : m.wf = true) (hi : off.toNat + i < 65536) : (frameStore P clocked m bsb off n i v).wf = true := by
  unfold frameStore
  split
  · exact chipStore_wf h (chipAddr_lt hi)
  · exact h

/-- What a cut frame leaves at its locations keeps the canonical form. -/
theorem cutWrite_wf {cut : List Byte} {free a n : Nat} {m : Memory} (h : m.wf = true) (ha : a + n ≤ 32 * 65536) :
    (cutWrite cut free a n m).wf = true := by
  induction n with
  | zero => exact h
  | succ n ih => exact Memory.wf_set (ih (by omega)) (by omega)

/-- The end of a frame's span within its block (20_memory.md R60). -/
theorem chipAddr_span {bsb : Bsb} {off : Word} {n : Nat} (h : off.toNat + n ≤ 65536) :
    chipAddr bsb off 0 + n ≤ 32 * 65536 := by
  have := bsb.isLt
  simp only [chipAddr, Config.blockSize]; omega

/-! ### Ports -/

/-- A port after reset is calm. -/
theorem reset_calm (P : Params) : Port.reset.calm P := ⟨fun _ => ⟨rfl, rfl⟩, nofun, by decide⟩

/-- A port of the machine after a change of one port is the changed one or a port from before. -/
theorem mem_modPort {s : State} {p : Nat} {f : Port → Port} {q : Port} (h : q ∈ (s.modPort p f).ports) :
    q = f (s.port p) ∨ q ∈ s.ports := by
  obtain ⟨i, hi⟩ := List.mem_iff_getElem?.mp h
  rw [modPort_ports, List.getElem?_modify] at hi
  cases hq : s.ports[i]? with
  | none => simp [hq] at hi
  | some r =>
    simp only [hq, Option.map_eq_map, Option.map_some, Option.some.injEq] at hi
    split at hi
    · next hp => subst hp; exact .inl (by simpa [State.port, hq] using hi.symm)
    · exact .inr (List.mem_of_getElem? (hq.trans (congrArg some hi)))

/-- Every port of a block that was reset is as after reset. -/
theorem mem_resetBlock {cut : List Byte} {s : State} {q : Port} (h : q ∈ (resetBlock cut s).ports) :
    q = Port.reset := by
  obtain ⟨r, -, rfl⟩ := List.mem_map.mp h
  rfl

section Inv

variable {s : State}

theorem State.Inv.calm (h : s.Inv) : ∀ q ∈ s.ports, q.calm s.params := fun q hq =>
  ⟨h.rest q hq, h.asking q hq, h.status q hq⟩

theorem State.Inv.port_calm (h : s.Inv) (p : Nat) : (s.port p).calm s.params := by
  unfold State.port
  cases hq : s.ports[p]? with
  | none => exact reset_calm _
  | some q => exact h.calm q (List.mem_of_getElem? hq)

/-- A port that asks for the lock or waits is busy. -/
theorem State.Inv.busy_of_waiting (h : s.Inv) {p : Nat} (hw : (s.port p).act ≠ .rest) : (s.port p).busy = true := by
  by_contra hb
  exact hw ((h.port_calm p).1 (by simpa using hb)).2

/-- A port that runs an operation exists. -/
theorem port_exists {p : Nat} (h : (s.port p).busy = true) : p < s.ports.length := by
  by_contra hp
  simp [State.port, List.getElem?_eq_none (Nat.not_lt.mp hp), Port.reset] at h

/-- The trace, the flag `MORE` and the model's own fields are not in the invariant. -/
theorem State.Inv.bookkeeping (h : s.Inv) (more : Bool) (trace : List Frame) (events : List Event) (sel : Nat)
    (hostData : BitVec 64) (free : Nat) :
    { s with more := more, trace := trace, events := events, sel := sel, hostData := hostData, free := free }.Inv :=
  { h with }

/-- The ports may change to calm ones. -/
theorem State.Inv.withPorts (h : s.Inv) {ports : List Port} (hl : ports.length = s.ports.length)
    (hc : ∀ q ∈ ports, q.calm s.params) : { s with ports := ports }.Inv :=
  { h with
    owner := fun hh => hl ▸ h.owner hh
    rest := fun q hq => (hc q hq).1
    asking := fun q hq => (hc q hq).2.1
    status := fun q hq => (hc q hq).2.2 }

/-- One port may change to a calm one. -/
theorem State.Inv.modPort (h : s.Inv) {p : Nat} {f : Port → Port} (hf : (f (s.port p)).calm s.params) :
    (s.modPort p f).Inv :=
  h.withPorts (length_modPort _ _ _) fun q hq => (mem_modPort hq).elim (fun e => e ▸ hf) (h.calm q)

/-- A busy port may do anything that writes its registers and `MORE` alone. -/
theorem State.Inv.portOnly (h : s.Inv) {p : Nat} {t : State} (ht : PortOnly p s t) (hb : (s.port p).busy = true) :
    t.Inv := by
  obtain ⟨f, m, rfl, hf⟩ := ht
  exact (h.modPort (hf _ hb (h.port_calm p))).bookkeeping m _ _ _ _ _

theorem State.Inv.raise (h : s.Inv) (p : Nat) {e : Status} (he : e ≠ .unsupported) : (raise p e s).Inv :=
  h.modPort (ended_calm (P := s.params) he (s.port p))

/-- Delivering the answer of a call: a port that is not busy has no step pending (10_state.md R26). -/
theorem State.Inv.proceed (h : s.Inv) (p : Nat) (d : List Byte) : (proceed p d s).Inv := by
  cases hb : (s.port p).busy with
  | true => exact h.portOnly (proceed_portOnly p d s) hb
  | false =>
    rw [Machine.proceed, ((h.port_calm p).1 hb).1]
    exact h

/-! ### The memory, the configuration and the engine -/

/-- The chip's memory may take any other canonical form. -/
theorem State.Inv.withMem (h : s.Inv) {m : Memory} (hm : m.wf = true) : { s with mem := m }.Inv := { h with mem := hm }

/-- The configuration may change where an enabled block keeps its clock in range (40_transport.md R141). -/
theorem State.Inv.withCfg (h : s.Inv) {c : Cfg} (hc : c.Gated s.params) :
    { s with cfg := c }.Inv := { h with clock := hc }

/-- No frame is staged while one is in progress. -/
theorem State.Inv.unstaged (h : s.Inv) (on : s.eng.ph ≠ .idle) : s.eng.staged = none := by
  cases hs : s.eng.staged with
  | none => rfl
  | some w => exact absurd (h.staged w hs).1 on

/-- Chip select inactive and the lock released, whatever the frame was (40_transport.md R135, R138). -/
theorem State.Inv.closeFrame (h : s.Inv) (whole : Bool) : (closeFrame whole s).Inv :=
  { h with
    bus := by simp [Machine.closeFrame]
    owner := nofun
    csn := by simp [Machine.closeFrame]
    frame := fun on => absurd rfl on
    staged := nofun }

/-- The lock is granted to a port that asks for it (40_transport.md R133). -/
theorem State.Inv.grant (h : s.Inv) {p : Nat} {c : Call} (free : s.lock.held = false)
    (asks : (s.port p).act = .asking c) : (grant p c s).Inv := by
  have busy := h.busy_of_waiting (p := p) (by simp [asks])
  have idle : s.eng.ph = .idle := by
    by_contra on
    simp [h.bus.mpr (.inl on)] at free
  obtain ⟨hn, hm, hspan⟩ := xferArgsOk_bounds ((h.port_calm p).2.1 c asks)
  have calm : ({ s.port p with act := .rest } : Port).calm s.params :=
    ⟨fun hb => absurd hb (by simp [busy]), nofun, (h.port_calm p).2.2⟩
  exact
    { h.modPort (f := fun q => { q with act := .rest }) calm with
      bus := by simp [Machine.grant]
      owner := fun _ => by simpa [Machine.grant] using port_exists busy
      csn := h.csn
      sclk := h.sclk
      frame := fun on => absurd idle on
      staged := fun w hw => by
        cases hw
        exact ⟨idle, hn, hm, c.dir, c.bsb, c.off, rfl, hspan⟩ }

/-- A frame of 1 to 65535 bytes within its block opens while the lock is held (40_transport.md R138). -/
theorem State.Inv.openFrame (h : s.Inv) {dir : Dir} {bsb : Bsb} {off : Word} (held : s.lock.held = true)
    (hn : 0 < s.eng.count) (hm : s.eng.count ≤ 65535) (hspan : off.toNat + s.eng.count ≤ 65536) :
    (openFrame dir bsb off s).Inv := by
  obtain ⟨bit, sho, mosi, hs⟩ := openFrame_spec dir bsb off s
  rw [hs]
  exact
    { h with
      mem := openMem_wf h.mem
      bus := by simp [held]
      csn := by simp
      frame := fun _ => ⟨⟨hn, hm, hspan, fun _ => by simp, nofun⟩, rfl⟩
      staged := nofun }

/-- A byte turn goes on with the frame in progress: the address, the count and chip select are kept, the
clock is low again, and `ENG.IDX` counts within its phase (10_state.md R24, R25; 40_transport.md R139). -/
theorem State.Inv.byteSent (h : s.Inv) (on : s.eng.ph ≠ .idle) {m : Memory} {e : Engine} {f : Nat} (wf : m.wf = true)
    (carries : e.Carries s.params.ctrl s.eng.dir s.eng.bsb s.eng.off s.eng.count s.eng.data) (sclk : e.sclk = false)
    (ph : e.ph ≠ .idle) (inHdr : e.ph = .hdr → e.idx.toNat < 3) (inData : e.ph = .data → e.idx.toNat < s.eng.count) :
    { s with mem := m, eng := e, free := f }.Inv := by
  obtain ⟨⟨hn, hm, hspan, -, -⟩, -⟩ := h.frame on
  exact
    { h with
      mem := wf
      bus := by simp [h.bus.mpr (.inl on), ph]
      csn := by simp [carries.csn, ph]
      sclk := sclk
      frame := fun _ => by
        rw [Engine.bounded, carries.hdr, carries.dir, carries.bsb, carries.off, carries.count]
        exact ⟨⟨hn, hm, hspan, inHdr, inData⟩, rfl⟩
      staged := fun w hw => by simp [carries.staged] at hw }

/-- The frame in progress is the one of its address. -/
theorem State.Inv.carries (h : s.Inv) (on : s.eng.ph ≠ .idle) :
    s.eng.Carries s.params.ctrl s.eng.dir s.eng.bsb s.eng.off s.eng.count s.eng.data where
  hdr := (h.frame on).2
  dir := rfl
  bsb := rfl
  off := rfl
  count := rfl
  data := rfl
  staged := h.unstaged on
  csn := by simpa using mt h.csn.mp on

/-- One header byte (10_state.md R25). -/
theorem State.Inv.headerTurn (h : s.Inv) (ph : s.eng.ph = .hdr) : (headerTurn s).Inv := by
  have on : s.eng.ph ≠ .idle := by simp [ph]
  obtain ⟨⟨hn, -, -, -, -⟩, -⟩ := h.frame on
  obtain ⟨bit, sho, shi, mosi, hs⟩ := headerTurn_spec s
  rw [hs]
  refine h.byteSent on h.mem ((h.carries on).of_eq rfl rfl rfl rfl rfl rfl rfl rfl) rfl ?_ ?_ ?_ <;> dsimp only <;>
    split
  · simp [ph]
  · simp
  · next hi => intro; rw [idx_succ (n := 4) (by omega) (by omega)]; omega
  · nofun
  · simp [ph]
  · exact fun _ => hn

/-- After a payload byte the index counts within the payload (10_state.md R25). -/
theorem advance_idx_lt {e : Engine} (hm : e.count ≤ 65535) (hph : (advance e).ph = .data) :
    (advance e).idx.toNat < e.count := by
  rw [advance_ph] at hph
  rw [advance_idx_toNat e hm]
  split at hph
  · next hi => rw [if_pos hi]; exact hi
  · cases hph

/-- After a payload byte the phase is DATA or END. -/
theorem advance_ph_cases {e : Engine} (hd : e.ph = .data) : (advance e).ph = .data ∨ (advance e).ph = .finish := by
  rw [advance_ph, hd]; split <;> simp

/-- One payload byte, after which the engine is `e`: as `advance` leaves an engine of the same frame, but for
the serial registers and the bytes so far. -/
theorem State.Inv.payloadTurn (h : s.Inv) (ph : s.eng.ph = .data) {m : Memory} {e : Engine} {f : Nat} (wf : m.wf = true)
    (carries : e.Carries s.params.ctrl s.eng.dir s.eng.bsb s.eng.off s.eng.count s.eng.data) (sclk : e.sclk = false)
    (hph : e.ph = (advance s.eng).ph) (hidx : e.idx = (advance s.eng).idx) : { s with mem := m, eng := e, free := f }.Inv := by
  have on : s.eng.ph ≠ .idle := by simp [ph]
  obtain ⟨⟨-, hm, -, -, -⟩, -⟩ := h.frame on
  have next := advance_ph_cases ph
  rw [← hph] at next
  refine h.byteSent on wf carries sclk ?_ ?_ fun hd => ?_
  · exact next.elim (fun hd => by simp [hd]) (fun hf => by simp [hf])
  · exact next.elim (fun hd => by simp [hd]) (fun hf => by simp [hf])
  · rw [hidx]; exact advance_idx_lt hm (hph ▸ hd)

theorem State.Inv.readTurn (h : s.Inv) (ph : s.eng.ph = .data) : (readTurn s).Inv := by
  obtain ⟨bit, sho, shi, mosi, hs⟩ := readTurn_spec s
  rw [hs]
  exact h.payloadTurn ph h.mem
    ((h.carries (by simp [ph])).of_eq (by simp) (by simp) (by simp) (by simp) (by simp) (by simp) (by simp) (by simp))
    rfl (by simp) (by simp)

theorem State.Inv.writeTurn (h : s.Inv) (ph : s.eng.ph = .data) : (writeTurn s).Inv := by
  have on : s.eng.ph ≠ .idle := by simp [ph]
  obtain ⟨⟨-, -, hspan, -, hidx⟩, -⟩ := h.frame on
  obtain ⟨bit, sho, shi, mosi, hs⟩ := writeTurn_spec s
  rw [hs]
  have hi : s.eng.off.toNat + s.eng.idx.toNat < 65536 := by have := hidx ph; omega
  exact h.payloadTurn ph (frameStore_wf h.mem hi)
    ((h.carries on).of_eq (by simp) (by simp) (by simp) (by simp) (by simp) (by simp) (by simp) (by simp))
    rfl rfl rfl

/-! ### A turn, a move, an instruction, a step -/

theorem State.Inv.turn (h : s.Inv) (p : Nat) : (turn p s).Inv := by
  have ht := turn_turned p s
  generalize Machine.turn p s = t at ht ⊢
  cases ht with
  | nothing => exact h
  | opens held own ph staged target =>
    obtain ⟨-, hn, hm, dir, bsb, off, rfl, hspan⟩ := h.staged _ staged
    rw [wireTarget_header h.layout] at target
    cases target
    exact h.openFrame held hn hm hspan
  | header held own ph => exact h.headerTurn ph
  | reads held own ph dir => exact h.readTurn ph
  | writes held own ph dir => exact h.writeTurn ph
  | closes held own ph => exact (h.closeFrame true).proceed p _
  | grants free asks => exact h.grant free asks
  | waits waiting only more => exact h.portOnly only (h.busy_of_waiting waiting)

theorem State.Inv.failFrame (h : s.Inv) : (failFrame s).Inv := by
  unfold Machine.failFrame giveUp
  split
  · split
    · exact h.closeFrame false
    · exact (h.closeFrame false).raise _ (by decide)
  · exact h

theorem State.Inv.expire (h : s.Inv) (p : Nat) : (expire p s).Inv := by
  unfold Machine.expire
  split
  · exact h
  · split
    · exact h.raise p (by decide)
    · exact h
  · exact h.raise p (by decide)

theorem State.Inv.applyEnv (h : s.Inv) (e : Env) : (applyEnv e s).Inv :=
  applyEnv_keeps (fun p _ h => h.turn p) (fun _ _ _ ha h => h.withMem (Memory.wf_set h.mem ha))
    (fun _ h => h.failFrame) (fun p _ h => h.expire p) e s h

theorem State.Inv.drive (h : s.Inv) (going : State → Bool) : (drive going s).Inv :=
  drive_keeps (fun _ _ h => h.bookkeeping _ _ _ _ _ _) (fun e _ h => h.applyEnv e) going h

/-- The start of an operation on an idle port (30_encoding.md R108). -/
theorem State.Inv.issued (h : s.Inv) (idle : (s.port s.sel).busy = false) (d : Descriptor) : (issued d s).Inv :=
  have calm := h.port_calm s.sel
  h.modPort ⟨nofun, fun c hc => by simp [Port.started, latch, (calm.1 idle).2] at hc, calm.2.2⟩

theorem State.Inv.exec (h : s.Inv) {i : Instr} {t : State} (ht : exec i s = .next t) : t.Inv := by
  cases exec_executed ht with
  | busy port busy => exact h
  | disabled port idle en => exact h.modPort ⟨fun _ => ⟨rfl, rfl⟩, nofun, by simp [Port.afterError, Port.after]⟩
  | started port idle en =>
    exact ((h.issued idle _).portOnly (start_portOnly _ _ _) (issued_busy port)).drive _
  | frame held ph args =>
    obtain ⟨hn, hm, hspan⟩ := xferArgsOk_bounds args
    exact (h.openFrame held hn hm hspan).drive _

/-- A descriptor that matches no row ends its operation at once (30_encoding.md R112). -/
theorem State.Inv.issueIllegal (h : s.Inv) {d : Descriptor} {t : State} (ht : issueIllegal d s = .next t) :
    t.Inv := by
  unfold Machine.issueIllegal at ht
  split_ifs at ht with hp hb <;> cases ht
  · exact h
  · exact (h.issued (by simpa using hb) d).raise _ (by decide)

/-- The reset input (10_state.md R37, R38). -/
theorem State.Inv.resetBlock (h : s.Inv) (cut : List Byte) : (resetBlock cut s).Inv where
  mem := by
    unfold Machine.resetBlock
    dsimp only
    split
    · exact h.mem
    · next on =>
      obtain ⟨⟨-, -, hspan, -, -⟩, -⟩ := h.frame on
      exact cutWrite_wf h.mem (chipAddr_span hspan)
  layout := h.layout
  bus := by simp [Machine.resetBlock, Engine.reset]
  owner := nofun
  csn := by simp [Machine.resetBlock, Engine.reset]
  sclk := rfl
  frame := fun on => absurd rfl on
  staged := nofun
  rest := fun q hq => (mem_resetBlock hq ▸ reset_calm s.params).1
  asking := fun q hq => (mem_resetBlock hq ▸ reset_calm s.params).2.1
  status := fun q hq => (mem_resetBlock hq ▸ reset_calm s.params).2.2
  clock := nofun

end Inv

/-- Settles O54: from the invariant every kind of step leads to the invariant. -/
theorem stepKeepsTheInvariant : Obligations.StepKeepsTheInvariant := by
  intro s t h ht
  cases (step_stepped ht).2 with
  | frame staged decoded run => exact h.exec run
  | free listed => exact (h.bookkeeping _ _ _ _ _ _).applyEnv _
  | move listed => exact (h.bookkeeping _ _ _ _ _ _).applyEnv _
  | descriptor listed command decoded run => exact (h.bookkeeping _ _ _ _ _ _).exec run
  | illegal listed command illegal run => exact (h.bookkeeping _ _ _ _ _ _).issueIllegal run
  | write unstaged listed run =>
    obtain ⟨c, rfl, -, gated⟩ := regWrite_next run
    exact (h.bookkeeping _ _ _ _ _ _).withCfg (gated h.clock)
  | read => exact h.bookkeeping _ _ _ _ _ _
  | fill listed port idle => exact (h.bookkeeping _ _ _ _ _ _).modPort (h.port_calm _)
  | reset listed => exact (h.bookkeeping _ _ _ _ _ _).resetBlock _

/-- Settles O53: a free lock, an engine at rest, idle ports, a disabled block. -/
theorem invariantHoldsAtReset : Obligations.InvariantHoldsAtReset where
  mem := rfl
  layout := by decide
  bus := by simp [State.reset, Engine.reset]
  owner := nofun
  csn := by simp [State.reset, Engine.reset]
  sclk := rfl
  frame := fun on => absurd rfl on
  staged := nofun
  rest := by simp [State.reset, Port.reset]
  asking := by simp [State.reset, Port.reset]
  status := by simp [State.reset, Port.reset]
  clock := nofun

end Sys2Proof.Machine
end

section
/-! SUPPORT and the proofs of O29, O52, O57 and O9: what the phases, `MORE`, the configuration and the reset
input do. -/

namespace Sys2Proof.Machine

/-! ### What a byte turn leaves unchanged -/

section ByteTurns

variable (s : State)

@[simp] theorem headerTurn_more : (headerTurn s).more = s.more := by simp only [headerTurn]
@[simp] theorem headerTurn_cfg : (headerTurn s).cfg = s.cfg := by simp only [headerTurn]
@[simp] theorem headerTurn_params : (headerTurn s).params = s.params := by simp only [headerTurn]
@[simp] theorem readTurn_more : (readTurn s).more = s.more := by simp only [readTurn]
@[simp] theorem readTurn_cfg : (readTurn s).cfg = s.cfg := by simp only [readTurn]
@[simp] theorem readTurn_params : (readTurn s).params = s.params := by simp only [readTurn]
@[simp] theorem writeTurn_more : (writeTurn s).more = s.more := by simp only [writeTurn]
@[simp] theorem writeTurn_cfg : (writeTurn s).cfg = s.cfg := by simp only [writeTurn]
@[simp] theorem writeTurn_params : (writeTurn s).params = s.params := by simp only [writeTurn]

end ByteTurns

/-! ### The phases -/

/-- Settles O29: only opening a frame, its third header byte, its last payload byte and its end change the
phase. -/
theorem phasesFollowTheFixedOrder : Obligations.PhasesFollowTheFixedOrder := by
  intro p s
  have ht := turn_turned p s
  generalize turn p s = t at ht ⊢
  cases ht with
  | nothing => exact .inl rfl
  | opens held own ph staged target =>
    obtain ⟨bit, sho, mosi, hs⟩ := openFrame_spec _ _ _ s
    exact .inr (.inl ⟨ph, by rw [hs]⟩)
  | header held own ph =>
    obtain ⟨bit, sho, shi, mosi, hs⟩ := headerTurn_spec s
    rw [hs]
    by_cases hi : s.eng.idx.toNat < 2
    · exact .inl (if_pos hi)
    · exact .inr (.inr (.inl ⟨ph, if_neg hi⟩))
  | reads held own ph dir =>
    obtain ⟨bit, sho, shi, mosi, hs⟩ := readTurn_spec s
    have next := advance_ph_cases (e := collect s.params (s.mem.read (chipAddr s.eng.bsb s.eng.off s.eng.idx.toNat)) s.eng)
      (by rw [collect_ph]; exact ph)
    rw [hs]
    exact next.elim (fun hd => .inl (hd.trans ph.symm)) (fun hf => .inr (.inr (.inr (.inl ⟨ph, hf⟩))))
  | writes held own ph dir =>
    obtain ⟨bit, sho, shi, mosi, hs⟩ := writeTurn_spec s
    rw [hs]
    exact (advance_ph_cases ph).elim (fun hd => .inl (hd.trans ph.symm))
      (fun hf => .inr (.inr (.inr (.inl ⟨ph, hf⟩))))
  | closes held own ph => exact .inr (.inr (.inr (.inr ⟨ph, by rw [proceed_eng]; rfl⟩)))
  | grants free asks => exact .inl rfl
  | waits waiting only more => exact .inl (congrArg Engine.ph only.eng)

/-! ### `MORE` -/

section More

variable (p : Nat) (s : State)

@[simp] theorem readCall_more (bsb : Bsb) (off : Word) (n : Nat) (seq : Seq) :
    (readCall p bsb off n seq s).more = s.more := xcall_more _ _ _ _

@[simp] theorem writeCall_more (bsb : Bsb) (off : Word) (v : List Byte) (seq : Seq) :
    (writeCall p bsb off v seq s).more = s.more := xcall_more _ _ _ _

theorem ringRd_more {win : Bsb} {off : Word} {n : Nat} {k : RdCont} {empty : State → State}
    (h : (empty s).more = s.more) : (ringRd p win off n k empty s).more = s.more := by
  unfold ringRd; split_ifs <;> simp [h]

theorem ringWr_more {win : Bsb} {off : Word} {v : List Byte} {k : WrCont} {empty : State → State}
    (h : (empty s).more = s.more) : (ringWr p win off v k empty s).more = s.more := by
  unfold ringWr; split_ifs <;> simp [h]

@[simp] theorem sizeRetry_more (reg : Word) (r : Nat) (k : SizeCont) : (sizeRetry p reg r k s).more = s.more := by
  unfold sizeRetry sizeStart
  split
  · simp
  · split <;> simp

@[simp] theorem rxHeaderKnown_more (rsr rd hv : Word) : (rxHeaderKnown p rsr rd hv s).more = s.more := by
  unfold rxHeaderKnown
  split
  · exact ringRd_more p s (writeCall_more _ _ _ _ _ _)
  · rfl

@[simp] theorem ringRdDone_more (k : RdCont) (d : List Byte) : (ringRdDone p k d s).more = s.more := by
  cases k with
  | own => rfl
  | rxHeader rsr rd => exact rxHeaderKnown_more _ _ _ _ _
  | rxPayload rsr rd hv => exact writeCall_more _ _ _ _ _ _

@[simp] theorem ringWrDone_more (k : WrCont) : (ringWrDone p k s).more = s.more := by
  cases k with
  | own => rfl
  | tx wr len => exact writeCall_more _ _ _ _ _ _

@[simp] theorem sizeDone_more (k : SizeCont) (v : Word) : (sizeDone p k v s).more = s.more := by
  cases k with
  | own => rfl
  | tx len => unfold sizeDone txFreeKnown; dsimp only; split <;> simp
  | rx => unfold sizeDone rxSizeKnown; dsimp only; split <;> simp

@[simp] theorem txPolled_more (r : Nat) (v : Byte) : (txPolled p r v s).more = s.more := by
  unfold txPolled txLiveCall txPollCall; split_ifs <;> simp

/-- An accepted command of RX.DEQ sets `MORE` where bytes remain (43_fifo_sequences.md R236); no other changes
it. -/
theorem cmdDone_more (k : CmdCont) : (cmdDone p k s).more = s.more ∨
    ((cmdDone p k s).more = true ∧ ∃ rsr hv d, k = .rx rsr hv d ∧ hv.toNat < rsr.toNat) := by
  cases k with
  | own => exact .inl rfl
  | tx => exact .inl (readCall_more _ _ _ _ _ _)
  | rx rsr hv d =>
    by_cases h : hv.toNat < rsr.toNat
    · exact .inr ⟨if_pos h, rsr, hv, d, rfl, h⟩
    · exact .inl (if_neg h)

/-- Delivering the answer of a call changes `MORE` only for the last poll of an RX.DEQ with bytes remaining
(10_state.md R28). -/
theorem proceed_more (d : List Byte) : (proceed p d s).more = s.more ∨
    ((proceed p d s).more = true ∧
      ∃ t tmo rsr hv v, (s.port p).seq = .cmdPoll t tmo (.rx rsr hv v) ∧ hv.toNat < rsr.toNat) := by
  rw [proceed]
  cases (s.port p).seq with
  | cmdPoll t tmo k =>
    dsimp only
    split_ifs
    · refine (cmdDone_more p s k).imp id fun ⟨hm, rsr, hv, v, hk, hlt⟩ => ⟨hm, t, tmo, rsr, hv, v, ?_, hlt⟩
      rw [hk]
    · left; unfold cmdMissed; split <;> rfl
  | none => exact .inl rfl
  | xferRd => exact .inl rfl
  | xferWr => exact .inl rfl
  | txClear => exact .inl rfl
  | ringRdWhole k => exact .inl (ringRdDone_more _ _ _ _)
  | ringRdHead tail k => exact .inl (ringRdDone_more _ _ _ _)
  | ringWrWhole k => exact .inl (ringWrDone_more _ _ _)
  | ringWrHead k => exact .inl (ringWrDone_more _ _ _)
  | sizeSecond reg a r k => left; dsimp only; split <;> simp
  | txPoll r => exact .inl (txPolled_more _ _ _ _)
  | txLive r => left; dsimp only [txLived]; split <;> simp [txPollCall]
  | txPtr len => exact .inl (ringWr_more _ _ (writeCall_more _ _ _ _ _ _))
  | rxPtr rsr => exact .inl (ringRd_more _ _ (rxHeaderKnown_more _ _ _ _ _))
  | _ => exact .inl (xcall_more _ _ _ _)

/-- The start of an operation changes `MORE` only for RX.DEQ (43_fifo_sequences.md R230). -/
theorem start_more {i : Instr} (hi : i ≠ .rxDeq) : (start i p s).more = s.more := by
  cases i with
  | wireRd bsb off => rfl
  | wireWr bsb off => rfl
  | bufRd bsb off len => exact ringRd_more _ _ rfl
  | bufWr bsb off len => exact ringWr_more _ _ rfl
  | txEnq len => dsimp only [start]; split <;> simp [sizeStart]
  | rxDeq => exact absurd rfl hi
  | _ => exact xcall_more _ _ _ _

end More

/-- Settles O52: only the delivery of an answer can change `MORE` within a turn, and an instruction with nothing
listed next takes no turn. -/
theorem moreIsWrittenByRxDeqAlone : Obligations.MoreIsWrittenByRxDeqAlone := by
  refine ⟨fun p s hm => ?_, fun i s t hev hi ht => ?_⟩
  · have ht := turn_turned p s
    generalize turn p s = t at ht hm ⊢
    cases ht with
    | closes held own ph =>
      obtain h | ⟨hm', t, tmo, rsr, hv, d, hseq, hlt⟩ :=
        proceed_more p (closeFrame true s) (rdataOf s.params s.eng)
      · exact absurd h hm
      · exact ⟨hm', held, own, t, tmo, rsr, hv, d, hseq, hlt⟩
    | waits waiting only more => exact absurd more hm
    | nothing => exact absurd rfl hm
    | opens held own ph staged target => exact absurd rfl hm
    | header held own ph => exact absurd (headerTurn_more s) hm
    | reads held own ph dir => exact absurd (readTurn_more s) hm
    | writes held own ph dir => exact absurd (writeTurn_more s) hm
    | grants free asks => exact absurd rfl hm
  · cases exec_executed ht with
    | busy port busy => rfl
    | disabled port idle en => rfl
    | @started d port idle en =>
      have he : (start i s.sel (issued d s)).events = [] := (start_portOnly i s.sel (issued d s)).events.trans hev
      rw [drive_nil he, start_more _ _ hi]; rfl
    | frame held ph args => rw [drive_nil (by exact hev)]; rfl

/-! ### The configuration and the parameters -/

/-- The configuration and the parameters of `t` are those of `s`. -/
structure SameConfig (s t : State) : Prop where
  cfg : t.cfg = s.cfg
  params : t.params = s.params

theorem SameConfig.trans {s t u : State} (h : SameConfig s t) (h' : SameConfig t u) : SameConfig s u :=
  ⟨h'.cfg.trans h.cfg, h'.params.trans h.params⟩

theorem PortOnly.sameConfig {p : Nat} {s t : State} (h : PortOnly p s t) : SameConfig s t := ⟨h.cfg, h.params⟩

theorem turn_sameConfig (p : Nat) (s : State) : SameConfig s (turn p s) := by
  have ht := turn_turned p s
  generalize turn p s = t at ht ⊢
  cases ht with
  | nothing => exact ⟨rfl, rfl⟩
  | opens held own ph staged target => exact ⟨rfl, rfl⟩
  | header held own ph => exact ⟨headerTurn_cfg s, headerTurn_params s⟩
  | reads held own ph dir => exact ⟨readTurn_cfg s, readTurn_params s⟩
  | writes held own ph dir => exact ⟨writeTurn_cfg s, writeTurn_params s⟩
  | closes held own ph => exact ⟨proceed_cfg _ _ _, proceed_params _ _ _⟩
  | grants free asks => exact ⟨rfl, rfl⟩
  | waits waiting only more => exact only.sameConfig

theorem failFrame_sameConfig (s : State) : SameConfig s (failFrame s) := by
  unfold failFrame giveUp
  split
  · split <;> exact ⟨rfl, rfl⟩
  · exact ⟨rfl, rfl⟩

theorem applyEnv_sameConfig (e : Env) (s : State) : SameConfig s (applyEnv e s) :=
  applyEnv_keeps (fun p t h => h.trans (turn_sameConfig p t)) (fun _ _ _ _ h => h.trans ⟨rfl, rfl⟩)
    (fun t h => h.trans (failFrame_sameConfig t)) (fun p t h => h.trans (PortOnly.expire p t).sameConfig) e s ⟨rfl, rfl⟩

theorem drive_sameConfig (going : State → Bool) (s : State) : SameConfig s (drive going s) :=
  drive_keeps (fun _ _ h => h.trans ⟨rfl, rfl⟩) (fun e t h => h.trans (applyEnv_sameConfig e t)) going ⟨rfl, rfl⟩

theorem exec_sameConfig {i : Instr} {s t : State} (ht : exec i s = .next t) : SameConfig s t := by
  cases exec_executed ht with
  | busy port busy => exact ⟨rfl, rfl⟩
  | disabled port idle en => exact ⟨rfl, rfl⟩
  | @started d port idle en =>
    exact .trans (t := issued d s) ⟨rfl, rfl⟩ ((start_portOnly _ _ _).sameConfig.trans (drive_sameConfig _ _))
  | @frame dir bsb off held ph args =>
    exact .trans (t := openFrame dir bsb off s) ⟨rfl, rfl⟩ (drive_sameConfig _ _)

theorem issueIllegal_sameConfig {d : Descriptor} {s t : State} (ht : issueIllegal d s = .next t) : SameConfig s t := by
  unfold issueIllegal at ht
  split_ifs at ht <;> cases ht <;> exact ⟨rfl, rfl⟩

/-- Settles O57: of the steps only a register write and the reset input write the configuration. -/
theorem configurationChangesByRegisterWritesOnly : Obligations.ConfigurationChangesByRegisterWritesOnly := by
  refine ⟨fun i s t ht => ⟨(exec_sameConfig ht).cfg, (exec_sameConfig ht).params⟩, fun s t ht => ?_⟩
  obtain ⟨faulted, hs⟩ := step_stepped ht
  have same : SameConfig s t → t.params = s.params ∧ (t.cfg ≠ s.cfg → s.faulted = false ∧
      ((s.eng.staged = none ∧ ∃ n v rest, s.events = .write n v :: rest ∧ n ≤ 7) ∨
        ∃ cut rest, s.events = .reset cut :: rest)) :=
    fun h => ⟨h.params, fun hc => absurd h.cfg hc⟩
  cases hs with
  | frame staged decoded run => exact same (exec_sameConfig run)
  | free listed => exact same ⟨(applyEnv_sameConfig _ _).cfg, (applyEnv_sameConfig _ _).params⟩
  | move listed => exact same ⟨(applyEnv_sameConfig _ _).cfg, (applyEnv_sameConfig _ _).params⟩
  | descriptor listed command decoded run => exact same ⟨(exec_sameConfig run).cfg, (exec_sameConfig run).params⟩
  | illegal listed command illegal run =>
    exact same ⟨(issueIllegal_sameConfig run).cfg, (issueIllegal_sameConfig run).params⟩
  | write unstaged listed run =>
    obtain ⟨c, rfl, low, -⟩ := regWrite_next run
    exact ⟨rfl, fun hc => ⟨faulted, .inl ⟨unstaged, _, _, _, listed, low hc⟩⟩⟩
  | read => exact same ⟨rfl, rfl⟩
  | fill listed port idle => exact same ⟨rfl, rfl⟩
  | reset listed => exact ⟨rfl, fun _ => ⟨faulted, .inr ⟨_, _, listed⟩⟩⟩

/-! ### The reset input -/

/-- What a cut frame leaves lies at the `n` locations of its span (10_state.md R38). -/
theorem cutWrite_read_other {cut : List Byte} {free a n b : Nat} {m : Memory} (h : b < a ∨ a + n ≤ b) :
    (cutWrite cut free a n m).read b = m.read b := by
  induction n with
  | zero => rfl
  | succ n ih => rw [cutWrite, Memory.read_set_other _ _ (by omega), ih (by omega)]

/-- The reset input is taken whatever is staged (log 16). -/
theorem step_reset {s : State} {cut : List Byte} {rest : List Event} (hf : s.faulted = false)
    (he : s.events = .reset cut :: rest) : step s = .next (resetBlock cut { s with events := rest }) := by
  rw [step, fetch_cut hf (by rw [State.cutNext, he]), fetchEvent, he]

/-- Settles O9: the fields of the state that the reset input leads to. -/
theorem resetInputResetsTheBlockNotTheChip : Obligations.ResetInputResetsTheBlockNotTheChip := by
  intro s cut rest hf he
  refine ⟨_, step_reset hf he, rfl, rfl, rfl, rfl, List.length_map _, fun q hq => mem_resetBlock hq, rfl, rfl,
    fun idle => ⟨if_pos idle, if_pos idle⟩, fun on => ⟨fun a ha => ?_, _, if_neg on, rfl, rfl⟩⟩
  have hm : (resetBlock cut { s with events := rest }).mem =
      cutWrite cut s.free (chipAddr s.eng.bsb s.eng.off 0) s.eng.count s.mem := if_neg on
  rw [hm, cutWrite_read_other ha]

end Sys2Proof.Machine
end

section
/-! SUPPORT and the proofs of O8 and O14 to O18: a requester's accesses to the registers and buffers
(10_state.md R20, R22, R30, R31). First what a step makes of each access, then what each access does. -/

namespace Sys2Proof.Machine

/-! ### What a step makes of an access -/

section Access

variable {s : State} {n p i k : Nat} {v : BitVec 64} {w : List Byte} {rest : List Event}

/-- A register that is no `PORT[p].CMD` (10_state.md R30). -/
theorem cmdPort_none (h : n < 19 ∨ n % 4 ≠ 3) : cmdPort n = none := if_neg (by omega)

theorem step_write (hl : s.listening) (he : s.events = .write n v :: rest) (hn : cmdPort n = none) :
    step s = regWrite n v { s with events := rest } := by
  simp only [step, fetch_listening hl, fetchEvent, he, hn]

theorem step_read (hl : s.listening) (he : s.events = .read n :: rest) :
    step s = answer (regRead n s) { s with events := rest } := by
  simp only [step, fetch_listening hl, fetchEvent, he]

theorem step_readBuf (hl : s.listening) (he : s.events = .readBuf p i :: rest) :
    step s = answer (bufRead p i s) { s with events := rest } := by
  simp only [step, fetch_listening hl, fetchEvent, he]

theorem step_fill (hl : s.listening) (he : s.events = .fill p w :: rest) :
    step s = fillBuf p w { s with events := rest } := by
  simp only [step, fetch_listening hl, fetchEvent, he]

/-- A read that is answered changes nothing but the value read. -/
theorem step_read_ok (hl : s.listening) (he : s.events = .read n :: rest) (hr : regRead n s = .ok v) :
    step s = .next { s with events := rest, hostData := v, free := s.free + 1 } := by
  rw [step_read hl he, hr]; rfl

/-- A read that stops. -/
theorem step_read_error {f : Fault} (hl : s.listening) (he : s.events = .read n :: rest)
    (hr : regRead n s = .error f) : step s = .fault f := by
  rw [step_read hl he, hr]; rfl

/-! ### Which registers there are -/

/-- Above `DEV.STATUS` only the registers of the ports exist, and a write of them is ignored. -/
theorem regWrite_high (h : 9 ≤ n) :
    regWrite n v s = if 16 ≤ n ∧ regPort n < s.ports.length then .next s else .fault .noSuchRegister := by
  obtain ⟨m, rfl⟩ := Nat.exists_eq_add_of_le' h
  rfl

/-- The same for a read. -/
theorem regRead_high (h : 9 ≤ n) :
    regRead n s = if 16 ≤ n ∧ regPort n < s.ports.length then portRead (s.port (regPort n)) (n % 4)
      else .error .noSuchRegister := by
  obtain ⟨m, rfl⟩ := Nat.exists_eq_add_of_le' h
  rfl

/-- Register `16 + k + 4p` is register `k` of port `p` (10_state.md R30). -/
theorem regRead_port (hp : p < s.ports.length) (hk : k < 4) :
    regRead (16 + k + 4 * p) s = portRead (s.port p) k := by
  have hm : (16 + k + 4 * p) % 4 = k := by omega
  rw [regRead_high (by omega), regPort_reg p k hk, hm, if_pos ⟨by omega, hp⟩]

theorem regRead_absent (h : (9 ≤ n ∧ n ≤ 15) ∨ 16 + 4 * s.ports.length ≤ n) :
    regRead n s = .error .noSuchRegister := by
  have hn : ¬ (16 ≤ n ∧ regPort n < s.ports.length) := by unfold regPort; omega
  rw [regRead_high (by omega), if_neg hn]

/-! ### Registers that are written while no port is busy -/

theorem anyBusy_of_busy (h : ∃ q ∈ s.ports, q.busy = true) : s.anyBusy = true := List.any_eq_true.mpr h

theorem anyBusy_of_idle (h : ∀ q ∈ s.ports, q.busy = false) : s.anyBusy = false :=
  List.any_eq_false.mpr fun q hq => by simp [h q hq]

/-- The configuration after a write of register `n`, one of 0 and 2 to 7 (10_state.md R30). -/
def Cfg.written (P : Params) (n : Nat) (v : BitVec 64) (c : Cfg) : Cfg :=
  if n = 0 then
    { c with
      fsclk := v.setWidth 8
      en := c.en && decide (P.fMin ≤ (v.setWidth 8).toNat ∧ (v.setWidth 8).toNat ≤ P.fMax) }
  else if n = 2 then { c with lockTmo := v.setWidth 32 }
  else if n = 3 then { c with cmdTmo := v.setWidth 16 }
  else if n = 4 then { c with pollInt := v.setWidth 16 }
  else if n = 5 then { c with txPollMax := v.setWidth 16 }
  else if n = 6 then { c with txPollLive := v.setWidth 16 }
  else { c with maxFrame := v.setWidth 16 }

theorem regWrite_config (hn : n ≤ 7) (h1 : n ≠ 1) :
    regWrite n v s = .next (idleWrite (Cfg.written s.params n v) s) := by
  have fsclk : ∀ c : Cfg, c.writeFsclk s.params (v.setWidth 8) = c.written s.params 0 v := fun c => by
    simp [Cfg.writeFsclk, Cfg.written, clockOk]
  interval_cases n
  · simp only [regWrite, fsclk]
  · exact absurd rfl h1
  all_goals rfl

/-- The enable gate: `EN` = 1 is taken where the clock is in its valid range (10_state.md R31). -/
theorem regWrite_enable (hv : v.getLsbD 0 = true) :
    regWrite 1 v s = .next { s with cfg :=
      if s.params.fMin ≤ s.cfg.fsclk.toNat ∧ s.cfg.fsclk.toNat ≤ s.params.fMax
      then { s.cfg with en := true, cfgErr := false } else { s.cfg with cfgErr := true } } := by
  simp [regWrite, hv, Cfg.writeEn, clockOk]

/-- `EN` = 0 is taken while no port is busy (10_state.md R31). -/
theorem regWrite_disable (hv : v.getLsbD 0 = false) :
    regWrite 1 v s = .next (idleWrite (fun c => { c with en := false }) s) := by
  simp only [regWrite, hv, Cfg.writeEn, idleWrite]
  cases s.anyBusy <;> rfl

theorem idleWrite_busy {f : Cfg → Cfg} (h : ∃ q ∈ s.ports, q.busy = true) :
    idleWrite f { s with events := rest } = { s with events := rest } :=
  if_pos (anyBusy_of_busy h)

theorem idleWrite_idle {f : Cfg → Cfg} (h : ∀ q ∈ s.ports, q.busy = false) :
    idleWrite f { s with events := rest } = { s with events := rest, cfg := f s.cfg } :=
  if_neg (ne_true_of_eq_false (anyBusy_of_idle h))

/-! ### The bits of the status registers -/

/-- `EN` and `CFGERR` in `CFG.CTRL` (10_state.md R30). -/
theorem ctrl_bits : ∀ err en : Bool,
    let r := BitVec.setWidth 64 (BitVec.ofBool err ++ BitVec.ofBool en)
    r.getLsbD 0 = en ∧ r.getLsbD 1 = err ∧ r.extractLsb' 2 62 = 0 := by decide

/-- The fields of `DEV.STATUS` (10_state.md R30). -/
theorem devStatus_bits : ∀ (owner : BitVec 4) (held more : Bool),
    let r := BitVec.setWidth 64 (owner ++ (0#2 ++ (BitVec.ofBool held ++ BitVec.ofBool more)))
    r.getLsbD 0 = more ∧ r.getLsbD 1 = held ∧ r.extractLsb' 2 2 = 0 ∧ r.extractLsb' 4 4 = owner ∧
      r.extractLsb' 8 56 = 0 := by decide

/-- The fields of `PORT[p].STATUS` (10_state.md R30). -/
theorem portStatus_bits : ∀ (code : BitVec 3) (done busy : Bool),
    let r := BitVec.setWidth 64 (code ++ (BitVec.ofBool done ++ BitVec.ofBool busy))
    r.getLsbD 0 = busy ∧ r.getLsbD 1 = done ∧ r.extractLsb' 2 3 = code ∧ r.extractLsb' 5 59 = 0 := by decide

/-! ### Results -/

/-- A result register: of a busy port, with no value, with a value (10_state.md R22). -/
theorem step_resultRead {q : Port} {r : Option Word} (hl : s.listening) (he : s.events = .read n :: rest)
    (hr : regRead n s = resultRead q r) :
    (q.busy = true → step s = .fault .resultWhileBusy) ∧
    (q.busy = false → r = none → step s = .fault .noValue) ∧
    ∀ v, q.busy = false → r = some v →
      step s = .next { s with events := rest, hostData := v.setWidth 64, free := s.free + 1 } := by
  refine ⟨fun hb => ?_, fun hb hn => ?_, fun v hb hv => ?_⟩
  · exact step_read_error hl he (by simp [hr, resultRead, hb])
  · exact step_read_error hl he (by simp [hr, resultRead, hb, hn])
  · exact step_read_ok hl he (by simp [hr, resultRead, hb, hv])

end Access

/-! ### The obligations -/

/-- Settles O8: the fields of the reset state, and the one kind of port it has. -/
theorem resetValuesOfTheTable : Obligations.ResetValuesOfTheTable := by
  refine ⟨rfl, rfl, rfl, rfl, rfl, rfl, rfl, rfl, rfl, fun q hq => ?_⟩
  have hq : q = Port.reset := by simpa [State.reset] using hq
  subst hq
  exact ⟨rfl, rfl, rfl⟩

/-- Settles O14: the gate of `CFG.CTRL`, and the start of an operation on a disabled block. -/
theorem clockGateAndDisabledBlock : Obligations.ClockGateAndDisabledBlock := by
  refine ⟨⟨rfl, rfl⟩, fun s v rest hl he hv => ?_, fun s v rest hl he hv busy => ?_, fun s i d hd hp idle en => ?_⟩
  · rw [step_write hl he rfl, regWrite_enable hv]
    refine ⟨fun range => ?_, fun range en => ?_⟩
    · rw [if_pos range]
    · rw [if_neg (by dsimp only; omega), ← en]
  · rw [step_write hl he rfl, regWrite_disable hv, idleWrite_busy busy]
  · rw [exec_cmd hd, issue_disabled hp idle en]

/-- Settles O15: register 1, the registers 0 and 2 to 7, and those that ignore a write or do not exist. -/
theorem configurationWrites : Obligations.ConfigurationWrites := by
  refine ⟨fun s v rest hl he hv idle => ?_, fun s n v rest hl he hn h1 => ?_, fun s n v rest hl he => ⟨?_, ?_⟩⟩
  · rw [step_write hl he rfl, regWrite_disable hv, idleWrite_idle idle]
  · rw [step_write hl he (cmdPort_none (by omega)), regWrite_config hn h1]
    exact ⟨fun busy => by rw [idleWrite_busy busy], fun idle => by rw [idleWrite_idle idle]; rfl⟩
  · rintro (rfl | ⟨p, hp, hn⟩)
    · rw [step_write hl he rfl]; rfl
    · have port : 16 ≤ n ∧ regPort n < s.ports.length := by unfold regPort; omega
      rw [step_write hl he (cmdPort_none (by omega)), regWrite_high (by omega), if_pos port]
  · intro hn
    obtain ⟨noCmd, high, absent⟩ :
        (n < 19 ∨ n % 4 ≠ 3) ∧ 9 ≤ n ∧ ¬ (16 ≤ n ∧ regPort n < s.ports.length) := by
      unfold regPort
      obtain ⟨low, top⟩ | ⟨p, hp, hn⟩ := hn <;> omega
    rw [step_write hl he (cmdPort_none noCmd), regWrite_high high, if_neg absent]

/-- Settles O16: each read is answered, and the fields of its value are those of the register. -/
theorem statusRegisterReads : Obligations.StatusRegisterReads := by
  refine ⟨fun s n rest hl he hn => ?_, fun s rest hl he => ?_, fun s p rest hl he hp => ?_⟩
  · have ctrl := ctrl_bits s.cfg.cfgErr s.cfg.en
    interval_cases n <;> refine ⟨_, step_read_ok hl he rfl, ?_⟩
    · simp [-BitVec.toNat_setWidth, BitVec.toNat_setWidth_of_le]
    · simpa using ctrl
    all_goals simp [-BitVec.toNat_setWidth, BitVec.toNat_setWidth_of_le]
  · obtain ⟨more, held, zero, owner, high⟩ := devStatus_bits
      (if s.lock.held then BitVec.ofNat 4 s.lock.owner else Config.ownerBits s.free) s.lock.held s.more
    exact ⟨_, step_read_ok hl he rfl, more, held, zero, fun hh => owner.trans (if_pos hh), high⟩
  · exact ⟨_, step_read_ok hl he (regRead_port (k := 0) hp (by decide)), portStatus_bits _ _ _⟩

/-- Settles O17: the registers 1 to 3 of a port, `RBUF`, and what does not exist. -/
theorem resultReads : Obligations.ResultReads := by
  refine ⟨fun s p rest hl hp => ⟨fun he => ?_, fun he => ?_, fun i he => ?_, fun he => ?_⟩,
    fun s n rest hl he hn => step_read_error hl he (regRead_absent hn), fun s p i rest hl he hp => ?_⟩
  · exact step_resultRead hl he (regRead_port (k := 1) hp (by decide))
  · exact step_resultRead hl he (regRead_port (k := 2) hp (by decide))
  · rw [step_readBuf hl he, bufRead, if_pos hp]
    refine ⟨fun hb => ?_, fun hb hn => ?_, fun v hb hv => ?_⟩
    · rw [hb]; rfl
    · rw [hb, List.getElem?_eq_none hn]; rfl
    · rw [hb, hv]; rfl
  · exact step_read_error hl he (regRead_port (k := 3) hp (by decide))
  · rw [step_readBuf hl he, bufRead, if_neg (by omega)]; rfl

/-- Settles O18: the fill of a busy port, of an idle one, and of one that does not exist. -/
theorem wbufIsWrittenOnlyWhileIdle : Obligations.WbufIsWrittenOnlyWhileIdle := by
  intro s p v rest hl he
  rw [step_fill hl he]
  refine ⟨fun hp => ⟨fun hb => ?_, fun hb => ?_⟩, fun hp => if_neg (Nat.not_lt.mpr hp)⟩
  · exact (if_pos hp).trans (if_pos hb)
  · exact (if_pos hp).trans (if_neg (ne_true_of_eq_false hb))

end Sys2Proof.Machine
end

section
/-! SUPPORT and the proof of O56: which locations of the chip a turn writes. -/

namespace Sys2Proof.Machine

/-- The opening of a frame in the valid range of the clock changes its block, where the spec leaves the
chip's answer open (93 U2, U3; log 25). -/
theorem openMem_read_changed {P : Params} {m : Memory} {free n a : Nat} {bsb : Bsb} {off : Word}
    (h : (openMem P true m free bsb off n).read a ≠ m.read a) :
    wild P bsb off n = true ∧ a / Config.blockSize = bsb.toNat := by
  by_contra hn
  exact h (openMem_read_other fun hw ha => hn ⟨hw, ha⟩)

/-- A byte of a write frame changes the location addressed and, when that is the command register, the
interrupt-status register (20_memory.md R73). -/
theorem frameStore_read_changed {P : Params} {clocked : Bool} {m : Memory} {bsb : Bsb} {off : Word} {n i a : Nat}
    {v : Byte} (h : (frameStore P clocked m bsb off n i v).read a ≠ m.read a) :
    clocked = true ∧ wild P bsb off n = false ∧ (a = chipAddr bsb off i ∨
      (chipAddr bsb off i = chipAddr P.bsbS0Reg P.regCr 0 ∧ a = chipAddr P.bsbS0Reg P.regIr 0)) := by
  unfold frameStore at h
  split at h
  · next hs =>
    obtain ⟨hc, hw⟩ : clocked = true ∧ wild P bsb off n = false := by simpa using hs
    refine ⟨hc, hw, ?_⟩
    by_contra hn
    obtain ⟨ha, hir⟩ := not_or.mp hn
    exact h (chipStore_read_other ha fun hcr hi => hir ⟨hcr, hi⟩)
  · exact absurd rfl h

theorem PortOnly.mem {p : Nat} {s t : State} (h : PortOnly p s t) : t.mem = s.mem := by
  obtain ⟨f, m, rfl, -⟩ := h; rfl

theorem PortOnly.lock {p : Nat} {s t : State} (h : PortOnly p s t) : t.lock = s.lock := by
  obtain ⟨f, m, rfl, -⟩ := h; rfl

@[simp] theorem headerTurn_mem (s : State) : (headerTurn s).mem = s.mem := by simp only [headerTurn]
@[simp] theorem readTurn_mem (s : State) : (readTurn s).mem = s.mem := by simp only [readTurn]

/-- Settles O56: only the opening of a frame and a payload byte of a write frame touch the chip. -/
theorem turnWritesOneByteOfItsFrame : Obligations.TurnWritesOneByteOfItsFrame := by
  intro p a s changed
  have ht := turn_turned p s
  generalize turn p s = t at ht changed
  cases ht with
  | opens held own ph staged target =>
    refine ⟨held, own, .inr ⟨ph, _, _, _, _, staged, target, fun hk => ?_⟩⟩
    simp only [openFrame, hk] at changed
    exact openMem_read_changed changed
  | writes held own ph dir =>
    obtain ⟨hk, hw, ha⟩ := frameStore_read_changed changed
    exact ⟨held, own, .inl ⟨ph, dir, hk, hw, ha⟩⟩
  | nothing => exact absurd rfl changed
  | header held own ph => rw [headerTurn_mem] at changed; exact absurd rfl changed
  | reads held own ph dir => rw [readTurn_mem] at changed; exact absurd rfl changed
  | closes held own ph => rw [proceed_mem] at changed; exact absurd rfl changed
  | grants free asks => exact absurd rfl changed
  | waits waiting only more => rw [only.mem] at changed; exact absurd rfl changed

end Sys2Proof.Machine
end

section
/-! SUPPORT and the proofs of O58 and O59: what an operation that a requester runs for itself leaves unchanged.
What it may touch is its `Scope`; that nothing else changes is an invariant of every turn of its port
(`Scope.Runs`), and each operation's start establishes it. -/

namespace Sys2Proof.Machine

/-! ### What a transport call leaves alone -/

/-- No turn of the frame of this call changes location `a` in the valid range of the clock: it lies outside
the block of a frame whose effect the spec leaves open (93 U2, U3), and a write frame neither stores there
nor makes it react (20_memory.md R71, R73). -/
def Call.Spares (P : Params) (c : Call) (a : Nat) : Prop :=
  (wild P c.bsb c.off c.count = true → a / Config.blockSize ≠ c.bsb.toNat) ∧
  (c.dir = .wr → wild P c.bsb c.off c.count = false → ∀ j < c.count, a ≠ chipAddr c.bsb c.off j ∧
    (chipAddr c.bsb c.off j = chipAddr P.bsbS0Reg P.regCr 0 → a ≠ chipAddr P.bsbS0Reg P.regIr 0))

/-- A read whose answer the spec gives leaves the whole chip alone (20_memory.md R74). -/
theorem Call.Spares.read {P : Params} {bsb : Bsb} {off : Word} {n : Nat} (h : wild P bsb off n = false) (a : Nat) :
    Call.Spares P ⟨.rd, bsb, off, n, []⟩ a :=
  ⟨fun hw => absurd (hw.symm.trans h) (by decide), nofun⟩

/-- A write whose effect the spec gives leaves a location alone that it neither stores to nor makes react. -/
theorem Call.Spares.write {P : Params} {bsb : Bsb} {off : Word} {v : List Byte} {a : Nat}
    (h : wild P bsb off v.length = false) (ha : ∀ j < v.length, a ≠ chipAddr bsb off j ∧
      (chipAddr bsb off j = chipAddr P.bsbS0Reg P.regCr 0 → a ≠ chipAddr P.bsbS0Reg P.regIr 0)) :
    Call.Spares P ⟨.wr, bsb, off, v.length, v⟩ a :=
  ⟨fun hw => absurd (hw.symm.trans h) (by decide), fun _ _ => ha⟩

/-- The engine holds the frame of call `c`: granted and not yet opened, or on the wire with `ENG.IDX`
within the payload (10_state.md R24, R25). -/
inductive Engine.Serves (L : CtrlLayout) (c : Call) (e : Engine) : Prop
  | granted (ph : e.ph = .idle) (staged : e.staged = some (header L c.dir c.bsb c.off)) (count : e.count = c.count)
  | onWire {data : List Byte} (ph : e.ph ≠ .idle) (carries : e.Carries L c.dir c.bsb c.off c.count data)
      (idx : e.ph = .data → e.idx.toNat < c.count)

/-- The bus is free and the engine idle, or the engine holds the frame of one of the `calls`. -/
inductive State.Bus (calls : Call → Prop) (s : State) : Prop
  | free (free : s.lock.held = false) (idle : s.eng.ph = .idle)
  | taken {c : Call} (held : s.lock.held = true) (call : calls c) (serves : s.eng.Serves s.params.ctrl c)

/-- The bus depends on the lock, the engine and the layout alone. -/
theorem State.Bus.of_eq {calls : Call → Prop} {s t : State} (h : s.Bus calls) (hl : t.lock = s.lock)
    (he : t.eng = s.eng) (hp : t.params = s.params) : t.Bus calls := by
  cases h with
  | free free idle => exact .free (hl ▸ free) (he ▸ idle)
  | taken held call serves => exact .taken (hl ▸ held) call (by rw [he, hp]; exact serves)

/-- While the lock is held the engine holds the frame of a call. -/
theorem State.Bus.serves {calls : Call → Prop} {s : State} (h : s.Bus calls) (held : s.lock.held = true) :
    ∃ c, calls c ∧ s.eng.Serves s.params.ctrl c := by
  cases h with
  | free free idle => exact nomatch free.symm.trans held
  | taken held call serves => exact ⟨_, call, serves⟩

/-- A frame in progress is the one of its call. -/
theorem State.Bus.carries {calls : Call → Prop} {s : State} (h : s.Bus calls) (held : s.lock.held = true)
    (on : s.eng.ph ≠ .idle) :
    ∃ c data, calls c ∧ s.eng.Carries s.params.ctrl c.dir c.bsb c.off c.count data := by
  obtain ⟨c, call, serves⟩ := h.serves held
  cases serves with
  | granted ph staged count => exact absurd ph on
  | onWire ph carries idx => exact ⟨c, _, call, carries⟩

/-- After a payload byte: the next, or the phase END (10_state.md R24, R25). -/
theorem Engine.Serves.next {L : CtrlLayout} {c : Call} {i : Nat} {data : List Byte} {e : Engine}
    (carries : e.Carries L c.dir c.bsb c.off c.count data) (ph : e.ph = if i + 1 < c.count then .data else .finish)
    (idx : e.idx.toNat = if i + 1 < c.count then i + 1 else 0) : e.Serves L c := by
  split at ph
  · next more =>
    rw [if_pos more] at idx
    exact .onWire (by simp [ph]) carries fun _ => idx ▸ more
  · exact .onWire (by simp [ph]) carries fun hd => nomatch ph.symm.trans hd

/-- A turn of a port that asks for one of the `calls` keeps the bus to them. -/
theorem State.Bus.turn {calls : Call → Prop} {p : Nat} {s : State} (h : s.Bus calls) (hL : s.params.ctrl.ok = true)
    (bounded : ∀ c, calls c → 0 < c.count ∧ c.count ≤ 65535) (asks : ∀ c, (s.port p).act = .asking c → calls c) :
    (turn p s).Bus calls := by
  have ht := turn_turned p s
  generalize hturn : Machine.turn p s = t at ht ⊢
  cases ht with
  | nothing => exact h
  | opens held own ph staged target =>
    obtain ⟨c, call, serves⟩ := h.serves held
    cases serves with
    | granted _ staged' count =>
      cases staged'.symm.trans staged
      rw [wireTarget_header hL] at target
      cases target
      obtain ⟨bit, sho, mosi, hs⟩ := openFrame_spec c.dir c.bsb c.off s
      rw [hs]
      exact .taken held call (.onWire nofun ⟨rfl, rfl, rfl, rfl, count, rfl, rfl, rfl⟩ nofun)
    | onWire on _ _ => exact absurd ph on
  | header held own ph =>
    obtain ⟨c, data, call, carries⟩ := h.carries held (by simp [ph])
    obtain ⟨e, f, hs, carries', ph', idx', -, -⟩ := header_step held own carries ph
    rw [← hturn, hs]
    refine .taken held call (.onWire ?_ carries' fun hd => ?_)
    · rw [ph']; split <;> simp
    · have last : ¬ s.eng.idx.toNat < 2 := fun hi => by simp [ph', hi] at hd
      rw [idx', if_neg last]
      exact (bounded c call).1
  | reads held own ph dir =>
    obtain ⟨c, data, call, carries⟩ := h.carries held (by simp [ph])
    have hdir := carries.dir.symm.trans dir
    rw [hdir] at carries
    obtain ⟨e, hs, carries', ph', idx', -⟩ := read_step held own carries ph (bounded c call).2
    rw [← hdir] at carries'
    rw [← hturn, hs]
    exact .taken held call (.next carries' ph' idx')
  | writes held own ph dir =>
    obtain ⟨c, data, call, carries⟩ := h.carries held (by simp [ph])
    have hdir := carries.dir.symm.trans dir
    rw [hdir] at carries
    obtain ⟨e, f, hs, carries', ph', idx', -⟩ := write_step held own carries ph (bounded c call).2
    rw [← hdir] at carries'
    rw [← hturn, hs]
    exact .taken held call (.next carries' ph' idx')
  | closes held own ph => exact .free (by rw [proceed_lock]; rfl) (by rw [proceed_eng]; rfl)
  | grants free asking =>
    cases h with
    | free _ idle => exact .taken rfl (asks _ asking) (.granted idle rfl rfl)
    | taken held _ _ => exact nomatch free.symm.trans held
  | waits waiting only more => exact h.of_eq only.lock only.eng only.params

/-- A turn leaves alone what the calls on the bus leave alone. -/
theorem State.Bus.read_turn {calls : Call → Prop} {p a : Nat} {s : State} (h : s.Bus calls)
    (hL : s.params.ctrl.ok = true) (hk : s.clocked = true) (spares : ∀ c, calls c → c.Spares s.params a) :
    (Machine.turn p s).mem.read a = s.mem.read a := by
  by_contra changed
  obtain ⟨held, -, hw⟩ := turnWritesOneByteOfItsFrame p a s changed
  obtain ⟨c, call, serves⟩ := h.serves held
  obtain ⟨hopen, hstore⟩ := spares c call
  cases serves with
  | granted ph staged count =>
    obtain ⟨hd, -⟩ | ⟨-, h, dir, bsb, off, hs, target, wild⟩ := hw
    · exact nomatch ph.symm.trans hd
    · cases staged.symm.trans hs
      rw [wireTarget_header hL] at target
      cases target
      rw [count] at wild
      exact hopen (wild hk).1 (wild hk).2
  | onWire ph carries idx =>
    obtain ⟨hd, hdir, -, hw, ha⟩ | ⟨hi, -⟩ := hw
    · rw [carries.bsb, carries.off, carries.count] at hw
      rw [carries.bsb, carries.off] at ha
      obtain ⟨hne, hir⟩ := hstore (carries.dir.symm.trans hdir) hw _ (idx hd)
      exact ha.elim hne fun ⟨hcr, hi⟩ => hir hcr hi
    · exact ph hi

/-! ### What an operation leaves alone -/

/-- What an operation leaves alone, whatever it is answered: the chip locations `stays`, `RESULT` unless
`result`, and `RBUF`, which its start empties, unless `rbuf` (10_state.md R27; log 24). -/
structure Scope where
  stays : Nat → Prop
  result : Prop
  rbuf : Prop

/-- The operation may make this transport call. -/
def Scope.Permits (S : Scope) (P : Params) (c : Call) : Prop := ∀ a, S.stays a → c.Spares P a

/-- The operation makes this transport call, and it has passed its checks (40_transport.md R131). -/
def Scope.Makes (S : Scope) (P : Params) (c : Call) : Prop :=
  S.Permits P c ∧ xferArgsOk P c.off c.count = true

/-- The step is one of an operation a requester runs for itself, and whatever the answer of its pending call,
the calls and results that follow are permitted (10_state.md R26). TX.ENQ and RX.DEQ have other steps. -/
inductive Scope.Follows (S : Scope) (P : Params) : Seq → Prop
  | none : S.Follows P .none
  | xferRd (rbuf : S.rbuf) : S.Follows P .xferRd
  | xferWr : S.Follows P .xferWr
  | ringRdWhole (rbuf : S.rbuf) : S.Follows P (.ringRdWhole .own)
  | ringRdTail {win : Bsb} {rest : Nat} (rbuf : S.rbuf) (head : S.Permits P ⟨.rd, win, 0, rest, []⟩) :
      S.Follows P (.ringRdTail win rest .own)
  | ringRdHead {tail : List Byte} (rbuf : S.rbuf) : S.Follows P (.ringRdHead tail .own)
  | ringWrWhole : S.Follows P (.ringWrWhole .own)
  | ringWrTail {win : Bsb} {rest : List Byte} (head : S.Permits P ⟨.wr, win, 0, rest.length, rest⟩) :
      S.Follows P (.ringWrTail win rest .own)
  | ringWrHead : S.Follows P (.ringWrHead .own)
  | sizeFirst {reg : Word} {r : Nat} (result : S.result)
      (read : S.Permits P ⟨.rd, P.bsbS0Reg, reg, P.sizeLen, []⟩) : S.Follows P (.sizeFirst reg r .own)
  | sizeSecond {reg : Word} {a : List Byte} {r : Nat} (result : S.result)
      (read : S.Permits P ⟨.rd, P.bsbS0Reg, reg, P.sizeLen, []⟩) : S.Follows P (.sizeSecond reg a r .own)
  | cmdWrite {tmo : Nat} (poll : S.Permits P ⟨.rd, P.bsbS0Reg, P.regCr, 1, []⟩) : S.Follows P (.cmdWrite tmo .own)
  | cmdPoll {t tmo : Nat} (poll : S.Permits P ⟨.rd, P.bsbS0Reg, P.regCr, 1, []⟩) : S.Follows P (.cmdPoll t tmo .own)

/-- The operand registers of a port (10_state.md R20). -/
def Port.operands (q : Port) : Byte × Bsb × Word × Word × Word × List Byte :=
  (q.opc, q.bsb, q.off, q.len, q.aux, q.wbuf)

/-- The registers `q` keep of the registers `q0` at the start of the operation what is not in its scope. -/
structure Scope.Keeps (S : Scope) (q0 q : Port) : Prop where
  operands : q.operands = q0.operands
  lenOut : q.lenOut ∈ [q0.lenOut, none]
  result : S.result ∨ q.result ∈ [q0.result, none]
  rbuf : S.rbuf ∨ q.rbuf = []

/-- The registers `q` of a port whose operation started from the registers `q0`, with what is pending. -/
structure Scope.Within (S : Scope) (P : Params) (q0 q : Port) : Prop extends S.Keeps q0 q where
  step : S.Follows P q.seq
  call : ∀ c, q.act = .asking c → S.Makes P c

/-- Of the actions of a frame only its end reaches a port. -/
theorem frameTurn_ports (p : Nat) (s : State) :
    (frameTurn p s).ports = s.ports ∨ frameTurn p s = endFrame p s := by
  unfold frameTurn
  split
  · split
    · exact .inl rfl
    · exact .inl rfl
  · exact .inl (by simp only [headerTurn])
  · split
    · exact .inl (by simp only [readTurn])
    · exact .inl (by simp only [writeTurn])
  · exact .inr rfl

section Within

variable {S : Scope} {P : Params} {q0 : Port} {s : State} {p : Nat}

/-- An end of the operation with results in its scope. -/
theorem Scope.Keeps.ended {q : Port} (h : S.Keeps q0 q) {r : Option Word} {d : List Byte}
    (result : S.result ∨ r ∈ [q0.result, none]) (rbuf : S.rbuf ∨ d = []) :
    S.Within P q0 ({ q with result := r, rbuf := d }.ended .ok) :=
  { h with result := result, rbuf := rbuf, step := .none, call := nofun }

variable (hp : p < s.ports.length)
include hp

/-- What holds of a port's changed registers holds of the port after the change. -/
theorem port_modPort_of {C : Port → Prop} {f : Port → Port} (hf : C (f (s.port p))) :
    C ((s.modPort p f).port p) := by
  rwa [port_modPort_same _ _ _ hp]

/-- An end with an error: the results hold no value (10_state.md R22). -/
theorem Scope.Keeps.raise (h : S.Keeps q0 (s.port p)) (e : Status) : S.Within P q0 ((raise p e s).port p) :=
  port_modPort_of hp { h with
    lenOut := by simp [Port.failed], result := .inr (by simp [Port.failed]), rbuf := .inr rfl
    step := .none, call := nofun }

/-- An end with nothing delivered. -/
theorem Scope.Keeps.finish (h : S.Keeps q0 (s.port p)) : S.Within P q0 ((finish p id s).port p) :=
  port_modPort_of hp (h.ended h.result h.rbuf)

/-- An end that delivers bytes. -/
theorem Scope.Keeps.finish_rbuf (h : S.Keeps q0 (s.port p)) (hr : S.rbuf) (d : List Byte) :
    S.Within P q0 ((Machine.finish p (fun q => { q with rbuf := d }) s).port p) :=
  port_modPort_of hp (h.ended h.result (.inl hr))

/-- An end that delivers a number. -/
theorem Scope.Keeps.finish_result (h : S.Keeps q0 (s.port p)) (hr : S.result) (v : Word) :
    S.Within P q0 ((Machine.finish p (fun q => { q with result := some v }) s).port p) :=
  port_modPort_of hp (h.ended (.inl hr) h.rbuf)

/-- A permitted call with a step to follow, whether it passes its checks or not (40_transport.md R131). -/
theorem Scope.Keeps.xcall (h : S.Keeps q0 (s.port p)) {c : Call} {seq : Seq} (step : S.Follows s.params seq)
    (call : S.Permits s.params c) : S.Within s.params q0 ((xcall p c seq s).port p) := by
  unfold Machine.xcall
  split
  · next ok =>
    refine port_modPort_of hp { h with step := step, call := fun c' hc => ?_ }
    cases hc
    exact ⟨call, ((Bool.and_eq_true _ _).mp ok).2⟩
  · exact h.raise hp _

/-- Delivering the answer of a call stays in the scope. -/
theorem Scope.Within.proceed (h : S.Within s.params q0 (s.port p)) (d : List Byte) :
    S.Within s.params q0 ((proceed p d s).port p) := by
  have step := h.step
  rw [Machine.proceed]
  generalize (s.port p).seq = seq at step ⊢
  cases step with
  | none => exact h
  | xferRd rbuf => exact h.finish_rbuf hp rbuf _
  | xferWr => exact h.finish hp
  | ringRdWhole rbuf => exact h.finish_rbuf hp rbuf _
  | ringRdTail rbuf head => exact h.xcall hp (.ringRdHead rbuf) head
  | ringRdHead rbuf => exact h.finish_rbuf hp rbuf _
  | ringWrWhole => exact h.finish hp
  | ringWrTail head => exact h.xcall hp .ringWrHead head
  | ringWrHead => exact h.finish hp
  | sizeFirst result read => exact h.xcall hp (.sizeSecond result read) read
  | sizeSecond result read =>
    dsimp only [sizeDone, sizeRetry]
    split_ifs
    · exact h.finish_result hp result _
    · split
      · exact h.xcall hp (.sizeFirst result read) read
      · split_ifs
        · exact h.raise hp _
        · exact h.xcall hp (.sizeFirst result read) read
  | cmdWrite poll => exact h.xcall hp (.cmdPoll poll) poll
  | cmdPoll poll =>
    dsimp only [cmdDone, cmdMissed]
    split_ifs
    · exact h.finish hp
    · exact h.raise hp _
    · exact port_modPort_of hp { h with step := .cmdPoll poll, call := nofun }

/-- One tick of a port that asks for the lock (40_transport.md R133). -/
theorem Scope.Within.askTurn (h : S.Within P q0 (s.port p)) (c : Call) : S.Within P q0 ((askTurn p c s).port p) := by
  unfold Machine.askTurn
  split_ifs
  · exact port_modPort_of hp { h with call := nofun }
  · exact h.raise hp _
  · exact port_modPort_of hp { h with }

/-- One tick of a port that waits between two polls (43_fifo_sequences.md R211). -/
theorem Scope.Within.pauseTurn (h : S.Within s.params q0 (s.port p)) (left : Nat) :
    S.Within s.params q0 ((pauseTurn p left s).port p) := by
  cases left with
  | succ left => exact port_modPort_of hp { h with call := nofun }
  | zero =>
    have step := h.step
    unfold Machine.pauseTurn
    generalize (s.port p).seq = seq at step ⊢
    cases step with
    | cmdPoll poll => exact h.xcall hp (.cmdPoll poll) poll
    | _ => exact h

/-- A turn of the port that runs the operation stays in the scope. -/
theorem Scope.Within.turn (h : S.Within s.params q0 (s.port p)) : S.Within s.params q0 ((turn p s).port p) := by
  by_cases own : s.lock.held = true ∧ s.lock.owner = p
  · rw [turn_owner own.1 own.2]
    obtain same | ends := frameTurn_ports p s
    · rw [port_congr same]; exact h
    · rw [ends]
      exact Scope.Within.proceed (s := closeFrame true s) hp h _
  · rw [Machine.turn, if_neg (by simpa using own)]
    cases (s.port p).act with
    | rest => exact h
    | asking c => exact h.askTurn hp c
    | pausing left => exact h.pauseTurn hp left

end Within

/-! ### The run of an operation -/

theorem PortOnly.ports {p : Nat} {s t : State} (h : PortOnly p s t) : ∃ f, t.ports = s.ports.modify p f := by
  obtain ⟨f, m, rfl, -⟩ := h; exact ⟨f, rfl⟩

/-- A turn writes the registers of its own port alone (60_exceptions.md R272). -/
theorem turn_ports (p : Nat) (s : State) : ∃ f, (turn p s).ports = s.ports.modify p f := by
  have same : ∀ t : State, t.ports = s.ports → ∃ f, t.ports = s.ports.modify p f := fun t h =>
    ⟨fun q => q, h.trans (List.modify_id _ _).symm⟩
  have ht := turn_turned p s
  generalize turn p s = t at ht ⊢
  cases ht with
  | nothing => exact same _ rfl
  | opens held own ph staged target => exact same _ rfl
  | header held own ph => exact same _ (by simp only [headerTurn])
  | reads held own ph dir => exact same _ (by simp only [readTurn])
  | writes held own ph dir => exact same _ (by simp only [writeTurn])
  | closes held own ph => exact (proceed_portOnly p _ (closeFrame true s)).ports
  | grants free asks => exact ⟨_, rfl⟩
  | waits waiting only more => exact only.ports

theorem turn_port_other {p q : Nat} (s : State) (hq : p ≠ q) : (turn p s).port q = s.port q := by
  obtain ⟨f, hf⟩ := turn_ports p s
  exact (port_congr (t := s.modPort p f) hf q).trans (port_modPort_other _ _ _ _ hq)

theorem length_turn (p : Nat) (s : State) : (turn p s).ports.length = s.ports.length := by
  obtain ⟨f, hf⟩ := turn_ports p s
  rw [hf, List.length_modify]

/-- The run of an operation of port `p`, from the state `s` in which it starts to the state `t`: nothing but
what is in its scope has changed. -/
structure Scope.Runs (S : Scope) (p : Nat) (s t : State) : Prop where
  config : SameConfig s t
  more : t.more = s.more
  others : ∀ q, q ≠ p → t.port q = s.port q
  mem : s.clocked = true → ∀ a, S.stays a → t.mem.read a = s.mem.read a
  port_lt : p < t.ports.length
  port : S.Within s.params (s.port p) (t.port p)
  bus : t.Bus (S.Makes s.params)

/-- A port in the scope of an operation runs no RX.DEQ, whose last step alone changes `MORE` (10_state.md R28). -/
theorem Scope.Within.turn_more {S : Scope} {P : Params} {q0 : Port} {p : Nat} {t : State}
    (h : S.Within P q0 (t.port p)) : (Machine.turn p t).more = t.more := by
  by_contra changed
  obtain ⟨-, -, -, _, _, _, _, _, hs, -⟩ := moreIsWrittenByRxDeqAlone.1 p t changed
  exact nomatch hs ▸ h.step

/-- Every turn of the port is within the scope of its operation. -/
theorem Scope.Runs.turn {S : Scope} {p : Nat} {s t : State} (hL : s.params.ctrl.ok = true) (h : S.Runs p s t) :
    S.Runs p s (turn p t) := by
  have same := h.config.params
  have hL' : t.params.ctrl.ok = true := same ▸ hL
  have bounded : ∀ c, S.Makes s.params c → 0 < c.count ∧ c.count ≤ 65535 := fun c hc =>
    have ⟨h0, h1, _⟩ := xferArgsOk_bounds hc.2
    ⟨h0, h1⟩
  exact {
    config := h.config.trans (turn_sameConfig p t)
    more := h.port.turn_more.trans h.more
    others := fun q hq => (turn_port_other t (Ne.symm hq)).trans (h.others q hq)
    mem := fun hk a ha => by
      have hk' : t.clocked = true := by rw [State.clocked, same, h.config.cfg]; exact hk
      rw [h.bus.read_turn hL' hk' fun c hc => same ▸ hc.1 a ha]
      exact h.mem hk a ha
    port := by
      have hq := h.port
      rw [← same] at hq ⊢
      exact hq.turn h.port_lt
    port_lt := by rw [length_turn]; exact h.port_lt
    bus := h.bus.turn hL' bounded h.port.call }

/-- What is listed next is in no scope (log 2). -/
theorem Scope.Runs.listed {S : Scope} {p : Nat} {s t : State} (h : S.Runs p s t) (es : List Event) :
    S.Runs p s { t with events := es } :=
  { h with config := ⟨h.config.cfg, h.config.params⟩, bus := h.bus.of_eq rfl rfl rfl }

/-- What every turn of a port keeps, a run keeps that lists no moves but such turns. -/
theorem drive_solo {I : State → Prop} {p : Nat} (listed : ∀ s es, I s → I { s with events := es })
    (turn : ∀ s, I s → I (turn p s)) (going : State → Bool) {s : State} (solo : s.solo p) (hs : I s) :
    I (drive going s) := by
  rw [drive]
  unfold State.solo at solo
  generalize s.events = l at solo
  induction l generalizing s with
  | nil => exact listed s _ hs
  | cons ev l ih =>
    obtain ⟨⟨k, rfl⟩, rest⟩ := List.forall_mem_cons.mp solo
    rw [driveList]
    split
    · exact ih (turns_keeps turn k hs) rest
    · exact listed s _ hs

/-- A port that can start an operation starts it, and the moves listed follow (30_encoding.md R108). -/
theorem exec_ready {i : Instr} {d : Descriptor} {s : State} (hd : encode s.params.ctrl i = .cmd d) (hr : s.ready) :
    exec i s = .next (drive (portBusy s.sel) (start i s.sel (issued d s))) := by
  obtain ⟨exist, idle, en, -⟩ := hr
  rw [exec_cmd hd, issue_enabled exist idle en, issued]

/-- An operation whose start is in its scope runs within it when its port alone moves. -/
theorem exec_runs {S : Scope} {i : Instr} {d : Descriptor} {s t : State} (hd : encode s.params.ctrl i = .cmd d)
    (hr : s.ready) (hP : s.params.ok = true) (solo : s.solo s.sel) (ht : exec i s = .next t) (hi : i ≠ .rxDeq)
    (starts : S.Within s.params ((issued d s).port s.sel) ((start i s.sel (issued d s)).port s.sel)) :
    S.Runs s.sel (issued d s) t := by
  have only := start_portOnly i s.sel (issued d s)
  obtain ⟨f, hf⟩ := only.ports
  rw [exec_ready hd hr] at ht
  cases ht
  obtain ⟨exist, -, -, free, rest⟩ := hr
  refine drive_solo (fun _ _ h => h.listed _) (fun _ h => h.turn (Params.layout_ok hP).1) _ ?_ ?_
  · intro ev hev
    exact solo ev (only.events ▸ hev)
  · exact {
      config := only.sameConfig
      more := start_more _ _ hi
      others := fun q hq =>
        (port_congr (t := (issued d s).modPort s.sel f) hf q).trans (port_modPort_other _ _ _ _ (Ne.symm hq))
      mem := fun _ a _ => congrArg (Memory.read · a) only.mem
      port_lt := by rw [hf, List.length_modify, issued, length_modPort]; exact exist
      port := starts
      bus := .free (only.lock ▸ free) (only.eng ▸ rest.1) }

/-- The operand registers of the port are the descriptor's fields and the bytes filled (30_encoding.md R108). -/
theorem Scope.Runs.operands {S : Scope} {d : Descriptor} {s t : State} (h : S.Runs s.sel (issued d s) t)
    (hp : s.sel < s.ports.length) :
    (t.port s.sel).wbuf = (s.port s.sel).wbuf ∧ (t.port s.sel).opc = opcOf d ∧ (t.port s.sel).bsb = bsbOf d ∧
      (t.port s.sel).off = offOf d ∧ (t.port s.sel).len = lenOf d ∧ (t.port s.sel).aux = auxOf d := by
  have ho := h.port.operands
  rw [issued, port_modPort_same _ _ _ hp] at ho
  simp only [Port.operands, latch, Port.started, Prod.mk.injEq] at ho
  tauto

/-- The result registers of the port are in the scope (10_state.md R22). -/
theorem Scope.Runs.results {S : Scope} {d : Descriptor} {s t : State} (h : S.Runs s.sel (issued d s) t)
    (hp : s.sel < s.ports.length) :
    (t.port s.sel).lenOut ∈ [(s.port s.sel).lenOut, none] ∧
      (S.result ∨ (t.port s.sel).result ∈ [(s.port s.sel).result, none]) ∧
      (S.rbuf ∨ (t.port s.sel).rbuf = []) := by
  have hl := h.port.lenOut
  have hr := h.port.result
  rw [issued, port_modPort_same _ _ _ hp] at hl hr
  exact ⟨hl, hr, h.port.rbuf⟩

/-- Another port of the state in which an operation starts is as before. -/
theorem issued_port_other (d : Descriptor) (s : State) {q : Nat} (hq : q ≠ s.sel) :
    (issued d s).port q = s.port q := port_modPort_other _ _ _ _ (Ne.symm hq)

/-! ### The starts of the operations -/

/-- An operation starts with what it keeps (10_state.md R22). -/
theorem issued_keeps (S : Scope) (d : Descriptor) {s : State} (hp : s.sel < s.ports.length) :
    S.Keeps ((issued d s).port s.sel) ((issued d s).port s.sel) where
  operands := rfl
  lenOut := List.mem_cons_self
  result := .inr List.mem_cons_self
  rbuf := .inr (by rw [issued, port_modPort_same _ _ _ hp]; rfl)

/-- Byte `j` of the tail of a ring span (41_ring_accessor.md R173). -/
theorem chipAddr_tail {P : Params} (hP : P.ok = true) (win : Bsb) (off : Word) {j : Nat} (hj : j < ringTail P off) :
    chipAddr win (ringOff P off) j = ringAddr P win off j := by
  rw [ringAddr_tail hP _ _ hj, ← chipAddr_ringOff hP, chipAddr, chipAddr, Nat.add_zero]

/-- Byte `j` of its head. -/
theorem chipAddr_head {P : Params} (hP : P.ok = true) (win : Bsb) (off : Word) {j : Nat}
    (hj : ringTail P off + j < P.window) : chipAddr win 0 j = ringAddr P win off (ringTail P off + j) := by
  rw [ringAddr_head hP _ _ (Nat.le_add_right _ _) hj, Nat.add_sub_cancel_left]
  simp [chipAddr]

section Starts

variable {S : Scope} {q0 : Port} {s : State} {p : Nat} (hp : p < s.ports.length) (h : S.Keeps q0 (s.port p))
include hp h

/-- A ring read stays in a scope that may write `RBUF` (41_ring_accessor.md R174). -/
theorem Scope.Keeps.ringRd (hP : s.params.ok = true) (hr : S.rbuf) (win : Bsb) (off : Word) (n : Nat) :
    S.Within s.params q0 ((ringRd p win off n .own (Machine.finish p (fun q => { q with rbuf := [] })) s).port p) := by
  unfold Machine.ringRd
  split_ifs with en hw hl empty hc
  · exact h.raise hp _
  · exact h.raise hp _
  · exact h.raise hp _
  · exact h.finish_rbuf hp hr _
  all_goals
    have hwin : windowOk s.params win = true := by simpa using hw
    have hlen : n ≤ s.params.window := by simpa [lengthOk] using hl
    have inWindow : ∀ (o : Word) (k : Nat), o.toNat + k ≤ s.params.window → S.Permits s.params ⟨.rd, win, o, k, []⟩ :=
      fun _ _ hk _ _ => .read (wild_window hwin hk) _
  · obtain ⟨htail, -, hsum⟩ := tailLen_ringOff hP off
    rw [htail]
    exact h.xcall hp (.ringRdTail hr (inWindow 0 _ (by simp; omega))) (inWindow (ringOff s.params off) _ hsum.le)
  · exact h.xcall hp (.ringRdWhole hr) (inWindow _ _ (by simpa [crosses] using hc))

/-- A ring write stays in a scope whose locations it neither stores to nor makes react (41_ring_accessor.md R173). -/
theorem Scope.Keeps.ringWr (hP : s.params.ok = true) (win : Bsb) (off : Word) (v : List Byte)
    (spares : ∀ a, S.stays a → ∀ j < v.length, a ≠ ringAddr s.params win off j ∧
      (ringAddr s.params win off j = chipAddr s.params.bsbS0Reg s.params.regCr 0 →
        a ≠ chipAddr s.params.bsbS0Reg s.params.regIr 0)) :
    S.Within s.params q0 ((ringWr p win off v .own (Machine.finish p id) s).port p) := by
  unfold Machine.ringWr
  split_ifs with en hw hl empty hc
  · exact h.raise hp _
  · exact h.raise hp _
  · exact h.raise hp _
  · exact h.finish hp
  all_goals
    have hwin : windowOk s.params win = true := by simpa using hw
    have hlen : v.length ≤ s.params.window := by simpa [lengthOk] using hl
    obtain ⟨htail, -, hsum⟩ := tailLen_ringOff hP off
    have piece : ∀ (o : Word) (w : List Byte) (m : Nat), o.toNat + w.length ≤ s.params.window →
        (∀ j < w.length, m + j < v.length ∧ chipAddr win o j = ringAddr s.params win off (m + j)) →
        S.Permits s.params ⟨.wr, win, o, w.length, w⟩ := fun o w m hm hj a ha =>
      .write (wild_window hwin hm) fun j hlt => by rw [(hj j hlt).2]; exact spares a ha _ (hj j hlt).1
  · rw [htail]
    have hcross : ringTail s.params off < v.length := by simpa [crosses_ringOff hP] using hc
    refine h.xcall hp (.ringWrTail (piece 0 _ (ringTail s.params off) (by simp; omega) fun j hj => ?_))
      (piece _ _ 0 (by simp; omega) fun j hj => ?_)
    · rw [List.length_drop] at hj
      exact ⟨by omega, chipAddr_head hP win off (by omega)⟩
    · rw [List.length_take] at hj
      exact ⟨by omega, by rw [Nat.zero_add]; exact chipAddr_tail hP win off (by omega)⟩
  · have hcross : v.length ≤ ringTail s.params off := by simpa [crosses_ringOff hP] using hc
    refine h.xcall hp .ringWrWhole (piece _ _ 0 (by omega) fun j hj => ⟨by omega, ?_⟩)
    rw [Nat.zero_add]
    exact chipAddr_tail hP win off (by omega)

end Starts

/-- What a reading operation leaves alone: every location but those of the block of an XFER.RD whose answer the
spec leaves open (93 U2, U3; log 25), and `RESULT` but for the size queries. -/
def readScope (P : Params) (i : Instr) : Scope where
  stays a := ∀ bsb off len, i = .xferRd bsb off len → wild P bsb off len.toNat = true →
    a / Config.blockSize ≠ bsb.toNat
  result := i = .getTxFree ∨ i = .getRxSize
  rbuf := True

/-- Settles O58: the four operations start with reads that spare every location their scope keeps. -/
theorem readingOperationsFrame : Obligations.ReadingOperationsFrame := by
  intro s t i d hi hd hr hP solo ht
  have keeps := issued_keeps (readScope s.params i) d hr.1
  have port : s.sel < (issued d s).ports.length := (issued_free hr hP).port
  have sizeRead (reg : Word) :
      (readScope s.params i).Permits s.params ⟨.rd, s.params.bsbS0Reg, reg, s.params.sizeLen, []⟩ :=
    fun a _ => .read (wild_s0Reg hP reg _).1 a
  have starts : (readScope s.params i).Within s.params ((issued d s).port s.sel)
      ((start i s.sel (issued d s)).port s.sel) := by
    obtain ⟨bsb, off, len, rfl⟩ | ⟨bsb, off, len, rfl⟩ | rfl | rfl := hi
    · exact keeps.xcall port (.xferRd trivial) fun a ha => ⟨ha bsb off len rfl, nofun⟩
    · exact keeps.ringRd port hP trivial _ _ _
    · exact keeps.xcall port (.sizeFirst (.inl rfl) (sizeRead _)) (sizeRead _)
    · exact keeps.xcall port (.sizeFirst (.inr rfl) (sizeRead _)) (sizeRead _)
  have run := exec_runs hd hr hP solo ht (by rintro rfl; simp at hi) starts
  obtain ⟨wbuf, opc, bsb, off, len, aux⟩ := run.operands hr.1
  obtain ⟨lenOut, result, -⟩ := run.results hr.1
  exact ⟨run.mem, run.more, run.config.cfg, run.config.params,
    fun q hq => (run.others q hq).trans (issued_port_other d s hq), wbuf, opc, bsb, off, len, aux, lenOut,
    fun h1 h2 => result.resolve_left (not_or.mpr ⟨h1, h2⟩)⟩

/-- What a writing operation leaves alone: every location but those `stored` and, when the command register is
among these, the interrupt-status register (20_memory.md R73); and all results. -/
def writeScope (P : Params) (stored : Nat → Prop) : Scope where
  stays a := ¬ stored a ∧ (stored (chipAddr P.bsbS0Reg P.regCr 0) → a ≠ chipAddr P.bsbS0Reg P.regIr 0)
  result := False
  rbuf := False

/-- A location that a writing operation leaves alone is none it stores to, nor one that reacts to what it stores. -/
theorem writeScope_spares {P : Params} {stored : Nat → Prop} {a b : Nat} (ha : (writeScope P stored).stays a)
    (hb : stored b) : a ≠ b ∧ (b = chipAddr P.bsbS0Reg P.regCr 0 → a ≠ chipAddr P.bsbS0Reg P.regIr 0) :=
  ⟨fun h => ha.1 (h ▸ hb), fun h => ha.2 (h ▸ hb)⟩

/-- Settles O59: the three operations start with writes that touch no location their scope keeps. -/
theorem writingOperationsFrame : Obligations.WritingOperationsFrame := by
  intro s t i d stored hi hd hr hP solo ht
  have keeps := issued_keeps (writeScope s.params stored) d hr.1
  have port : s.sel < (issued d s).ports.length := (issued_free hr hP).port
  have starts : (writeScope s.params stored).Within s.params ((issued d s).port s.sel)
      ((start i s.sel (issued d s)).port s.sel) := by
    obtain ⟨bsb, off, len, rfl, rfl⟩ | ⟨win, off, len, rfl, rfl⟩ | ⟨code, tmo, rfl, rfl⟩ := hi
    · refine keeps.xcall port .xferWr fun a ha => ?_
      rw [Call.Spares, length_wbufBytes]
      exact ⟨fun hw hb => ha.1 ((if_pos hw).mpr hb), fun _ hw j hj =>
        writeScope_spares ha ((if_neg (ne_true_of_eq_false hw)).mpr ⟨j, hj, rfl⟩)⟩
    · refine keeps.ringWr port hP _ _ _ fun a ha j hj => writeScope_spares ha ⟨j, ?_, rfl⟩
      simpa using hj
    · have tame := (wild_s0Reg hP s.params.regCr 1).1
      refine keeps.xcall port (.cmdWrite fun a _ => .read tame a) fun a ha => .write tame fun j hj => ?_
      rw [Nat.lt_one_iff.mp hj]
      exact writeScope_spares ha rfl
  have run := exec_runs hd hr hP solo ht (by rintro rfl; simp at hi) starts
  obtain ⟨wbuf, opc, bsb, off, len, aux⟩ := run.operands hr.1
  obtain ⟨lenOut, result, rbuf⟩ := run.results hr.1
  exact ⟨fun hk a ha hir => run.mem hk a ⟨ha, hir⟩, run.more, run.config.cfg, run.config.params,
    fun q hq => (run.others q hq).trans (issued_port_other d s hq), wbuf, opc, bsb, off, len, aux,
    result.resolve_left id, lenOut, rbuf.resolve_left id⟩

end Sys2Proof.Machine
end

section
/-! SUPPORT and the proofs of O1 to O6: what the decoder and the encoder say of each other, for headers and for
descriptors, the bytes of a header, and the rows of the opcode table. -/

namespace Sys2Proof

/-! ### Frame headers -/

section Wire

variable {L : CtrlLayout}

/-- The frame kind of a direction (30_encoding.md R103). -/
def Dir.frame : Dir → Bsb → Word → Instr
  | .rd => .wireRd
  | .wr => .wireWr

theorem encode_frame (L : CtrlLayout) (dir : Dir) (bsb : Bsb) (off : Word) :
    encode L (dir.frame bsb off) = .wire (header L dir bsb off) := by
  cases dir <;> rfl

/-- The chip side decodes the frame kind of the target that the header names. -/
theorem decodeWire_eq_map (L : CtrlLayout) (w : Header) :
    decodeWire L w = (wireTarget L w).map fun t => t.1.frame t.2.1 t.2.2 := by
  unfold decodeWire
  obtain _ | ⟨_ | _, bsb, off⟩ := wireTarget L w <;> rfl

theorem decodeWire_header (hL : L.ok = true) (dir : Dir) (bsb : Bsb) (off : Word) :
    decodeWire L (header L dir bsb off) = some (dir.frame bsb off) := by
  rw [decodeWire_eq_map, wireTarget_header hL]; rfl

/-- A header decodes back to the frame it was built for (30_encoding.md R101, R103). -/
theorem decodeWire_of_encode (hL : L.ok = true) {i : Instr} {w : Header} (h : encode L i = .wire w) :
    decodeWire L w = some i := by
  cases i with
  | wireRd bsb off => rw [← Encoded.wire.inj h]; exact decodeWire_header hL .rd bsb off
  | wireWr bsb off => rw [← Encoded.wire.inj h]; exact decodeWire_header hL .wr bsb off
  | _ => cases h

theorem encode_of_decodeWire (hL : L.ok = true) {w : Header} {i : Instr} (h : decodeWire L w = some i) :
    encode L i = .wire w := by
  rw [decodeWire_eq_map, Option.map_eq_some_iff] at h
  obtain ⟨⟨dir, bsb, off⟩, target, rfl⟩ := h
  rw [encode_frame, header_fields hL target]

/-- A header whose bits outside the two fields are not `OM` is no instruction (30_encoding.md R113). -/
theorem decodeWire_otherMode {w : Header} (h : L.ctrlBits w &&& ~~~L.fields ≠ L.om) : decodeWire L w = none := by
  rw [decodeWire_eq_map, wireTarget, if_neg h]; rfl

/-- Bits 1:0 of a header are bits 1:0 of its control byte. -/
theorem header_and_mode (w : Header) : w &&& 3#24 = (ctrlOf w &&& 3#8).setWidth 24 := by
  apply BitVec.eq_of_getLsbD_eq; intro j hj
  simp only [ctrlOf, BitVec.getLsbD_and, BitVec.getLsbD_setWidth, BitVec.getLsbD_extractLsb']
  interval_cases j <;> simp

/-- With the default layout the bits outside the two fields are bits 1:0 (00_scope.md R8). -/
theorem default_mode (w : Header) :
    CtrlLayout.default.ctrlBits w &&& ~~~CtrlLayout.default.fields = ctrlOf w &&& 3#8 := by
  rw [(CtrlLayout.usable (by decide)).ctrlBits, show ~~~CtrlLayout.default.fields = 3#8 by decide]

/-! ### Header bytes -/

/-- A usable layout holds every block select whole (30_encoding.md R101). -/
theorem CtrlLayout.Usable.bsbBits (h : L.Usable) (bsb : Bsb) : L.bsbBits bsb = bsb.setWidth 8 <<< L.bsbPos := by
  have := h.width
  have := h.fits
  rw [CtrlLayout.bsbBits]
  congr 1
  apply BitVec.eq_of_getLsbD_eq; intro j hj
  rw [BitVec.getLsbD_and, getLsbD_lowMask (by omega) hj, BitVec.getLsbD_setWidth]
  by_cases hw : j < L.bsbW
  · simp [hw]
  · simp [BitVec.getLsbD_of_ge bsb j (by omega)]

theorem rwbBits_eq (L : CtrlLayout) (dir : Dir) :
    L.rwbBits dir = (if dir = .wr then 1#8 else 0#8) <<< L.rwbPos := by
  cases dir <;> rfl

theorem headerBytes_eq (hL : L.ok = true) (dir : Dir) (bsb : Bsb) (off : Word) :
    headerBytes L dir bsb off = [Machine.hi8 off, Machine.lo8 off, ctrlByte L dir bsb] := by
  have h := CtrlLayout.usable hL
  simp only [headerBytes, List.map_cons, List.map_nil, headerByte, ctrlOf_header h]
  rw [header_eq h, BitVec.extractLsb'_append_eq_of_le (by decide), BitVec.extractLsb'_append_eq_of_le (by decide)]
  rfl

theorem toNat_hi8 (v : Word) : (Machine.hi8 v).toNat = v.toNat / 256 := by
  rw [Machine.hi8, BitVec.extractLsb'_toNat, Nat.shiftRight_eq_div_pow, Nat.mod_eq_of_lt (by omega)]

theorem toNat_lo8 (v : Word) : (Machine.lo8 v).toNat = v.toNat % 256 := by
  simp [Machine.lo8, BitVec.extractLsb'_toNat]

/-- The control byte of the default layout as a number (30_encoding.md R101). -/
theorem toNat_ctrlByte_default (dir : Dir) (bsb : Bsb) :
    (ctrlByte .default dir bsb).toNat = bsb.toNat * 8 + if dir = .wr then 4 else 0 := by
  cases dir <;> revert bsb <;> decide

theorem decodeWireBytes_headerBytes (hL : L.ok = true) (dir : Dir) (bsb : Bsb) (off : Word) (v : List Byte) :
    decodeWireBytes L (headerBytes L dir bsb off ++ v) = some (dir.frame bsb off, v) := by
  simp only [headerBytes, List.map_cons, List.map_nil, List.cons_append, List.nil_append, decodeWireBytes,
    headerByte_append, decodeWire_header hL, Option.map_some]

end Wire

/-! ### Descriptors -/

/-- A descriptor decodes back to the instruction it was built for (30_encoding.md R109, R110). -/
theorem decodeCmd_of_encode {L : CtrlLayout} {i : Instr} {d : Descriptor} (h : encode L i = .cmd d) :
    decodeCmd d = some i := by
  have code : ∀ c : Byte, (0#8 ++ c).extractLsb' 8 8 = 0#8 ∧ (0#8 ++ c).extractLsb' 0 8 = c := fun c =>
    ⟨BitVec.extractLsb'_append_eq_left, BitVec.extractLsb'_append_eq_right⟩
  cases i with
  | wireRd bsb off | wireWr bsb off => cases h
  | _ =>
    rw [← Encoded.cmd.inj h]
    simp [decodeCmd, opcOf_descriptor, bsbOf_descriptor, rsvOf_descriptor, offOf_descriptor, lenOf_descriptor,
      auxOf_descriptor, code]

/-- A 16-bit field whose high byte is zero is its low byte. -/
theorem zero_append_low {v : Word} (h : v.extractLsb' 8 8 = 0#8) : 0#8 ++ v.extractLsb' 0 8 = v := by
  rw [← h]; exact BitVec.extractLsb'_append_extractLsb'

/-- A decoded descriptor is the one its instruction is encoded in: its reserved bits and the fields its row does
not use are zero. -/
theorem encode_of_decodeCmd {L : CtrlLayout} {i : Instr} {d : Descriptor} (h : decodeCmd d = some i) :
    encode L i = .cmd d := by
  obtain ⟨rsv, row⟩ := decodeCmd_cases h
  have word := descriptor_fields rsv
  obtain ⟨opc, unused, rfl⟩ | ⟨opc, unused, rfl⟩ | ⟨opc, unused, rfl⟩ | ⟨opc, unused, rfl⟩ | ⟨opc, unused, rfl⟩ |
    ⟨opc, unused, rfl⟩ | ⟨opc, ⟨bsb, off, high⟩, rfl⟩ | ⟨opc, unused, rfl⟩ | ⟨opc, unused, rfl⟩ := row
  on_goal 7 =>
    rw [opc, bsb, off] at word
    rw [encode, zero_append_low high, word]
  all_goals
    simp only [opc, unused] at word
    exact congrArg _ word

/-! ### The rows of the opcode table -/

section Rows

open Laws.MatchesRow

variable {d m v : Descriptor}

/-- The word of every instruction matches the instruction's row (30_encoding.md R103, R111). -/
theorem matchesRow : ∀ i, Statement i
  | .wireRd bsb off => wireRd bsb off
  | .wireWr bsb off => wireWr bsb off
  | .xferRd bsb off len => xferRd bsb off len
  | .xferWr bsb off len => xferWr bsb off len
  | .bufRd bsb off len => bufRd bsb off len
  | .bufWr bsb off len => bufWr bsb off len
  | .getTxFree => getTxFree
  | .getRxSize => getRxSize
  | .sockCmd code tmo => sockCmd code tmo
  | .txEnq len => txEnq len
  | .rxDeq => rxDeq

theorem matchesWord_of_decodeCmd {i : Instr} (h : decodeCmd d = some i) : matchesWord (.cmd d) (row i) := by
  rw [← encode_of_decodeCmd (L := .default) h]
  exact matchesRow i

/-- A field that lies under the mask is the field of the match. -/
theorem extractLsb'_of_and {lo n : Nat} (h : d &&& m = v) (under : m.extractLsb' lo n = BitVec.allOnes n) :
    d.extractLsb' lo n = v.extractLsb' lo n := by
  rw [← h, BitVec.extractLsb'_and, under, BitVec.and_allOnes]

/-- A word of such a row is the descriptor of its own operands, with the row's `OPC` and `AUX`. -/
theorem descriptor_of_opcode_row (h : d &&& 0xFF0700000000FFFF#64 = v) (rsv : rsvOf v = 0) :
    descriptor (opcOf v) (bsbOf d) (offOf d) (lenOf d) (auxOf v) = d := by
  have hrsv : rsvOf d = 0 := (extractLsb'_of_and h (by decide)).trans rsv
  have hopc : opcOf d = opcOf v := extractLsb'_of_and h (by decide)
  have haux : auxOf d = auxOf v := extractLsb'_of_and h (by decide)
  rw [← hopc, ← haux, descriptor_fields hrsv]

theorem descriptor_of_sockCmd_row (h : d &&& 0xFFFFFFFFFF000000#64 = 0x3000000000000000#64) :
    descriptor 0x30 0 0 (0#8 ++ (lenOf d).extractLsb' 0 8) (auxOf d) = d := by
  have hrsv : rsvOf d = 0 := extractLsb'_of_and h (by decide)
  have hopc : opcOf d = 0x30 := extractLsb'_of_and h (by decide)
  have hbsb : bsbOf d = 0 := extractLsb'_of_and h (by decide)
  have hoff : offOf d = 0 := extractLsb'_of_and h (by decide)
  have high : (lenOf d).extractLsb' 8 8 = 0#8 := by
    have : d.extractLsb' 24 8 = 0#8 := extractLsb'_of_and h (by decide)
    rw [← this]
    apply BitVec.eq_of_getLsbD_eq; intro j hj
    simp [lenOf, hj, show 8 + j < 16 by omega, ← Nat.add_assoc]
  have word := descriptor_fields hrsv
  rwa [hopc, hbsb, hoff, ← zero_append_low high] at word

theorem descriptor_of_txEnq_row (h : d &&& 0xFFFFFFFF0000FFFF#64 = 0x4100000000000000#64) :
    descriptor 0x41 0 0 (lenOf d) 0 = d := by
  have hrsv : rsvOf d = 0 := extractLsb'_of_and h (by decide)
  have hopc : opcOf d = 0x41 := extractLsb'_of_and h (by decide)
  have hbsb : bsbOf d = 0 := extractLsb'_of_and h (by decide)
  have hoff : offOf d = 0 := extractLsb'_of_and h (by decide)
  have haux : auxOf d = 0 := extractLsb'_of_and h (by decide)
  have word := descriptor_fields hrsv
  rwa [hopc, hbsb, hoff, haux] at word

theorem eq_of_whole_row (h : d &&& 0xFFFFFFFFFFFFFFFF#64 = v) : v = d := by
  rw [← h, show 0xFFFFFFFFFFFFFFFF#64 = BitVec.allOnes 64 by decide, BitVec.and_allOnes]

/-- The operations with operands `BSB`, `OFF` and `LEN` (30_encoding.md R110, R111). -/
theorem opcode_row_iff (op : Bsb → Word → Word → Instr) (rsv : rsvOf v = 0)
    (word : ∀ bsb off len, encode .default (op bsb off len) = .cmd (descriptor (opcOf v) bsb off len (auxOf v)))
    (hrow : ∀ bsb off len, row (op bsb off len) = (.cmd 0xFF0700000000FFFF#64, .cmd v)) :
    d &&& 0xFF0700000000FFFF#64 = v ↔ ∃ bsb off len, decodeCmd d = some (op bsb off len) := by
  refine ⟨fun h => ⟨bsbOf d, offOf d, lenOf d, decodeCmd_of_encode (L := .default) ?_⟩, fun ⟨bsb, off, len, h⟩ => ?_⟩
  · rw [word, descriptor_of_opcode_row h rsv]
  · have matched := matchesWord_of_decodeCmd h
    rwa [hrow] at matched

/-- The operations without operands. -/
theorem whole_row_iff (op : Instr) (word : encode .default op = .cmd v)
    (hrow : row op = (.cmd 0xFFFFFFFFFFFFFFFF#64, .cmd v)) :
    d &&& 0xFFFFFFFFFFFFFFFF#64 = v ↔ decodeCmd d = some op := by
  refine ⟨fun h => decodeCmd_of_encode (L := .default) (by rw [word, eq_of_whole_row h]), fun h => ?_⟩
  have matched := matchesWord_of_decodeCmd h
  rwa [hrow] at matched

theorem sockCmd_row_iff : d &&& 0xFFFFFFFFFF000000#64 = 0x3000000000000000#64 ↔
    ∃ code tmo, decodeCmd d = some (.sockCmd code tmo) :=
  ⟨fun h => ⟨_, _, decodeCmd_of_encode (L := .default) (congrArg Encoded.cmd (descriptor_of_sockCmd_row h))⟩,
    fun ⟨_, _, h⟩ => matchesWord_of_decodeCmd h⟩

theorem txEnq_row_iff : d &&& 0xFFFFFFFF0000FFFF#64 = 0x4100000000000000#64 ↔
    ∃ len, decodeCmd d = some (.txEnq len) :=
  ⟨fun h => ⟨_, decodeCmd_of_encode (L := .default) (congrArg Encoded.cmd (descriptor_of_txEnq_row h))⟩,
    fun ⟨_, h⟩ => matchesWord_of_decodeCmd h⟩

end Rows

/-! ### The obligations -/

/-- Settles O1: format by format, what the encoder builds decodes back. -/
theorem decodeOfEncodeIsTheInstruction : Obligations.DecodeOfEncodeIsTheInstruction := by
  intro L i hL
  cases word : encode L i with
  | cmd d => exact decodeCmd_of_encode word
  | wire w => exact decodeWire_of_encode hL word

/-- Settles O2: format by format, a decoded word is what the encoder builds. -/
theorem encodeOfDecodeIsTheWord : Obligations.EncodeOfDecodeIsTheWord := by
  intro L w i hL h
  cases w with
  | cmd d => exact encode_of_decodeCmd h
  | wire w => exact encode_of_decodeWire hL h

/-- Settles O3: a match fixes the descriptor's fields, and a decoded descriptor is the word of its row. -/
theorem descriptorSelectsItsRow : Obligations.DescriptorSelectsItsRow := by
  intro d
  exact ⟨opcode_row_iff .xferRd rfl (fun _ _ _ => rfl) (fun _ _ _ => rfl),
    opcode_row_iff .xferWr rfl (fun _ _ _ => rfl) (fun _ _ _ => rfl),
    opcode_row_iff .bufRd rfl (fun _ _ _ => rfl) (fun _ _ _ => rfl),
    opcode_row_iff .bufWr rfl (fun _ _ _ => rfl) (fun _ _ _ => rfl),
    whole_row_iff .getTxFree rfl rfl, whole_row_iff .getRxSize rfl rfl,
    sockCmd_row_iff, txEnq_row_iff, whole_row_iff .rxDeq rfl rfl⟩

/-- Settles O4: the two bytes of the offset and the control byte, as bits and as numbers. -/
theorem headerBytesOfAnAddress : Obligations.HeaderBytesOfAnAddress := by
  refine fun dir bsb off => ⟨?_, fun L hL => ?_⟩
  · simp only [headerBytes_eq (L := .default) (by decide), List.map_cons, List.map_nil, toNat_hi8, toNat_lo8,
      toNat_ctrlByte_default]
  · rw [headerBytes_eq hL, ctrlByte, (CtrlLayout.usable hL).bsbBits, rwbBits_eq]

/-- Settles O5: the header bytes put together are the header, and the rest is the payload. -/
theorem wireBytesDecodeToTheFrame : Obligations.WireBytesDecodeToTheFrame := fun _ bsb off v hL =>
  ⟨decodeWireBytes_headerBytes hL .rd bsb off v, decodeWireBytes_headerBytes hL .wr bsb off v⟩

/-- Settles O6: eleven closed words. -/
theorem sampleWordsDecode : Obligations.SampleWordsDecode := by
  unfold Obligations.SampleWordsDecode
  decide

end Sys2Proof
end

section
/-! SUPPORT and the proofs of O7, O10 to O13 and O21: what a step runs, a descriptor written to a port or a staged
frame header, and where it stops. -/

namespace Sys2Proof.Machine

/-! ### A descriptor written to a port -/

section Descriptor

variable {s : State} {p : Nat} {d : Descriptor} {i : Instr} {rest : List Event}

theorem step_descriptor (hl : s.listening) (he : s.events = .write (19 + 4 * p) d :: rest)
    (hd : decodeCmd d = some i) : step s = exec i { s with events := rest, sel := p } := by
  simp only [step, fetch_listening hl, fetchEvent, he, cmdPort_cmd, hd]

theorem step_illegal (hl : s.listening) (he : s.events = .write (19 + 4 * p) d :: rest) (hd : decodeCmd d = none) :
    step s = issueIllegal d { s with events := rest, sel := p } := by
  simp only [step, fetch_listening hl, fetchEvent, he, cmdPort_cmd, hd]

theorem issueIllegal_idle (hp : s.sel < s.ports.length) (hb : (s.port s.sel).busy = false) :
    issueIllegal d s =
      .next { s with
        ports := s.ports.modify s.sel
          (Port.afterError (opcOf d) (bsbOf d) (offOf d) (lenOf d) (auxOf d) .invalidArgument) } := by
  simp only [issueIllegal, hp, hb, if_true, Bool.false_eq_true, if_false, raise, modPort_modPort]
  rfl

theorem issueIllegal_busy (hp : s.sel < s.ports.length) (hb : (s.port s.sel).busy = true) :
    issueIllegal d s = .next s := by
  rw [issueIllegal, if_pos hp, if_pos hb]

theorem issueIllegal_absent (hp : s.ports.length ≤ s.sel) : issueIllegal d s = .fault .noSuchRegister :=
  if_neg (Nat.not_lt.mpr hp)

theorem issue_absent {opc : Byte} {bsb : Bsb} {off len aux : Word} {body : Nat → State → State}
    (hp : s.ports.length ≤ s.sel) : issue opc bsb off len aux body s = .fault .noSuchRegister :=
  if_neg (Nat.not_lt.mpr hp)

/-- A decoded descriptor is executed by starting its operation with its fields (30_encoding.md R108). -/
theorem exec_decoded (hd : decodeCmd d = some i) (s : State) :
    exec i s = issue (opcOf d) (bsbOf d) (offOf d) (lenOf d) (auxOf d) (start i) s :=
  exec_cmd (L := .default) (encode_of_decodeCmd hd) s

end Descriptor

/-! ### A staged frame header -/

section Staged

variable {s : State} {w : Header} {i : Instr}

theorem step_staged (hf : s.faulted = false) (hc : s.cutNext = false) (hs : s.eng.staged = some w)
    (hd : decodeWire s.params.ctrl w = some i) : step s = exec i s := by
  simp [step, fetch, hf, hc, hs, hd]

theorem step_staged_malformed (hf : s.faulted = false) (hc : s.cutNext = false) (hs : s.eng.staged = some w)
    (hd : decodeWire s.params.ctrl w = none) : step s = .fault .frameMalformed := by
  simp [step, fetch, hf, hc, hs, hd]

end Staged

/-! ### Where a frame header cannot be executed -/

section Frame

variable {dir : Dir} {bsb : Bsb} {off : Word} {s : State}

theorem exec_frame (dir : Dir) (bsb : Bsb) (off : Word) (s : State) :
    exec (dir.frame bsb off) s = runFrame dir bsb off s := by
  cases dir <;> rfl

theorem runFrame_unlocked (h : s.lock.held = false) : runFrame dir bsb off s = .fault .frameWithoutLock := by
  simp [runFrame, h]

theorem runFrame_overlap (h : s.lock.held = true) (on : s.eng.ph ≠ .idle) :
    runFrame dir bsb off s = .fault .frameOverlap := by
  simp [runFrame, h, on]

theorem runFrame_malformed (h : s.lock.held = true) (idle : s.eng.ph = .idle)
    (args : xferArgsOk s.params off s.eng.count = false) : runFrame dir bsb off s = .fault .frameMalformed := by
  simp [runFrame, h, idle, args]

/-- The payloads that XPORT never sends (40_transport.md R131). -/
theorem xferArgsOk_eq_false {P : Params} {off : Word} {n : Nat}
    (h : n = 0 ∨ n < P.minPayload ∨ 65535 < n ∨ 65536 < off.toNat + n) : xferArgsOk P off n = false := by
  rw [Bool.eq_false_iff]
  intro args
  simp only [xferArgsOk, Bool.and_eq_true, decide_eq_true_eq] at args
  omega

end Frame

/-! ### The obligations -/

/-- Settles O7: the bits outside the two fields, which with the default layout are bits 1:0. -/
theorem headerWithOtherModeIsMalformed : Obligations.HeaderWithOtherModeIsMalformed := by
  refine fun s w => ⟨fun mode => decodeWire_otherMode fun om => mode ?_, fun mode => ?_⟩
  · rw [default_mode] at om
    rw [header_and_mode, om]; rfl
  · have undecoded := decodeWire_otherMode mode
    exact ⟨undecoded, fun hf hc hs => step_staged_malformed hf hc hs undecoded⟩

/-- Settles O10: the fetch of a write of `PORT[p].CMD`. -/
theorem stepExecutesTheDescriptorWritten : Obligations.StepExecutesTheDescriptorWritten :=
  fun _ _ _ _ _ => step_descriptor

/-- Settles O11: the fetch of a staged header. -/
theorem stepExecutesTheStagedFrame : Obligations.StepExecutesTheStagedFrame :=
  fun _ _ _ => step_staged

/-- Settles O12: the fetch finds no row, and the port ends at once. -/
theorem illegalDescriptorEndsInvalidArgument : Obligations.IllegalDescriptorEndsInvalidArgument := by
  intro s p d rest hl he hd hp idle
  rw [step_illegal hl he hd, issueIllegal_idle hp idle]

/-- Settles O13: the start of an operation and the end of an illegal descriptor make the same checks. -/
theorem descriptorToABusyPortIsIgnored : Obligations.DescriptorToABusyPortIsIgnored := by
  intro s p d rest hl he
  cases hd : decodeCmd d with
  | none =>
    rw [step_illegal hl he hd]
    exact ⟨fun hp busy => issueIllegal_busy hp busy, fun absent => issueIllegal_absent absent⟩
  | some i =>
    rw [step_descriptor hl he hd, exec_decoded hd]
    exact ⟨fun hp busy => issue_busy hp busy, fun absent => issue_absent absent⟩

/-- Settles O21: both frame kinds are one frame, and its three checks. -/
theorem frameStopsByName : Obligations.FrameStopsByName := by
  intro s bsb off
  have both : ∀ {f : Fault}, (∀ dir, runFrame dir bsb off s = .fault f) →
      exec (.wireRd bsb off) s = .fault f ∧ exec (.wireWr bsb off) s = .fault f := fun h =>
    ⟨(exec_frame .rd bsb off s).trans (h .rd), (exec_frame .wr bsb off s).trans (h .wr)⟩
  exact ⟨fun free => both fun _ => runFrame_unlocked free, fun held on => both fun _ => runFrame_overlap held on,
    fun held idle payload => both fun _ => runFrame_malformed held idle (xferArgsOk_eq_false payload)⟩

end Sys2Proof.Machine
end

section
/-! SUPPORT and the proofs of O19, O20, O22 to O28 and O30: frames on the wire, and transport calls from their
argument checks to the delivery of their answer (40_transport.md). -/

namespace Sys2Proof.Machine

/-! ### One byte, bit by bit -/

/-- The first bit of a header on the line is bit 15 of the offset (30_encoding.md R100, R103). -/
theorem headerByte_first_bit {L : CtrlLayout} (hL : L.ok = true) (dir : Dir) (bsb : Bsb) (off : Word) :
    (headerByte (header L dir bsb off) 0).getLsbD 7 = off.getLsbD 15 := by
  rw [header_eq (CtrlLayout.usable hL), headerByte, BitVec.getLsbD_extractLsb', BitVec.getLsbD_append]
  simp

/-- The cycles, then one more. -/
theorem cycles_succ' (n : Nat) (miso : Byte) (e : Engine) :
    cycles (n + 1) miso e = clockCycle miso (cycles n miso e) := by
  induction n generalizing e with
  | zero => rfl
  | succ n ih => rw [cycles, ih, cycles]

/-- Settles O22: the state after `k` cycles (`cycles_loadByte`), and the byte presented when chip select becomes
active and at the end of every byte turn. -/
theorem eightCyclesExchangeAByte : Obligations.EightCyclesExchangeAByte := by
  refine ⟨fun out miso e => ⟨shiftByte_eq out miso e, fun k hk => ?_⟩, fun dir bsb off s hL => ?_,
    fun s t ht b hb => ?_⟩
  · obtain ⟨shi, hc, hs⟩ := cycles_loadByte out miso e k hk
    have hbit : (BitVec.ofNat 3 (7 - k)).toNat = 7 - k := by simp; omega
    refine ⟨by rw [hc], by rw [hc], by rw [hc]; exact hs, ?_, rfl⟩
    rw [cycles_succ', clockCycle, hc]
    simp only [hbit]
  · refine ⟨?_, headerByte_first_bit hL dir bsb off⟩
    obtain ⟨bit, sho, mosi, ho⟩ := openFrame_spec dir bsb off s
    rw [ho]
  · obtain ⟨e, he⟩ := byteTurn_presents s t ht
    rw [he] at hb ⊢
    exact present_loads hb

/-! ### A whole frame -/

/-- What a frame does to the chip as it opens, in the valid range of the clock and outside it. -/
theorem openMem_cases (P : Params) (clocked : Bool) (m : Memory) (free : Nat) (bsb : Bsb) (off : Word) (n : Nat) :
    (clocked = true → wild P bsb off n = false → openMem P clocked m free bsb off n = m) ∧
      (clocked = false → ∃ f, openMem P clocked m free bsb off n = .forgetAll f) := by
  constructor
  · rintro rfl tame; exact openMem_tame tame m free
  · rintro rfl; exact ⟨free + 1, rfl⟩

/-- A frame header that can be executed opens its frame, which the owner's turns listed next bring to its end. -/
theorem runFrame_run {dir : Dir} {bsb : Bsb} {off : Word} {s t : State} {p k : Nat} {rest : List Event}
    (held : s.lock.held = true) (idle : s.eng.ph = .idle) (args : xferArgsOk s.params off s.eng.count = true)
    (he : s.events = .env (.turn p k) :: rest) (ht : turns p k (openFrame dir bsb off s) = t) (ended : t.eng.atRest) :
    runFrame dir bsb off s = .next { t with events := rest } := by
  have opened : frameOn (openFrame dir bsb off s) = true := by
    obtain ⟨bit, sho, mosi, ho⟩ := openFrame_spec dir bsb off s
    simp [frameOn, ho]
  have closed : frameOn (turns p k (openFrame dir bsb off s)) = false := by simp [frameOn, ht, ended.1]
  rw [runFrame, held, idle, args, drive_frame (by exact he) opened closed, ht]
  simp

/-- Settles O19: the frame opened by the header, and the delivery of its bytes. -/
theorem wireRdCarriesAReadFrame : Obligations.WireRdCarriesAReadFrame := by
  intro s bsb off n rest m hP held idle hc h1 h2 h3 he
  obtain ⟨e, f, hr, ht⟩ := readOpen_run (bsb := bsb) (off := off) held rfl (Params.layout_ok hP).2 hc h1 h2
  obtain ⟨tame, unclocked⟩ := openMem_cases s.params s.clocked s.mem s.free bsb off n
  exact ⟨tame, unclocked, e, f, s.lock.owner, hr,
    runFrame_run held idle (hc ▸ xferArgsOk_of hP h1 h2 h3) he ht (by rw [proceed_eng]; exact hr)⟩

/-- Settles O20: the frame opened by the header, and the end of its call. -/
theorem wireWrCarriesAWriteFrame : Obligations.WireWrCarriesAWriteFrame := by
  intro s bsb off v rest hP held idle hd hc h1 h2 h3 he
  obtain ⟨e, f, hr, ht⟩ := writeOpen_run (bsb := bsb) (off := off) held rfl hc hd h1 h2
  exact ⟨e, f, s.lock.owner, hr,
    runFrame_run held idle (hc ▸ xferArgsOk_of hP h1 h2 h3) he ht (by rw [proceed_eng]; exact hr)⟩

theorem PortOnly.trace {p : Nat} {s t : State} (h : PortOnly p s t) : t.trace = s.trace := by
  obtain ⟨f, m, rfl, -⟩ := h; rfl

@[simp] theorem headerTurn_trace (s : State) : (headerTurn s).trace = s.trace := by simp only [headerTurn]
@[simp] theorem headerTurn_lock (s : State) : (headerTurn s).lock = s.lock := by simp only [headerTurn]
@[simp] theorem readTurn_trace (s : State) : (readTurn s).trace = s.trace := by simp only [readTurn]
@[simp] theorem readTurn_lock (s : State) : (readTurn s).lock = s.lock := by simp only [readTurn]
@[simp] theorem writeTurn_trace (s : State) : (writeTurn s).trace = s.trace := by simp only [writeTurn]
@[simp] theorem writeTurn_lock (s : State) : (writeTurn s).lock = s.lock := by simp only [writeTurn]

/-- Settles O30: of the turns only the end of the owner's frame writes the trace or releases the lock. -/
theorem oneFramePerLockHolding : Obligations.OneFramePerLockHolding := by
  refine fun p s => ⟨fun ⟨held, own, ph⟩ => ?_, fun other => ?_⟩
  · rw [turn_closes held own ph]
    exact ⟨_, proceed_trace _ _ _, rfl, rfl, by rw [proceed_lock]; rfl, by rw [proceed_eng]; rfl⟩
  · have ht := turn_turned p s
    generalize turn p s = t at ht ⊢
    cases ht with
    | nothing => exact ⟨rfl, fun _ => rfl⟩
    | opens held own ph staged target => exact ⟨rfl, fun _ => rfl⟩
    | header held own ph => exact ⟨headerTurn_trace s, fun _ => headerTurn_lock s⟩
    | reads held own ph dir => exact ⟨readTurn_trace s, fun _ => readTurn_lock s⟩
    | writes held own ph dir => exact ⟨writeTurn_trace s, fun _ => writeTurn_lock s⟩
    | closes held own ph => exact absurd ⟨held, own, ph⟩ other
    | grants free asks => exact ⟨rfl, fun held => by simp [free] at held⟩
    | waits waiting only more => exact ⟨only.trace, fun _ => only.lock⟩

/-! ### A failed frame -/

/-- An operation with a step pending passes on the error of its call (40_transport.md R144). -/
theorem giveUp_pending {p : Nat} {e : Status} {s : State} (h : (s.port p).seq ≠ .none) :
    giveUp p e s = raise p e s := by
  unfold giveUp
  split
  · next none => exact absurd none h
  · rfl

/-- A failure of the frame is taken whatever is staged (log 16). -/
theorem step_fault {s : State} {rest : List Event} (hf : s.faulted = false) (he : s.events = .env .fault :: rest) :
    step s = .next (failFrame { s with events := rest }) := by
  rw [step, fetch_cut hf (by rw [State.cutNext, he]), fetchEvent, he]
  rfl

/-- Settles O28: the frame is closed as it stands, and the owner's operation ends. -/
theorem failedFrameEndsHardwareFault : Obligations.FailedFrameEndsHardwareFault := by
  intro s rest hf held port pending he
  refine ⟨s.lock.owner, (closeFrame false s).trace, fun idle => if_pos idle, fun on => ⟨_, rfl, rfl, if_neg on⟩, ?_⟩
  rw [step_fault hf he, failFrame, if_pos (by exact held), giveUp_pending (by exact pending)]
  rfl

/-! ### Asking for the lock -/

/-- `n` ticks of port `p` counted in `LOCKWAIT[p]` (40_transport.md R133). -/
def State.waited (s : State) (p n : Nat) : State := s.modPort p (fun q => { q with lockWait := q.lockWait + n })

section Asking

variable {s : State} {p j k : Nat} {c : Call}

/-- The turn of a port that asks for a lock it does not hold is one tick of its wait (log 4). -/
theorem turn_asking (own : s.lock.held = true → s.lock.owner ≠ p) (asks : (s.port p).act = .asking c) :
    turn p s = askTurn p c s := by
  rw [turn, if_neg (by simpa using own), asks]

theorem askTurn_free (free : s.lock.held = false) : askTurn p c s = grant p c s := by
  simp [askTurn, free]

theorem askTurn_expired (held : s.lock.held = true) (late : s.cfg.lockTmo.toNat ≤ (s.port p).lockWait) :
    askTurn p c s = raise p .timeout s := by
  simp [askTurn, held, late]

theorem askTurn_counts (held : s.lock.held = true) (early : (s.port p).lockWait < s.cfg.lockTmo.toNat) :
    askTurn p c s = s.waited p 1 := by
  simp [askTurn, held, Nat.not_le.mpr early, State.waited]

/-- The wait of a port for a lock that another holds may end early (40_transport.md R149). -/
theorem expire_asking (asks : (s.port p).act = .asking c) :
    expire p s = if s.lock.held && s.lock.owner != p then raise p .timeout s else s := by
  rw [expire, asks]

/-- Settles O26: the start of a call, the three outcomes of a tick, and the early end of the wait. -/
theorem lockTick : Obligations.LockTick := by
  refine ⟨fun s p c seq en args => xcall_ok en args, fun s p c port asks => ⟨fun free => ?_, fun held own => ?_⟩⟩
  · refine ⟨by rw [applyEnv, expire_asking asks, free]; rfl, ?_⟩
    rw [turn_asking (by simp [free]) asks, askTurn_free free]
    rfl
  · have ticks := turn_asking (fun _ => own) asks
    refine ⟨by rw [applyEnv, expire_asking asks, if_pos (by simp [held, own])]; rfl, fun late => ?_, fun early => ?_⟩
    · rw [ticks, askTurn_expired held late]; rfl
    · rw [ticks, askTurn_counts held early]; rfl

theorem waited_port (port : p < s.ports.length) (n : Nat) :
    (s.waited p n).port p = { s.port p with lockWait := (s.port p).lockWait + n } :=
  port_modPort_same s p _ port

/-- The ticks of a port that waits for a lock another holds, up to the bound (40_transport.md R133). -/
theorem turns_waiting (port : p < s.ports.length) (held : s.lock.held = true) (own : s.lock.owner ≠ p)
    (asks : (s.port p).act = .asking c) (hj : (s.port p).lockWait + j ≤ s.cfg.lockTmo.toNat) :
    turns p j s = s.waited p j := by
  induction j with
  | zero => exact (modPort_id s p).symm
  | succ j ih =>
    have asks' : ((s.waited p j).port p).act = .asking c := by rw [waited_port port]; exact asks
    have early : ((s.waited p j).port p).lockWait < s.cfg.lockTmo.toNat := by rw [waited_port port]; exact hj
    rw [turns_succ', ih (by omega), turn_asking (fun _ => by exact own) asks',
      askTurn_counts (by exact held) early]
    exact modPort_modPort _ _ _ _

/-- A port that has just asked for a lock another holds ends its operation `Timeout` within `LOCK_TMO + 1` turns,
and further turns do nothing (40_transport.md R133). -/
theorem turns_timeout (port : p < s.ports.length) (held : s.lock.held = true) (own : s.lock.owner ≠ p)
    (asks : (s.port p).act = .asking c) (fresh : (s.port p).lockWait = 0) (hk : s.cfg.lockTmo.toNat + 1 ≤ k) :
    turns p k s = raise p .timeout (s.waited p s.cfg.lockTmo.toNat) := by
  have asks' : ((s.waited p s.cfg.lockTmo.toNat).port p).act = .asking c := by rw [waited_port port]; exact asks
  have late : s.cfg.lockTmo.toNat ≤ ((s.waited p s.cfg.lockTmo.toNat).port p).lockWait := by
    rw [waited_port port]; exact Nat.le_add_left _ _
  obtain ⟨d, rfl⟩ := Nat.exists_eq_add_of_le hk
  rw [turns_add, turns_succ', turns_waiting port held own asks (by omega),
    turn_asking (fun _ => by exact own) asks', askTurn_expired (by exact held) late]
  refine turns_rest (by simp [raise, State.waited, own]) ?_ d
  rw [raise, State.waited, modPort_modPort, port_modPort_same _ _ _ port]
  rfl

end Asking

/-! ### The operations XFER.RD and XFER.WR -/

section Operation

variable {L : CtrlLayout} {i : Instr} {opc : Byte} {bsb : Bsb} {off len aux : Word} {s : State}

theorem issued_descriptor (opc : Byte) (bsb : Bsb) (off len aux : Word) (s : State) :
    issued (descriptor opc bsb off len aux) s = s.modPort s.sel (fun q => (latch opc bsb off len aux q).started) := by
  simp only [issued, opcOf_descriptor, bsbOf_descriptor, offOf_descriptor, lenOf_descriptor, auxOf_descriptor]

/-- An operation on an idle port of an enabled block runs on from its start (30_encoding.md R108). -/
theorem exec_enabled {d : Descriptor} (hd : encode L i = .cmd d) (port : s.sel < s.ports.length)
    (idle : (s.port s.sel).busy = false) (en : s.cfg.en = true) :
    exec i s = .next (drive (portBusy s.sel) (start i s.sel (issued d s))) := by
  rw [exec_cmd hd, issue_enabled port idle en, issued]

/-- With nothing listed it stays there (log 3). -/
theorem exec_started {d : Descriptor} (hd : encode L i = .cmd d) (port : s.sel < s.ports.length)
    (idle : (s.port s.sel).busy = false) (en : s.cfg.en = true) (none : s.events = []) :
    exec i s = .next (start i s.sel (issued d s)) := by
  rw [exec_enabled hd port idle en, drive_nil ((start_portOnly i s.sel (issued d s)).events.trans none)]

/-- An operation of a disabled block, or whose own checks refuse it, ends `InvalidArgument` at once with its
fields latched (10_state.md R31, 60_exceptions.md R256). -/
theorem exec_refused (hd : encode L i = .cmd (descriptor opc bsb off len aux)) (port : s.sel < s.ports.length)
    (idle : (s.port s.sel).busy = false)
    (refused : s.cfg.en = true → start i s.sel (issued (descriptor opc bsb off len aux) s) =
      raise s.sel .invalidArgument (issued (descriptor opc bsb off len aux) s)) :
    exec i s = .next
      { s with ports := s.ports.modify s.sel (Port.afterError opc bsb off len aux .invalidArgument) } := by
  cases en : s.cfg.en with
  | false =>
    rw [exec_cmd hd, issue_disabled port idle en]
    simp only [opcOf_descriptor, bsbOf_descriptor, offOf_descriptor, lenOf_descriptor, auxOf_descriptor]
  | true =>
    rw [exec_enabled hd port idle en, refused en, issued_descriptor, raise, modPort_modPort, drive_done]
    · rfl
    · rw [portBusy, port_modPort_same _ _ _ port]; rfl

/-- An operation whose calls bring it to an end within the turns listed next (60_exceptions.md R256). -/
theorem exec_finish {g : Port → Port} {seq : Seq} {frs : List Frame} {m : Memory} {e : Engine} {f j k : Nat}
    {rest : List Event} (hd : encode L i = .cmd (descriptor opc bsb off len aux)) (hr : s.ready)
    (he : s.events = .env (.turn s.sel k) :: rest) (hk : j ≤ k)
    (busy : ((start i s.sel (issued (descriptor opc bsb off len aux) s)).port s.sel).busy = true)
    (ht : turns s.sel j (start i s.sel (issued (descriptor opc bsb off len aux) s)) =
      finish s.sel g (ended s.sel seq frs m e f (issued (descriptor opc bsb off len aux) s))) :
    exec i s = .next
      { s with
        ports := s.ports.modify s.sel (fun q =>
          (g { (latch opc bsb off len aux q).started with seq := seq, act := .rest, lockWait := 0 }).ended .ok)
        lock := ⟨false, s.sel⟩
        eng := e
        mem := m
        trace := frs ++ s.trace
        events := rest
        free := f } := by
  have port : s.sel < (ended s.sel seq frs m e f (issued (descriptor opc bsb off len aux) s)).ports.length := by
    rw [length_ended, issued, length_modPort]; exact hr.1
  have last := port_modPort_same _ s.sel (fun q => (g q).ended .ok) port
  rw [exec_run hd hr he hk busy (start_portOnly _ _ _).events ht rfl (by rw [finish, last]; rfl)
    (by rw [finish, last]; rfl), finish, modPort_ended, issued_descriptor, modPort_modPort]
  rfl

theorem start_xferRd (bsb : Bsb) (off len : Word) (p : Nat) (s : State) :
    start (.xferRd bsb off len) p s = readCall p bsb off len.toNat .xferRd s := rfl

/-- XFER.WR sends the bytes that `WBUF` holds when it starts (40_transport.md R147). -/
theorem start_xferWr {d : Descriptor} (port : s.sel < s.ports.length) (bsb : Bsb) (off len : Word) :
    start (.xferWr bsb off len) s.sel (issued d s) =
      writeCall s.sel bsb off (wbufBytes s.sel (s.port s.sel).wbuf 0 len.toNat) .xferWr (issued d s) := by
  have wbuf : ((issued d s).port s.sel).wbuf = (s.port s.sel).wbuf := by
    rw [issued, port_modPort_same _ _ _ port]; rfl
  simp only [start, wbuf]

end Operation

/-- Settles O25: the checks of `xcall`, which both operations make with the same offset and count. -/
theorem transportArgumentChecks : Obligations.TransportArgumentChecks := by
  refine ⟨rfl, fun s bsb off len port idle => ⟨fun bad => ?_, fun en nonzero least span none => ?_⟩⟩
  · have refused (dir : Dir) (data : List Byte) (seq : Seq) (d : Descriptor) (en : s.cfg.en = true) :
        xcall s.sel ⟨dir, bsb, off, len.toNat, data⟩ seq (issued d s) = raise s.sel .invalidArgument (issued d s) := by
      have args : xferArgsOk s.params off len.toNat = false :=
        xferArgsOk_eq_false (by simp only [en, BitVec.toNat_eq, Bool.true_eq_false] at bad; tauto)
      exact xcall_bad (by rw [Bool.and_eq_false_iff]; exact .inr args)
    refine ⟨exec_refused (L := .default) rfl port idle (refused .rd [] .xferRd _),
      exec_refused (L := .default) rfl port idle fun en => ?_⟩
    rw [start_xferWr port, writeCall, length_wbufBytes, refused .wr _ _ _ en]
  · have args : xferArgsOk s.params off len.toNat = true := by
      have positive : len.toNat ≠ 0 := BitVec.toNat_ne_iff_ne.mpr nonzero
      simp only [xferArgsOk, Bool.and_eq_true, decide_eq_true_eq]
      omega
    constructor
    · rw [exec_started (L := .default) rfl port idle en none, start_xferRd, readCall,
        xcall_ok (by exact en) (by exact args), issued_descriptor, modPort_modPort]
      rfl
    · rw [exec_started (L := .default) rfl port idle en none, start_xferWr port, writeCall, length_wbufBytes,
        xcall_ok (by exact en) (by exact args), issued_descriptor, modPort_modPort]
      rfl

/-- The call that `OFF` and a nonzero `LEN` give within a block passes the checks (40_transport.md R131). -/
theorem xferArgsOk_len {P : Params} (hP : P.ok = true) {off len : Word} (nonzero : len ≠ 0)
    (span : off.toNat + len.toNat ≤ 65536) : xferArgsOk P off len.toNat = true := by
  have positive : len.toNat ≠ 0 := BitVec.toNat_ne_iff_ne.mpr nonzero
  exact xferArgsOk_of hP (by omega) (by omega) span

/-- Settles O23: one read call, whose answer goes to `RBUF`. -/
theorem xferRdReadsTheChip : Obligations.XferRdReadsTheChip := by
  intro s bsb off len k rest m hr hP nonzero span he hk
  have args := xferArgsOk_len hP nonzero span
  have hd : encode .default (.xferRd bsb off len) = .cmd (descriptor 0x01 bsb off len 0) := rfl
  have free := issued_free (d := descriptor 0x01 bsb off len 0) hr hP
  have busy := xcall_busy (c := ⟨.rd, bsb, off, len.toNat, []⟩) (seq := .xferRd) free args (issued_busy hr.1)
  obtain ⟨e, f, rests, ht⟩ := readCall_run (bsb := bsb) (seq := .xferRd) free args
  rw [proceed, ended_port _ _ _ _ _ _ _ free.port] at ht
  obtain ⟨tame, unclocked⟩ := openMem_cases s.params s.clocked s.mem s.free bsb off len.toNat
  exact ⟨tame, unclocked, e, f, s.sel, 0, rests, exec_finish hd hr he hk busy ht⟩

/-- Settles O24: one write call of the bytes of `WBUF`. -/
theorem xferWrWritesTheChip : Obligations.XferWrWritesTheChip := by
  intro s bsb off len k rest v hr hP nonzero span he hk
  have hv : v.length = len.toNat := length_wbufBytes _ _ _ _
  have args : xferArgsOk s.params off v.length = true := hv ▸ xferArgsOk_len hP nonzero span
  have hd : encode .default (.xferWr bsb off len) = .cmd (descriptor 0x02 bsb off len 0) := rfl
  have free := issued_free (d := descriptor 0x02 bsb off len 0) hr hP
  have busy := xcall_busy (c := ⟨.wr, bsb, off, v.length, v⟩) (seq := .xferWr) free args (issued_busy hr.1)
  obtain ⟨e, f, rests, ht⟩ := writeCall_run (bsb := bsb) (seq := .xferWr) free args
  rw [proceed, ended_port _ _ _ _ _ _ _ free.port] at ht
  have hs := start_xferWr (d := descriptor 0x02 bsb off len 0) hr.1 bsb off len
  exact ⟨e, f, s.sel, 0, rests, exec_finish hd hr he (hv ▸ hk) (hs ▸ busy) (hs ▸ ht)⟩

/-! ### The first call of every operation -/

/-- `t` is `s` after the start of a transport call of port `p` that passes its checks (40_transport.md R131). -/
def Calls (p : Nat) (s t : State) : Prop :=
  ∃ c seq, t = xcall p c seq s ∧ xferArgsOk s.params c.off c.count = true

section Calls

variable {p : Nat} {s : State}

theorem Calls.readCall {bsb : Bsb} {off : Word} {n : Nat} {seq : Seq} (args : xferArgsOk s.params off n = true) :
    Calls p s (readCall p bsb off n seq s) := ⟨_, _, rfl, args⟩

theorem Calls.writeCall {bsb : Bsb} {off : Word} {v : List Byte} {seq : Seq}
    (args : xferArgsOk s.params off v.length = true) : Calls p s (writeCall p bsb off v seq s) := ⟨_, _, rfl, args⟩

/-- The first call of a ring transfer lies in the window, whether the transfer is split or not
(41_ring_accessor.md R172). -/
theorem ringFirst_args {P : Params} (hP : P.ok = true) (off : Word) {n : Nat} (nonempty : n ≠ 0)
    (fits : n ≤ P.window) :
    (crosses P (ringOff P off) n = true → xferArgsOk P (ringOff P off) (tailLen P (ringOff P off)) = true) ∧
      (¬ crosses P (ringOff P off) n = true → xferArgsOk P (ringOff P off) n = true) := by
  obtain ⟨-, small⟩ := Params.window_ok hP
  obtain ⟨tail, positive, sum⟩ := tailLen_ringOff hP off
  rw [crosses_ringOff hP, tail, decide_eq_true_eq]
  exact ⟨fun _ => xferArgsOk_of hP (by omega) (by omega) (by omega),
    fun _ => xferArgsOk_of hP (by omega) (by omega) (by omega)⟩

/-- A ring read of at least one byte of a window (41_ring_accessor.md R176, R177). -/
theorem Calls.ringRd (hP : s.params.ok = true) (en : s.cfg.en = true) {win : Bsb}
    (window : windowOk s.params win = true) {n : Nat} (nonempty : n ≠ 0) (fits : n ≤ s.params.window)
    (off : Word) (k : RdCont) (empty : State → State) :
    Calls p s (ringRd p win off n k empty s) := by
  obtain ⟨split, whole⟩ := ringFirst_args hP off nonempty fits
  simp only [Machine.ringRd, en, window, lengthOk, fits, nonempty, decide_true, Bool.not_true, Bool.false_eq_true,
    if_false]
  split_ifs with crossing
  · exact .readCall (split crossing)
  · exact .readCall (whole crossing)

/-- A ring write of at least one byte of a window (41_ring_accessor.md R175, R177). -/
theorem Calls.ringWr (hP : s.params.ok = true) (en : s.cfg.en = true) {win : Bsb}
    (window : windowOk s.params win = true) {v : List Byte} (nonempty : v.length ≠ 0)
    (fits : v.length ≤ s.params.window) (off : Word) (k : WrCont) (empty : State → State) :
    Calls p s (ringWr p win off v k empty s) := by
  obtain ⟨split, whole⟩ := ringFirst_args hP off nonempty fits
  obtain ⟨tail, -, -⟩ := tailLen_ringOff hP off
  simp only [Machine.ringWr, en, window, lengthOk, fits, nonempty, decide_true, Bool.not_true, Bool.false_eq_true,
    if_false]
  split_ifs with crossing
  · refine .writeCall ?_
    rw [List.length_take, Nat.min_eq_left (by simp [crosses_ringOff hP] at crossing; omega)]
    exact split crossing
  · exact .writeCall (whole crossing)

/-- The size registers lie in their block (20_memory.md R62). -/
theorem Params.sizeRegs_ok {P : Params} (hP : P.ok = true) :
    P.regTxFsr.toNat + 2 ≤ Config.blockSize ∧ P.regRxRsr.toNat + 2 ≤ Config.blockSize := by
  simp only [Params.ok, Bool.and_eq_true, decide_eq_true_eq] at hP
  tauto

/-- The first read of a size register (42_size_query.md R191). -/
theorem Calls.sizeStart (hP : s.params.ok = true) {reg : Word} (inBlock : reg.toNat + 2 ≤ Config.blockSize) (r : Nat)
    (k : SizeCont) : Calls p s (sizeStart p reg r k s) := by
  obtain ⟨-, ⟨low, high⟩, -⟩ := Params.lengths_ok hP
  rw [Config.blockSize] at inBlock
  exact .readCall (xferArgsOk_of hP low (by omega) (by omega))

end Calls

/-- The start of a well-formed operation on an enabled block is a call that passes its checks, but for an empty
buffer transfer, which makes none, and RX.DEQ, which clears `MORE` first. -/
theorem start_calls {L : CtrlLayout} {i : Instr} {d : Descriptor} {p : Nat} {s : State} (hd : encode L i = .cmd d)
    (wf : i.wellFormed s.params = true) (rd : ∀ bsb off len, i = .bufRd bsb off len → len ≠ 0)
    (wr : ∀ bsb off len, i = .bufWr bsb off len → len ≠ 0) (deq : i ≠ .rxDeq) (hP : s.params.ok = true)
    (en : s.cfg.en = true) : Calls p s (start i p s) := by
  obtain ⟨tx, rx⟩ := Params.sizeRegs_ok hP
  cases i with
  | wireRd bsb off => exact nomatch hd
  | wireWr bsb off => exact nomatch hd
  | xferRd bsb off len =>
    simp only [Instr.wellFormed, xferSpanOk, Bool.and_eq_true, decide_eq_true_eq] at wf
    rw [start_xferRd]
    exact .readCall (xferArgsOk_of hP (by omega) (by omega) wf.2)
  | xferWr bsb off len =>
    simp only [Instr.wellFormed, xferSpanOk, Bool.and_eq_true, decide_eq_true_eq] at wf
    dsimp only [start]
    exact .writeCall (by rw [length_wbufBytes]; exact xferArgsOk_of hP (by omega) (by omega) wf.2)
  | bufRd bsb off len =>
    simp only [Instr.wellFormed, ringLenOk, Bool.and_eq_true, decide_eq_true_eq] at wf
    exact .ringRd hP en wf.1 (BitVec.toNat_ne_iff_ne.mpr (rd _ _ _ rfl)) wf.2 _ _ _
  | bufWr bsb off len =>
    simp only [Instr.wellFormed, ringLenOk, Bool.and_eq_true, decide_eq_true_eq] at wf
    exact .ringWr hP en wf.1 (by rw [length_wbufBytes]; exact BitVec.toNat_ne_iff_ne.mpr (wr _ _ _ rfl))
      (by rw [length_wbufBytes]; exact wf.2) _ _ _
  | getTxFree => exact .sizeStart hP tx _ _
  | getRxSize => exact .sizeStart hP rx _ _
  | sockCmd code tmo =>
    exact .writeCall (xferArgsOk_of hP (Nat.le_refl 1) (by simp) (by have := s.params.regCr.isLt; simp; omega))
  | txEnq len =>
    dsimp only [start]
    rw [if_neg (by simpa [Instr.wellFormed] using wf)]
    exact .sizeStart hP tx _ _
  | rxDeq => exact absurd rfl deq

/-- RX.DEQ clears `MORE` and then calls (43_fifo_sequences.md R230, R231). -/
theorem rxStart_calls {p : Nat} {s : State} (hP : s.params.ok = true) :
    Calls p { s with more := false } (rxStart p s) :=
  .sizeStart (by exact hP) (Params.sizeRegs_ok hP).2 _ _

/-- A call that passes its checks, on a port that another keeps from the lock: the port is as busy as before, and
after the bound its operation has ended `Timeout` (40_transport.md R133). -/
theorem Calls.timeout {p k : Nat} {s t : State} (h : Calls p s t) (port : p < s.ports.length) (en : s.cfg.en = true)
    (held : s.lock.held = true) (own : s.lock.owner ≠ p) (hk : s.cfg.lockTmo.toNat + 1 ≤ k) :
    (t.port p).busy = (s.port p).busy ∧
      turns p k t = s.modPort p (fun q => { q.failed .timeout with lockWait := s.cfg.lockTmo.toNat }) := by
  obtain ⟨c, seq, rfl, args⟩ := h
  rw [xcall_ok en args]
  have asking := port_modPort_same s p (fun q => { q with seq := seq, act := .asking c, lockWait := 0 }) port
  refine ⟨by rw [asking], ?_⟩
  rw [turns_timeout (by simpa using port) (by exact held) (by exact own) (by rw [asking]) (by rw [asking])
    (by exact hk), raise, State.waited, modPort_modPort, modPort_modPort]
  simp only [Nat.zero_add]
  rfl

/-- An operation whose first call finds the lock held by another, given `LOCK_TMO + 1` turns; `m` is `MORE` as the
call finds it. -/
theorem exec_timeout {L : CtrlLayout} {i : Instr} {d : Descriptor} {s : State} {k : Nat} {rest : List Event} {m : Bool}
    (hd : encode L i = .cmd d) (port : s.sel < s.ports.length) (idle : (s.port s.sel).busy = false)
    (en : s.cfg.en = true) (held : s.lock.held = true) (own : s.lock.owner ≠ s.sel)
    (he : s.events = .env (.turn s.sel k) :: rest) (hk : s.cfg.lockTmo.toNat + 1 ≤ k)
    (calls : Calls s.sel { issued d s with more := m } (start i s.sel (issued d s))) :
    exec i s = .next
      { s with
        ports := s.ports.modify s.sel (fun q =>
          { q.afterError (opcOf d) (bsbOf d) (offOf d) (lenOf d) (auxOf d) .timeout with
            lockWait := s.cfg.lockTmo.toNat })
        more := m
        events := rest } := by
  have port' : s.sel < { issued d s with more := m }.ports.length := by simpa [issued] using port
  obtain ⟨busy, ht⟩ := calls.timeout (k := k) port' en held own hk
  have last := port_modPort_same { issued d s with more := m } s.sel
    (fun q => { q.failed .timeout with lockWait := s.cfg.lockTmo.toNat }) port'
  rw [exec_enabled hd port idle en, drive_run ((start_portOnly i s.sel (issued d s)).events.trans he)
    (busy.trans (issued_busy port)) (by rw [ht]; exact congrArg Port.busy last), ht, issued]
  simp only [State.modPort, List.modify_modify_eq]
  rfl

/-- Settles O27: the first call of the operation asks for the lock and waits until the bound. -/
theorem lockTimeoutLeavesTheRest : Obligations.LockTimeoutLeavesTheRest := by
  intro s i d k rest hd wf rd wr hP port idle en held own he hk
  refine ⟨s.cfg.lockTmo.toNat, exec_timeout hd port idle en held own he hk ?_⟩
  by_cases deq : i = .rxDeq
  · subst deq
    rw [if_pos rfl]
    exact rxStart_calls (by exact hP)
  · rw [if_neg deq]
    exact start_calls hd (by exact wf) rd wr deq (by exact hP) (by exact en)

end Sys2Proof.Machine
end

section
/-! SUPPORT and the proofs of O31 to O37: the ring accessor. The checks and the first call of a buffer operation, the
second call of a split, and where a ring write puts its bytes. -/

namespace Sys2Proof.Machine

/-! ### The split -/

/-- Settles O31: the sums of the tail and the head in a window (41_ring_accessor.md R171, R172). -/
theorem ringSplitArithmetic : Obligations.RingSplitArithmetic := by
  intro P off n hP positive fits
  obtain ⟨reduced, inWindow⟩ := ringOff_toNat hP off
  obtain ⟨tail, nonempty, sum⟩ := tailLen_ringOff hP off
  refine ⟨reduced, by rw [crosses, decide_eq_true_eq, reduced], fun crossing => ?_⟩
  rw [crosses_ringOff hP, decide_eq_true_eq] at crossing
  rw [tail]
  exact ⟨sum, nonempty, crossing, by omega⟩

/-! ### The checks -/

/-- The window check is the membership of R177. -/
theorem windowOk_iff {P : Params} {win : Bsb} : windowOk P win = true ↔ win = P.bsbS0Tx ∨ win = P.bsbS0Rx := by
  simp only [windowOk, Bool.or_eq_true, beq_iff_eq]

/-- The register block of socket 0 is no window (20_memory.md R62). -/
theorem window_ne_s0Reg {P : Params} (hP : P.ok = true) {win : Bsb} (window : windowOk P win = true) :
    win ≠ P.bsbS0Reg := by
  rintro rfl
  simp only [Params.ok, Bool.and_eq_true, Bool.not_eq_true', isWindow] at hP
  have noWindow : windowOk P P.bsbS0Reg = false := by unfold windowOk; tauto
  exact nomatch noWindow.symm.trans window

section Checks

variable {s : State} {p : Nat} {win : Bsb} {off : Word} {n : Nat} {v : List Byte} {kr : RdCont} {kw : WrCont}
  {empty : State → State}

/-- A ring read of no window, or of more than one, is refused (41_ring_accessor.md R177). -/
theorem ringRd_refused (bad : windowOk s.params win = false ∨ lengthOk s.params n = false) :
    ringRd p win off n kr empty s = raise p .invalidArgument s := by
  obtain noWindow | tooLong := bad
  · simp [ringRd, noWindow]
  · simp [ringRd, tooLong]

/-- So is such a ring write. -/
theorem ringWr_refused (bad : windowOk s.params win = false ∨ lengthOk s.params v.length = false) :
    ringWr p win off v kw empty s = raise p .invalidArgument s := by
  obtain noWindow | tooLong := bad
  · simp [ringWr, noWindow]
  · simp [ringWr, tooLong]

variable (en : s.cfg.en = true) (window : windowOk s.params win = true)
include en window

/-- An empty ring read makes no call (41_ring_accessor.md R177). -/
theorem ringRd_empty : ringRd p win off 0 kr empty s = empty s := by simp [ringRd, en, window, lengthOk]

/-- Nor does an empty ring write. -/
theorem ringWr_empty : ringWr p win off [] kw empty s = empty s := by simp [ringWr, en, window, lengthOk]

variable (hP : s.params.ok = true)
include hP

/-- The first call of a ring read: the tail of a span that crosses the end of the window, else the whole span
(41_ring_accessor.md R172, R176). -/
theorem ringRd_first (nonempty : 1 ≤ n) (fits : n ≤ s.params.window) :
    (ringTail s.params off < n ∧ ringRd p win off n kr empty s =
      readCall p win (ringOff s.params off) (ringTail s.params off)
        (.ringRdTail win (n - ringTail s.params off) kr) s) ∨
    (n ≤ ringTail s.params off ∧
      ringRd p win off n kr empty s = readCall p win (ringOff s.params off) n (.ringRdWhole kr) s) := by
  have positive : n ≠ 0 := by omega
  obtain ⟨tail, -, -⟩ := tailLen_ringOff hP off
  simp only [ringRd, en, window, lengthOk, fits, positive, crosses_ringOff hP, tail, decide_true, Bool.not_true,
    Bool.false_eq_true, decide_eq_true_eq, if_false]
  split_ifs with crossing
  · exact .inl ⟨crossing, rfl⟩
  · exact .inr ⟨Nat.not_lt.mp crossing, rfl⟩

/-- The first call of a ring write, in the same two cases (41_ring_accessor.md R172, R175). -/
theorem ringWr_first (nonempty : 1 ≤ v.length) (fits : v.length ≤ s.params.window) :
    (ringTail s.params off < v.length ∧ ringWr p win off v kw empty s =
      writeCall p win (ringOff s.params off) (v.take (ringTail s.params off))
        (.ringWrTail win (v.drop (ringTail s.params off)) kw) s) ∨
    (v.length ≤ ringTail s.params off ∧
      ringWr p win off v kw empty s = writeCall p win (ringOff s.params off) v (.ringWrWhole kw) s) := by
  have positive : v.length ≠ 0 := by omega
  obtain ⟨tail, -, -⟩ := tailLen_ringOff hP off
  simp only [ringWr, en, window, lengthOk, fits, positive, crosses_ringOff hP, tail, decide_true, Bool.not_true,
    Bool.false_eq_true, decide_eq_true_eq, if_false]
  split_ifs with crossing
  · exact .inl ⟨crossing, rfl⟩
  · exact .inr ⟨Nat.not_lt.mp crossing, rfl⟩

end Checks

/-- An operation that ends `OK` at its start, before any call (60_exceptions.md R256). -/
theorem exec_done {L : CtrlLayout} {i : Instr} {opc : Byte} {bsb : Bsb} {off len aux : Word} {s : State}
    {g : Port → Port} (hd : encode L i = .cmd (descriptor opc bsb off len aux)) (port : s.sel < s.ports.length)
    (idle : (s.port s.sel).busy = false) (en : s.cfg.en = true)
    (done : start i s.sel (issued (descriptor opc bsb off len aux) s) =
      finish s.sel g (issued (descriptor opc bsb off len aux) s)) :
    exec i s = .next
      { s with ports := s.ports.modify s.sel (fun q => (g (latch opc bsb off len aux q).started).ended .ok) } := by
  rw [exec_enabled hd port idle en, done, issued_descriptor, finish, modPort_modPort, drive_done]
  · rfl
  · rw [portBusy, port_modPort_same _ _ _ port]; rfl

theorem start_bufRd (win : Bsb) (off len : Word) (p : Nat) (s : State) :
    start (.bufRd win off len) p s =
      ringRd p win off len.toNat .own (finish p (fun q => { q with rbuf := [] })) s := rfl

/-- BUF.WR sends the bytes that `WBUF` holds when it starts (41_ring_accessor.md R175). -/
theorem start_bufWr {d : Descriptor} {s : State} (port : s.sel < s.ports.length) (win : Bsb) (off len : Word) :
    start (.bufWr win off len) s.sel (issued d s) =
      ringWr s.sel win off (wbufBytes s.sel (s.port s.sel).wbuf 0 len.toNat) .own (finish s.sel id) (issued d s) := by
  have wbuf : ((issued d s).port s.sel).wbuf = (s.port s.sel).wbuf := by
    rw [issued, port_modPort_same _ _ _ port]; rfl
  simp only [start, wbuf]

/-- Settles O32: the checks of `ringRd` and `ringWr`, each made before the first call. -/
theorem ringArgumentChecks : Obligations.RingArgumentChecks := by
  intro s win off len port idle
  refine ⟨fun bad => ?_, fun en window zero => ?_⟩
  · have refused (en : s.cfg.en = true) : windowOk s.params win = false ∨ lengthOk s.params len.toNat = false := by
      rw [← Bool.not_eq_true, windowOk_iff, lengthOk, decide_eq_false_iff_not, Nat.not_le, not_or]
      exact bad.resolve_left (by simp [en])
    refine ⟨exec_refused (L := .default) rfl port idle fun en => ringRd_refused (refused en),
      exec_refused (L := .default) rfl port idle fun en => ?_⟩
    rw [start_bufWr port]
    exact ringWr_refused (by rw [length_wbufBytes]; exact refused en)
  · subst zero
    have window := windowOk_iff.mpr window
    constructor
    · refine exec_done (L := .default) (g := fun q => { q with rbuf := [] }) rfl port idle en ?_
      rw [start_bufRd]
      exact ringRd_empty (by exact en) (by exact window)
    · refine exec_done (L := .default) (g := id) rfl port idle en ?_
      rw [start_bufWr port]
      exact ringWr_empty (by exact en) (by exact window)

/-! ### The calls -/

/-- A port asks for the call that passed its checks, with its step pending (40_transport.md R133). -/
theorem port_xcall {p : Nat} {c : Call} {seq : Seq} {s : State} (port : p < s.ports.length) (en : s.cfg.en = true)
    (args : xferArgsOk s.params c.off c.count = true) :
    (xcall p c seq s).port p = { s.port p with seq := seq, act := .asking c, lockWait := 0 } := by
  rw [xcall_ok en args, port_modPort_same _ _ _ port]

/-- The call lies in the window: in its block, of at least one byte, ending at or before `WINDOW`
(41_ring_accessor.md R174). -/
def Call.Inside (P : Params) (win : Bsb) (c : Call) : Prop :=
  c.bsb = win ∧ 1 ≤ c.count ∧ c.off.toNat + c.count ≤ P.window

/-- Such a call passes the checks of a transport call (40_transport.md R131). -/
theorem Call.Inside.args {P : Params} {win : Bsb} {c : Call} (h : c.Inside P win) (hP : P.ok = true) :
    xferArgsOk P c.off c.count = true := by
  obtain ⟨-, nonempty, inside⟩ := h
  obtain ⟨-, small⟩ := Params.window_ok hP
  exact xferArgsOk_of hP nonempty (by omega) (by omega)

/-- A call of at least one byte and at most a window at ring offset 0 lies in the window. -/
theorem Call.inside_head {P : Params} {win : Bsb} {n : Nat} (dir : Dir) (data : List Byte) (nonempty : 1 ≤ n)
    (fits : n ≤ P.window) : Call.Inside P win ⟨dir, win, 0, n, data⟩ :=
  ⟨rfl, nonempty, (Nat.zero_add n).trans_le fits⟩

section Calls

variable {s : State} {p : Nat} {win : Bsb} {off : Word} {n : Nat} {v : List Byte} {kr : RdCont} {kw : WrCont}
  {empty : State → State} (en : s.cfg.en = true) (window : windowOk s.params win = true) (hP : s.params.ok = true)
include en window hP

/-- A ring read asks for a read call inside its window, and a split leaves a head that fits it
(41_ring_accessor.md R172, R174). -/
theorem ringRd_asks (nonempty : 1 ≤ n) (fits : n ≤ s.params.window) :
    ∃ c seq, ringRd p win off n kr empty s = xcall p c seq s ∧ c.dir = .rd ∧ c.Inside s.params win ∧
      ∀ w r k, seq = .ringRdTail w r k → w = win ∧ 1 ≤ r ∧ r ≤ s.params.window := by
  obtain ⟨-, tailNonempty, sum⟩ := tailLen_ringOff hP off
  obtain ⟨crossing, first⟩ | ⟨whole, first⟩ := ringRd_first (p := p) (off := off) (kr := kr) (empty := empty) en window
    hP nonempty fits
  · refine ⟨_, _, first, rfl, ⟨rfl, tailNonempty, sum.le⟩, ?_⟩
    rintro _ _ _ ⟨⟩
    exact ⟨rfl, by omega, by omega⟩
  · exact ⟨_, _, first, rfl, ⟨rfl, nonempty, by dsimp only; omega⟩, nofun⟩

/-- A ring write asks for a write call inside its window, with its data. -/
theorem ringWr_asks (nonempty : 1 ≤ v.length) (fits : v.length ≤ s.params.window) :
    ∃ c seq, ringWr p win off v kw empty s = xcall p c seq s ∧ c.dir = .wr ∧ c.Inside s.params win ∧
      c.data.length = c.count ∧
      ∀ w r k, seq = .ringWrTail w r k → w = win ∧ 1 ≤ r.length ∧ r.length ≤ s.params.window := by
  obtain ⟨-, tailNonempty, sum⟩ := tailLen_ringOff hP off
  obtain ⟨crossing, first⟩ | ⟨whole, first⟩ := ringWr_first (p := p) (off := off) (kw := kw) (empty := empty) en window
    hP nonempty fits
  · have tail : (v.take (ringTail s.params off)).length = ringTail s.params off :=
      List.length_take_of_le crossing.le
    refine ⟨_, _, first, rfl, ⟨rfl, tailNonempty.trans_eq tail.symm, by simp only [tail]; omega⟩, rfl, ?_⟩
    rintro _ _ _ ⟨⟩
    exact ⟨rfl, by rw [List.length_drop]; omega, by rw [List.length_drop]; omega⟩
  · exact ⟨_, _, first, rfl, ⟨rfl, nonempty, by dsimp only; omega⟩, rfl, nofun⟩

end Calls

/-- Settles O36: the first call is the one that the start asks for, and after a tail the head is called for. -/
theorem ringCallsStayInTheWindow : Obligations.RingCallsStayInTheWindow := by
  intro s p win off v kr kw er ew port hP en window nonempty fits inside
  have window := windowOk_iff.mpr window
  obtain ⟨cr, seqr, hr, dirr, insr, tailr⟩ := ringRd_asks (p := p) (off := off) (kr := kr) (empty := er) en window hP
    nonempty fits
  obtain ⟨cw, seqw, hw, dirw, insw, data, tailw⟩ := ringWr_asks (p := p) (off := off) (kw := kw) (empty := ew) en
    window hP nonempty fits
  rw [hr, hw, port_xcall port en (insr.args hP), port_xcall port en (insw.args hP)]
  refine ⟨⟨cr, rfl, dirr, insr⟩, fun w r k hs t d portT enT params pending => ?_, ⟨cw, rfl, dirw, insw, data⟩,
    fun w r k hs t d portT enT params pending => ?_⟩
  · obtain ⟨rfl, some, most⟩ := tailr w r k hs
    have head : Call.Inside s.params w ⟨.rd, w, 0, r, []⟩ := Call.inside_head .rd [] some most
    refine ⟨_, ?_, rfl, head⟩
    rw [proceed, pending]
    exact xcall_ok enT (params ▸ head.args hP)
  · obtain ⟨rfl, some, most⟩ := tailw w r k hs
    have head : Call.Inside s.params w ⟨.wr, w, 0, r.length, r⟩ := Call.inside_head .wr r some most
    refine ⟨_, ?_, rfl, head⟩
    rw [proceed, pending]
    exact xcall_ok enT (params ▸ head.args hP)

/-! ### The operations BUF.RD and BUF.WR -/

/-- An operation whose start is a call that passes its checks is busy. -/
theorem Calls.busy {d : Descriptor} {s t : State} (h : Calls s.sel (issued d s) t) (free : Free s.sel (issued d s))
    (port : s.sel < s.ports.length) : (t.port s.sel).busy = true := by
  obtain ⟨c, seq, rfl, args⟩ := h
  exact xcall_busy free args (issued_busy port)

/-- Settles O33: the run of the ring read, whose bytes go to `RBUF`. -/
theorem bufRdReadsTheRing : Obligations.BufRdReadsTheRing := by
  intro s win off len k rest d hr hP clocked window nonzero fits he hk
  have window := windowOk_iff.mpr window
  have positive : len.toNat ≠ 0 := BitVec.toNat_ne_iff_ne.mpr nonzero
  have hd : encode .default (.bufRd win off len) = .cmd (descriptor 0x11 win off len 0) := rfl
  have free := issued_free (d := descriptor 0x11 win off len 0) hr hP
  have calls : Calls s.sel (issued (descriptor 0x11 win off len 0) s)
      (start (.bufRd win off len) s.sel (issued (descriptor 0x11 win off len 0) s)) :=
    .ringRd (by exact hP) (by exact hr.2.2.1) (by exact window) positive (by exact fits) off .own _
  obtain ⟨j, seq, e, f, bound, rests, ht⟩ := ringRd_run (win := win) (off := off) (n := len.toNat) (k := .own)
    (empty := finish s.sel (fun q => { q with rbuf := [] })) free clocked window (by omega) fits
  exact ⟨e, f, s.sel, 0, rests, exec_finish hd hr he (bound.trans hk) (calls.busy free hr.1) ht⟩

/-- Settles O34: the run of the ring write of the bytes of `WBUF`. -/
theorem bufWrWritesTheRing : Obligations.BufWrWritesTheRing := by
  intro s win off len k rest v hr hP clocked window nonzero fits he hk
  have window := windowOk_iff.mpr window
  have positive : len.toNat ≠ 0 := BitVec.toNat_ne_iff_ne.mpr nonzero
  have hv : v.length = len.toNat := length_wbufBytes _ _ _ _
  have hd : encode .default (.bufWr win off len) = .cmd (descriptor 0x12 win off len 0) := rfl
  have free := issued_free (d := descriptor 0x12 win off len 0) hr hP
  have hs := start_bufWr (d := descriptor 0x12 win off len 0) hr.1 win off len
  have calls : Calls s.sel (issued (descriptor 0x12 win off len 0) s)
      (start (.bufWr win off len) s.sel (issued (descriptor 0x12 win off len 0) s)) :=
    hs ▸ .ringWr (by exact hP) (by exact hr.2.2.1) (by exact window) (hv.trans_ne positive)
      (by exact hv.trans_le fits) off .own _
  obtain ⟨j, seq, e, f, bound, rests, ht⟩ := ringWr_run (win := win) (off := off) (v := v) (k := .own)
    (empty := finish s.sel id) free clocked window (by omega) (hv ▸ fits)
  exact ⟨e, f, s.sel, 0, rests, exec_finish hd hr he ((hv ▸ bound).trans hk) (calls.busy free hr.1) (hs ▸ ht)⟩

/-! ### Where the bytes are -/

/-- `MemWrite` leaves a location alone that it neither stores to nor makes react (20_memory.md R71, R73). -/
theorem memWrite_read_spared {P : Params} {m : Memory} {a b : Nat} {v : List Byte}
    (spared : ∀ j < v.length, b ≠ a + j ∧
      (a + j = chipAddr P.bsbS0Reg P.regCr 0 → b ≠ chipAddr P.bsbS0Reg P.regIr 0)) :
    (memWrite P m a v).read b = m.read b := by
  induction v generalizing m a with
  | nil => rfl
  | cons x v ih =>
    obtain ⟨other, quiet⟩ := spared 0 (Nat.zero_lt_succ _)
    rw [memWrite, ih fun j hj => ?_, chipStore_read_other (by exact other) (by exact quiet)]
    rw [Nat.add_assoc, Nat.add_comm 1]
    exact spared (j + 1) (Nat.succ_lt_succ hj)

/-- A ring write is the tail and then the head, which may be empty (41_ring_accessor.md R172). -/
theorem ringWrite_eq (P : Params) (m : Memory) (win : Bsb) (off : Word) (v : List Byte) :
    ringWrite P m win off v = memWrite P (memWrite P m (ringAddr P win off 0) (v.take (ringTail P off)))
      (win.toNat * Config.blockSize) (v.drop (ringTail P off)) := by
  rw [ringWrite]
  split
  · rfl
  · next whole => rw [List.take_of_length_le (Nat.not_lt.mp whole), List.drop_of_length_le (Nat.not_lt.mp whole)]; rfl

/-- The bytes of a span of at most a window have different locations. -/
theorem ringAddr_inj {P : Params} {win : Bsb} {off : Word} {i j : Nat} (hi : i < P.window) (hj : j < P.window)
    (same : ringAddr P win off i = ringAddr P win off j) : i = j := by
  have rings : off.toNat + i ≡ off.toNat + j [MOD P.window] := Nat.add_left_cancel same
  exact (rings.add_left_cancel' _).eq_of_lt_of_lt hi hj

section Placement

variable {P : Params} (hP : P.ok = true) {win : Bsb} (off : Word)
include hP

/-- No ring location is a register of another block (20_memory.md R61). -/
theorem ringAddr_ne_chipAddr {bsb : Bsb} (other : win ≠ bsb) (i : Nat) (reg : Word) :
    ringAddr P win off i ≠ chipAddr bsb reg 0 := by
  obtain ⟨low, high⟩ := Params.window_ok hP
  have inWindow := Nat.mod_lt (off.toNat + i) (show 0 < P.window by omega)
  have inBlock := reg.isLt
  intro same
  rw [ringAddr, chipAddr, Config.blockSize] at same
  exact other (BitVec.eq_of_toNat_eq (by omega))

/-- Byte `j` of the head of a span. -/
theorem ringAddr_tail_add {j : Nat} (hj : ringTail P off + j < P.window) :
    ringAddr P win off (ringTail P off + j) = win.toNat * Config.blockSize + j := by
  rw [ringAddr_head hP _ _ (Nat.le_add_right _ _) hj, Nat.add_sub_cancel_left]

variable {m : Memory} {v : List Byte} (notReg : win ≠ P.bsbS0Reg) (fits : v.length ≤ P.window)
include notReg fits

/-- A write of the head of a span leaves what is none of its locations alone. -/
theorem memWrite_read_notHead {a : Nat}
    (other : ∀ i < v.length, ringTail P off ≤ i → a ≠ ringAddr P win off i) :
    (memWrite P m (win.toNat * Config.blockSize) (v.drop (ringTail P off))).read a = m.read a := by
  refine memWrite_read_spared fun j hj => ?_
  rw [List.length_drop] at hj
  rw [← ringAddr_tail_add hP off (by omega)]
  exact ⟨other _ (by omega) (Nat.le_add_right _ _), fun reg => absurd reg (ringAddr_ne_chipAddr hP off notReg _ _)⟩

/-- A ring write leaves what is none of its locations alone (41_ring_accessor.md R173). -/
theorem ringWrite_read_other {a : Nat} (other : ∀ i < v.length, a ≠ ringAddr P win off i) :
    (ringWrite P m win off v).read a = m.read a := by
  rw [ringWrite_eq, memWrite_read_notHead hP off notReg fits fun i hi _ => other i hi]
  refine memWrite_read_spared fun j hj => ?_
  rw [List.length_take] at hj
  rw [← ringAddr_tail hP win off (by omega)]
  exact ⟨other j (by omega), fun reg => absurd reg (ringAddr_ne_chipAddr hP off notReg _ _)⟩

/-- Byte `i` of a ring write is at its ring location (41_ring_accessor.md R173). -/
theorem ringWrite_read_at {i : Nat} (hi : i < v.length) :
    (ringWrite P m win off v).read (ringAddr P win off i) = v[i] := by
  rw [ringWrite_eq]
  by_cases inTail : i < ringTail P off
  · rw [memWrite_read_notHead hP off notReg fits fun j hj head same =>
      absurd (ringAddr_inj (by omega) (by omega) same) (by omega), ringAddr_tail hP win off inTail]
    have plain (reg : Word) (j : Nat) (hj : j < (v.take (ringTail P off)).length) :
        ringAddr P win off 0 + j ≠ chipAddr P.bsbS0Reg reg 0 := by
      rw [List.length_take] at hj
      rw [← ringAddr_tail hP win off (by omega)]
      exact ringAddr_ne_chipAddr hP off notReg _ _
    rw [memWrite_read_in (by rw [List.length_take]; omega) (plain _) (plain _), List.getElem_take]
  · obtain ⟨j, rfl⟩ := Nat.exists_eq_add_of_le (Nat.not_lt.mp inTail)
    have plain (reg : Word) (j : Nat) (hj : j < (v.drop (ringTail P off)).length) :
        win.toNat * Config.blockSize + j ≠ chipAddr P.bsbS0Reg reg 0 := by
      rw [List.length_drop] at hj
      rw [← ringAddr_tail_add hP off (by omega)]
      exact ringAddr_ne_chipAddr hP off notReg _ _
    rw [ringAddr_tail_add hP off (by omega), memWrite_read_in (by rw [List.length_drop]; omega) (plain _) (plain _),
      List.getElem_drop]

/-- A ring read of a span returns what a ring write has put there, while those locations keep their bytes
(41_ring_accessor.md R181). -/
theorem ringRead_of_ringWrite {m' : Memory}
    (kept : ∀ i < v.length,
      m'.read (ringAddr P win off i) = (ringWrite P m win off v).read (ringAddr P win off i)) :
    ringRead P m' win off v.length = v := by
  refine List.ext_getElem (length_ringRead _ _ _ _ _) fun i _ hi => ?_
  simp only [ringRead, List.getElem_map, List.getElem_range]
  rw [kept i hi, ringWrite_read_at hP off notReg fits hi]

end Placement

/-- Settles O35: the tail's bytes survive the head, and no byte reaches a register that reacts. -/
theorem ringWritePlacesEachByte : Obligations.RingWritePlacesEachByte := fun _ _ _ off _ hP notReg fits =>
  ⟨fun _ hi => ringWrite_read_at hP off notReg fits hi, fun _ other => ringWrite_read_other hP off notReg fits other⟩

/-- The registers of the port that a change of `ports` is about. -/
theorem port_of_modify {s t : State} {p : Nat} {f : Port → Port} (port : p < s.ports.length)
    (changed : t.ports = s.ports.modify p f) : t.port p = f (s.port p) :=
  (port_congr (t := s.modPort p f) changed p).trans (port_modPort_same s p f port)

/-- Settles O37: the memory of O34's end, with the bytes where O35 says, read by O33. -/
theorem ringRoundTrip : Obligations.RingRoundTrip := by
  intro s win off len k rest hr hP clocked window nonzero fits he hk
  obtain ⟨_, _, _, _, -, write⟩ := bufWrWritesTheRing s win off len k rest hr hP clocked window nonzero fits he hk
  refine ⟨_, write, by rw [port_of_modify hr.1 rfl]; rfl, fun u k' rest' hu params clockedU kept heU hkU => ?_⟩
  have same : u.params = s.params := params
  obtain ⟨_, _, _, _, -, read⟩ := bufRdReadsTheRing u win off len k' rest' hu (same ▸ hP) clockedU (same ▸ window)
    nonzero (same ▸ fits) heU hkU
  refine ⟨_, read, by rw [port_of_modify hu.1 rfl]; rfl, ?_⟩
  rw [port_of_modify hu.1 rfl, same]
  have bytes : (wbufBytes s.sel (s.port s.sel).wbuf 0 len.toNat).length = len.toNat := length_wbufBytes _ _ _ _
  have back := ringRead_of_ringWrite (m := s.mem) (m' := u.mem) hP off (window_ne_s0Reg hP (windowOk_iff.mpr window))
    (bytes.trans_le fits) (by rw [bytes]; exact kept)
  rwa [bytes] at back

end Sys2Proof.Machine
end

section
/-! SUPPORT and the proofs of O38 to O40: the size queries (42_size_query.md). What follows each read of a pair, a
query on a quiet chip, and one whose register the chip changes between the two reads. -/

namespace Sys2Proof.Machine

/-! ### What follows each read of a pair -/

section Pairs

variable {s : State} {p : Nat} {reg : Word} {a d : List Byte} {r : Nat} {k : SizeCont}

/-- After the first read of a pair the second is asked for (42_size_query.md R191). -/
theorem proceed_sizeFirst (pending : (s.port p).seq = .sizeFirst reg r k) :
    proceed p d s = sizeSecondCall p reg d r k s := by
  rw [proceed, pending]

/-- The second read of a pair decides whether the value is accepted (42_size_query.md R191). -/
theorem proceed_sizeSecond (pending : (s.port p).seq = .sizeSecond reg a r k) :
    proceed p d s = if a = d then sizeDone p k (numOf a) s else sizeRetry p reg r k s := by
  rw [proceed, pending]

/-- A fresh pair, where `SIZE_RETRY_MAX` allows one more (42_size_query.md R193). -/
theorem sizeRetry_allowed (allowed : ∀ m, s.params.sizeRetryMax = some m → r + 1 ≤ m) :
    sizeRetry p reg r k s = sizeStart p reg (r + 1) k s := by
  unfold sizeRetry
  cases cap : s.params.sizeRetryMax with
  | none => rfl
  | some m => exact if_neg (Nat.not_lt.mpr (allowed m cap))

/-- The end of a query that has used up its retries (log 14). -/
theorem sizeRetry_exceeded {m : Nat} (cap : s.params.sizeRetryMax = some m) (exceeded : m < r + 1) :
    sizeRetry p reg r k s = raise p (capError s.free) s := by
  simp only [sizeRetry, cap, if_pos exceeded]

/-- A read of a size register passes the checks of a transport call (40_transport.md R131). -/
theorem xferArgsOk_size {P : Params} (hP : P.ok = true) (inBlock : reg.toNat + 2 ≤ 65536) :
    xferArgsOk P reg P.sizeLen = true := by
  obtain ⟨-, ⟨low, high⟩, -⟩ := Params.lengths_ok hP
  exact xferArgsOk_of hP low (by omega) (by omega)

/-- So does a read of a stored pointer. -/
theorem xferArgsOk_ptr {P : Params} (hP : P.ok = true) (inBlock : reg.toNat + 2 ≤ 65536) :
    xferArgsOk P reg P.ptrLen = true := by
  obtain ⟨⟨low, high⟩, -, -⟩ := Params.lengths_ok hP
  exact xferArgsOk_of hP low (by omega) (by omega)

/-- The pointer registers lie in their block (20_memory.md R62). -/
theorem Params.ptrRegs_ok {P : Params} (hP : P.ok = true) :
    P.regTxWr.toNat + 2 ≤ Config.blockSize ∧ P.regRxRd.toNat + 2 ≤ Config.blockSize := by
  simp only [Params.ok, Bool.and_eq_true, decide_eq_true_eq] at hP
  tauto

end Pairs

/-- Settles O39: the two reads of a pair, the three callers, and the two outcomes of a pair that disagrees. -/
theorem readsAreTakenInPairs : Obligations.ReadsAreTakenInPairs := by
  intro s p reg a d r port en hP inBlock ask stop value
  obtain ⟨txWr, rxRd⟩ := Params.ptrRegs_ok hP
  have size := xferArgsOk_size hP inBlock
  refine ⟨?_, fun k pending => ?_, fun agree => ⟨fun pending => ?_, fun len pending => ?_, fun pending => ?_⟩,
    fun k pending differ => ?_⟩
  · rintro b0 b1 rfl
    exact numOf_two b0 b1
  · rw [proceed_sizeFirst pending]
    exact xcall_ok en size
  · rw [proceed_sizeSecond pending, if_pos agree]
    rfl
  · rw [proceed_sizeSecond pending, if_pos agree]
    exact if_congr Iff.rfl rfl (xcall_ok en (xferArgsOk_ptr hP txWr))
  · rw [proceed_sizeSecond pending, if_pos agree]
    exact if_congr Iff.rfl rfl (xcall_ok en (xferArgsOk_ptr hP rxRd))
  · rw [proceed_sizeSecond pending, if_neg differ]
    refine ⟨fun allowed => ?_, fun m cap exceeded =>
      ⟨_, (capError_cases s.free).symm, sizeRetry_exceeded cap exceeded⟩⟩
    rw [sizeRetry_allowed allowed]
    exact xcall_ok en size

/-! ### The operations GET.TXFREE and GET.RXSIZE on a quiet chip -/

/-- A query of the requester: two reads that agree, and their number in `RESULT` (42_size_query.md R194, R195). -/
theorem sizeQuery_run {i : Instr} {opc : Byte} {reg : Word} {s : State} {k : Nat} {rest : List Event}
    (hd : encode .default i = .cmd (descriptor opc 0 0 0 0))
    (hs : start i s.sel (issued (descriptor opc 0 0 0 0) s) =
      sizeStart s.sel reg 0 .own (issued (descriptor opc 0 0 0 0) s)) (hr : s.ready) (hP : s.params.ok = true)
    (clocked : s.clocked = true) (inBlock : reg.toNat + 2 ≤ 65536) (he : s.events = .env (.turn s.sel k) :: rest)
    (hk : 16 ≤ k) :
    let v := memRead s.mem (chipAddr s.params.bsbS0Reg reg 0) s.params.sizeLen
    ∃ e f o w, e.atRest ∧ exec i s = .next
      { s with
        ports := s.ports.modify s.sel (fun q =>
          { q.after opc 0 0 0 0 .ok with result := some (numOf v), lockWait := w })
        lock := ⟨false, o⟩
        eng := e
        trace := List.replicate 2 (readFrame s.params s.params.bsbS0Reg reg v) ++ s.trace
        events := rest
        free := f } := by
  intro v
  have free := issued_free (d := descriptor opc 0 0 0 0) hr hP
  obtain ⟨j, seq, e, f, bound, rests, ht⟩ := size_run (r := 0) (k := .own) free clocked inBlock
  have busy := xcall_busy (c := ⟨.rd, s.params.bsbS0Reg, reg, s.params.sizeLen, []⟩) (seq := .sizeFirst reg 0 .own)
    free (xferArgsOk_size hP inBlock) (issued_busy hr.1)
  exact ⟨e, f, s.sel, 0, rests, exec_finish hd hr he (bound.trans hk) (hs ▸ busy) (hs ▸ ht)⟩

/-- The number of a two-byte register, its high byte first (20_memory.md R65). -/
theorem numOf_memRead_two (m : Memory) (bsb : Bsb) (reg : Word) :
    numOf (memRead m (chipAddr bsb reg 0) 2) = be16 (m.read (chipAddr bsb reg 0)) (m.read (chipAddr bsb reg 1)) := by
  have bytes : memRead m (chipAddr bsb reg 0) 2 = [m.read (chipAddr bsb reg 0), m.read (chipAddr bsb reg 1)] := by
    simp [memRead, List.range_succ, chipAddr]
  rw [bytes, numOf_two]

/-- Settles O38: the two queries differ in their register alone. -/
theorem sizeQueriesReturnTheRegister : Obligations.SizeQueriesReturnTheRegister := by
  intro s k rest P fsr rsr hr hP clocked he hk
  obtain ⟨tx, rx⟩ := Params.sizeRegs_ok hP
  refine ⟨sizeQuery_run rfl rfl hr hP clocked tx he hk, sizeQuery_run rfl rfl hr hP clocked rx he hk, fun two => ?_⟩
  simp only [fsr, rsr, two]
  exact ⟨numOf_memRead_two _ _ _, numOf_memRead_two _ _ _⟩

/-! ### A pair between whose reads the chip changes the register -/

/-- The chip's own changes leave the ports alone (20_memory.md R72). -/
theorem applyEnv_chip_port (a : Nat) (v : Byte) (p : Nat) (s : State) :
    (applyEnv (.chip a v) s).port p = s.port p := by
  rw [applyEnv]; split <;> rfl

/-- A change of the chip while a call that passed its checks waits for the lock. -/
theorem applyEnv_chip_xcall {p : Nat} {c : Call} {seq : Seq} {s : State} (en : s.cfg.en = true)
    (args : xferArgsOk s.params c.off c.count = true) {a : Nat} (ha : a < Config.chipSize) (v : Byte) :
    applyEnv (.chip a v) (xcall p c seq s) = xcall p c seq { s with mem := s.mem.set a v } := by
  rw [applyEnv, if_pos ha, xcall_ok en args, xcall_ok (by exact en) (by exact args)]
  rfl

/-- A read that covers a location the chip has changed is not what it was. -/
theorem memRead_set_ne {m : Memory} {bsb : Bsb} {off : Word} {i n : Nat} {v : Byte} (hi : i < n)
    (changed : m.read (chipAddr bsb off i) ≠ v) :
    memRead m (chipAddr bsb off 0) n ≠ memRead (m.set (chipAddr bsb off i) v) (chipAddr bsb off 0) n := by
  intro same
  have place : chipAddr bsb off 0 + i = chipAddr bsb off i := by simp only [chipAddr, Nat.add_zero]
  exact changed (by simpa [memRead, hi, place] using congrArg (fun l => l[i]?) same)

section Torn

variable {p : Nat} {s : State} {reg : Word} {r : Nat} {k : SizeCont} (h : Free p s) (clocked : s.clocked = true)
  (inBlock : reg.toNat + 2 ≤ 65536)
include h clocked inBlock

/-- The first read of a pair on a free bus. -/
theorem sizeFirst_run :
    let v := memRead s.mem (chipAddr s.params.bsbS0Reg reg 0) s.params.sizeLen
    ∃ e f, e.atRest ∧ turns p (s.params.sizeLen + 6) (sizeStart p reg r k s) =
      sizeSecondCall p reg v r k
        (ended p (.sizeFirst reg r k) [readFrame s.params s.params.bsbS0Reg reg v] s.mem e f s) := by
  obtain ⟨e, f, rests, ht⟩ := readCall_tame (seq := .sizeFirst reg r k) h (xferArgsOk_size h.params inBlock) clocked
    (wild_s0Reg h.params _ _).1
  rw [proceed_sizeFirst (by rw [ended_port _ _ _ _ _ _ _ h.port])] at ht
  exact ⟨e, f, rests, ht⟩

/-- A second read that disagrees with the first, then a pair on a quiet chip: three read frames
(42_size_query.md R191). -/
theorem sizeSecond_torn_run {a : List Byte}
    (torn : a ≠ memRead s.mem (chipAddr s.params.bsbS0Reg reg 0) s.params.sizeLen)
    (allowed : ∀ m, s.params.sizeRetryMax = some m → r + 1 ≤ m) :
    let v := memRead s.mem (chipAddr s.params.bsbS0Reg reg 0) s.params.sizeLen
    ∃ j seq e f, j ≤ 24 ∧ turns p j (sizeSecondCall p reg a r k s) =
      sizeDone p k (numOf v)
        (ended p seq (List.replicate 3 (readFrame s.params s.params.bsbS0Reg reg v)) s.mem e f s) := by
  obtain ⟨-, ⟨-, high⟩, -⟩ := Params.lengths_ok h.params
  obtain ⟨e, f, rests, second⟩ := readCall_tame (seq := .sizeSecond reg a r k) h (xferArgsOk_size h.params inBlock)
    clocked (wild_s0Reg h.params _ _).1
  rw [proceed_sizeSecond (by rw [ended_port _ _ _ _ _ _ _ h.port]), if_neg torn,
    sizeRetry_allowed (by exact allowed)] at second
  generalize ht : ended _ _ _ _ _ _ _ = t at second
  have freeT : Free p t := ht ▸ h.ended rests
  obtain ⟨j, seq, e', f', bound, -, pair⟩ := size_run (r := r + 1) (k := k) freeT (ht ▸ clocked) inBlock
  refine ⟨s.params.sizeLen + 6 + j, seq, e', f', by omega, ?_⟩
  rw [turns_add, sizeSecondCall, second, pair, ← ht, ended_ended]
  rfl

/-- A query whose register the chip changes after the first read, and which a retry then answers with the stable
value, after four read frames (42_size_query.md R191, R193). -/
theorem size_torn_run {i : Nat} {v : Byte} (hi : i < s.params.sizeLen)
    (changed : s.mem.read (chipAddr s.params.bsbS0Reg reg i) ≠ v)
    (allowed : ∀ m, s.params.sizeRetryMax = some m → r + 1 ≤ m) (busy : (s.port p).busy = true) :
    let m := s.mem.set (chipAddr s.params.bsbS0Reg reg i) v
    let a := memRead s.mem (chipAddr s.params.bsbS0Reg reg 0) s.params.sizeLen
    let b := memRead m (chipAddr s.params.bsbS0Reg reg 0) s.params.sizeLen
    ∃ t j seq e f, turns p (s.params.sizeLen + 6) (sizeStart p reg r k s) = t ∧ (t.port p).busy = true ∧ j ≤ 24 ∧
      turns p j (applyEnv (.chip (chipAddr s.params.bsbS0Reg reg i) v) t) =
        sizeDone p k (numOf b) (ended p seq (List.replicate 3 (readFrame s.params s.params.bsbS0Reg reg b) ++
          [readFrame s.params s.params.bsbS0Reg reg a]) m e f s) := by
  intro m a b
  obtain ⟨-, ⟨-, high⟩, -⟩ := Params.lengths_ok h.params
  have args := xferArgsOk_size h.params inBlock
  have inChip : chipAddr s.params.bsbS0Reg reg i < Config.chipSize := chipAddr_lt (by omega)
  obtain ⟨e, f, rests, first⟩ := sizeFirst_run (r := r) (k := k) h clocked inBlock
  obtain ⟨j, seq, e', f', bound, second⟩ := sizeSecond_torn_run (r := r) (k := k)
    (h.ended (seq := .sizeFirst reg r k) (frs := [readFrame s.params s.params.bsbS0Reg reg a]) (m := m) (f := f) rests)
    clocked inBlock (memRead_set_ne hi changed) allowed
  rw [ended_ended] at second
  refine ⟨_, j, seq, e', f', first, xcall_busy (h.ended rests) args ?_, bound, ?_⟩
  · rw [ended_port _ _ _ _ _ _ _ h.port]
    exact busy
  · rw [sizeSecondCall, readCall, applyEnv_chip_xcall (by exact h.en) (by exact args) inChip]
    exact second

end Torn

/-! ### The operation GET.TXFREE across such a change -/

/-- A machine that has nothing left to run on leaves the rest of the list. -/
theorem driveList_done {going : State → Bool} {s : State} (off : going s = false) (es : List Event) :
    driveList going es s = { s with events := es } := by
  cases es with
  | nil => rfl
  | cons ev es => cases ev <;> simp [driveList, off]

/-- An operation whose port's turns are interrupted by one move, after which further turns bring it to an end. -/
theorem drive_across {p j k : Nat} {move : Env} {s t u : State} {rest : List Event}
    (he : s.events = .env (.turn p j) :: .env move :: .env (.turn p k) :: rest) (busy : portBusy p s = true)
    (first : turns p j s = t) (before : portBusy p t = true) (after : portBusy p (applyEnv move t) = true)
    (second : turns p k (applyEnv move t) = u) (idle : portBusy p u = false) :
    drive (portBusy p) s = { u with events := rest } := by
  rw [drive, he, driveList, if_pos busy, applyEnv, first, driveList, if_pos before, driveList, if_pos after,
    applyEnv, second, driveList_done idle]

/-- The port whose operation ends `OK` (60_exceptions.md R256). -/
theorem finish_port {p : Nat} {s : State} (port : p < s.ports.length) (g : Port → Port) :
    (finish p g s).port p = (g (s.port p)).ended .ok :=
  port_modPort_same s p _ port

/-- Settles O40: the first read, the change of the last byte, and the pair that disagrees with its retry. -/
theorem tornPairIsRetried : Obligations.TornPairIsRetried := by
  intro s k v rest P low hr hP clocked cap hk changed he
  have ⟨selected, idle, en, _⟩ := hr
  obtain ⟨tx, -⟩ := Params.sizeRegs_ok hP
  obtain ⟨-, ⟨least, -⟩, -⟩ := Params.lengths_ok hP
  have allowed : ∀ m, P.sizeRetryMax = some m → 0 + 1 ≤ m := fun m hm =>
    Nat.one_le_iff_ne_zero.mpr fun zero => cap (zero ▸ hm)
  have hd : encode .default .getTxFree = .cmd (descriptor 0x21 0 0 0 0) := rfl
  have free := issued_free (d := descriptor 0x21 0 0 0 0) hr hP
  have calls : Calls s.sel (issued (descriptor 0x21 0 0 0 0) s)
      (start .getTxFree s.sel (issued (descriptor 0x21 0 0 0 0) s)) := .sizeStart (by exact hP) (by exact tx) 0 .own
  obtain ⟨t, j, seq, e, f, first, busy, bound, retried⟩ := size_torn_run (r := 0) (k := .own) free clocked tx
    (Nat.sub_one_lt_of_lt least) changed allowed (issued_busy selected)
  generalize hu : ended _ _ _ _ _ _ _ = u at retried
  have port : s.sel < u.ports.length := by rw [← hu, length_ended]; exact free.port
  have frames : u.trace.length = s.trace.length + 4 := by
    rw [← hu, ended_trace, List.length_append, Nat.add_comm]
    rfl
  have last := finish_port port fun q => { q with
    result := some (numOf (memRead (s.mem.set low v) (chipAddr P.bsbS0Reg P.regTxFsr 0) P.sizeLen)) }
  have settled := turns_settled retried (by rw [← hu]; rfl) (congrArg Port.act last) (bound.trans hk)
  have listed := (start_portOnly .getTxFree s.sel (issued (descriptor 0x21 0 0 0 0) s)).events.trans he
  have driven := drive_across listed (calls.busy free selected) first busy
    ((congrArg Port.busy (applyEnv_chip_port _ _ _ _)).trans busy) settled (congrArg Port.busy last)
  exact ⟨_, (exec_enabled hd selected idle en).trans (congrArg _ driven), congrArg Port.err last,
    congrArg Port.done last, congrArg Port.result last, frames, rfl⟩

end Sys2Proof.Machine
end

section
/-! SUPPORT and the proofs of O42, O46 and O47: the pointer sum and the two poll loops of the FIFO sequences
(43_fifo_sequences.md R211, R222, R225). -/

namespace Sys2Proof.Machine

/-- Settles O46: a sum modulo `PTR_MOD` is the same modulo each of its divisors. -/
theorem pointerSumKeepsTheRingPosition : Obligations.PointerSumKeepsTheRingPosition := by
  intro P wr n positive small divides
  have reduced : (ptrAdd P wr n).toNat = (wr.toNat + n) % P.ptrMod := by
    rw [ptrAdd, BitVec.toNat_ofNat, Nat.mod_eq_of_lt ((Nat.mod_lt _ positive).trans_le small)]
  refine ⟨fun full => BitVec.eq_of_toNat_eq ?_, ?_⟩
  · rw [reduced, full]; simp
  · rw [reduced, Nat.mod_mod_of_dvd _ divides, Nat.mod_add_mod]

/-! ### What follows each poll -/

/-- A call of one byte passes the checks wherever it is (40_transport.md R131). -/
theorem xferArgsOk_byte {P : Params} (hP : P.ok = true) (reg : Word) : xferArgsOk P reg 1 = true :=
  xferArgsOk_of hP (Nat.le_refl 1) (by omega) reg.isLt

section Polls

variable {s : State} {p t tmo r : Nat} {k : CmdCont} {d : List Byte} {v : Byte}

theorem proceed_cmdWrite (pending : (s.port p).seq = .cmdWrite tmo k) :
    proceed p d s = cmdPollCall p 0 tmo k s := by
  rw [proceed, pending]

theorem proceed_cmdPoll (pending : (s.port p).seq = .cmdPoll t tmo k) :
    proceed p d s = if d.getD 0 0 = 0 then cmdDone p k s else cmdMissed p t tmo k s := by
  rw [proceed, pending]

theorem proceed_txPoll (pending : (s.port p).seq = .txPoll r) :
    proceed p d s = txPolled p r (d.getD 0 0) s := by
  rw [proceed, pending]

theorem proceed_txLive (pending : (s.port p).seq = .txLive r) :
    proceed p d s = txLived p r (d.getD 0 0) s := by
  rw [proceed, pending]

/-- The turn of a port that waits between two polls, and does not own the lock, is one tick of its wait (log 4). -/
theorem turn_pausing {n : Nat} (own : s.lock.held = true → s.lock.owner ≠ p) (waits : (s.port p).act = .pausing n) :
    turn p s = pauseTurn p n s := by
  rw [turn, if_neg (by simpa using own), waits]

/-- A wait of `n` ticks makes its poll on the turn after them (43_fifo_sequences.md R211; log 4). -/
theorem turns_pausing {n : Nat} (port : p < s.ports.length) (en : s.cfg.en = true) (hP : s.params.ok = true)
    (own : s.lock.held = true → s.lock.owner ≠ p) (pending : (s.port p).seq = .cmdPoll t tmo k)
    (waits : (s.port p).act = .pausing n) :
    turns p (n + 1) s = cmdPollCall p t tmo k s := by
  induction n generalizing s with
  | zero => rw [turns, turn_pausing own waits, pauseTurn, pending]; rfl
  | succ n ih =>
    have ticked := port_modPort_same s p (fun q => { q with act := .pausing n }) port
    rw [turns, turn_pausing own waits, pauseTurn,
      ih (s := s.modPort p _) (by simpa using port) en hP own (ticked ▸ pending) (congrArg Port.act ticked)]
    simp only [cmdPollCall, readCall]
    rw [xcall_ok (by exact en) (xferArgsOk_byte (by exact hP) _), xcall_ok en (xferArgsOk_byte hP _), modPort_modPort]
    rfl

end Polls

/-- Settles O42: the poll after the write, the three callers of a command that is done, the two outcomes of a
miss, and the wait between two polls. -/
theorem commandPollLoop : Obligations.CommandPollLoop := by
  intro s p t tmo d port en hP timeout ask
  have args := xferArgsOk_byte hP
  refine ⟨fun k pending => ?_,
    fun zero => ⟨fun pending => ?_, fun pending => ?_, fun rsr hv payload pending => ?_⟩,
    fun k pending nonzero late => ?_, fun k pending nonzero early => ?_, fun k n pending waits own => ⟨?_, ?_⟩⟩
  · rw [proceed_cmdWrite pending]
    exact xcall_ok en (args _)
  · rw [proceed_cmdPoll pending, if_pos zero]
    rfl
  · rw [proceed_cmdPoll pending, if_pos zero]
    exact xcall_ok en (args _)
  · rw [proceed_cmdPoll pending, if_pos zero]
    rfl
  · rw [proceed_cmdPoll pending, if_neg nonzero, cmdMissed, if_pos late]
    rfl
  · rw [proceed_cmdPoll pending, if_neg nonzero, cmdMissed, if_neg (Nat.not_le.mpr early)]
    rfl
  · rw [applyEnv, expire, waits]
    rfl
  · rw [turns_pausing port en hP own pending waits]
    exact xcall_ok en (args _)

/-- Settles O47: the four outcomes of a read of `REG_IR`, and the two of a read of `REG_PHYCFG`. -/
theorem sendCompletePoll : Obligations.SendCompletePoll := by
  intro s p r v port en hP ask timeout
  have args := xferArgsOk_byte hP
  refine ⟨fun pending => ?_, fun pending => ?_⟩
  · rw [proceed_txPoll pending, List.getD_cons_zero, txPolled]
    refine ⟨fun seen => ?_, fun miss exceeded => ?_, fun miss within live => ?_, fun miss within early => ?_⟩
    · rw [if_pos seen]
      exact xcall_ok en (args _)
    · rw [if_neg (not_not.mpr miss), if_pos exceeded]
      rfl
    · rw [if_neg (not_not.mpr miss), if_neg (Nat.not_lt.mpr within), if_pos live]
      exact xcall_ok en (args _)
    · rw [if_neg (not_not.mpr miss), if_neg (Nat.not_lt.mpr within), if_neg (Nat.not_lt.mpr early)]
      exact xcall_ok en (args _)
  · rw [proceed_txLive pending, List.getD_cons_zero, txLived]
    refine ⟨fun alive => ?_, fun dead => ?_⟩
    · rw [if_pos alive]
      exact xcall_ok en (args _)
    · rw [if_neg (by simp [dead])]
      rfl

end Sys2Proof.Machine
end

section
/-! SUPPORT and the proofs of O41, O43 to O45 and O48 to O51: SOCK.CMD, TX.ENQ and RX.DEQ from their start to their
end, each a chain of transport calls on a free bus (43_fifo_sequences.md). -/

namespace Sys2Proof.Machine

/-! ### Chains of transport calls -/

/-- From `u`, at most `n` turns of port `p` on the bus of `s` put the frames `frs` (newest first) on the wire, leave
the chip with memory `m`, and go on with `next`. -/
def Leads (p : Nat) (s u : State) (n : Nat) (frs : List Frame) (m : Memory) (next : State → State) : Prop :=
  ∃ j seq e f, j ≤ n ∧ e.atRest ∧ turns p j u = next (ended p seq frs m e f s)

section Chains

variable {p n n' : Nat} {s u : State} {frs frs' : List Frame} {m m' : Memory} {next next' : State → State}

theorem Leads.mono (h : Leads p s u n frs m next) (hn : n ≤ n') : Leads p s u n' frs m next :=
  have ⟨j, seq, e, f, bound, rests, run⟩ := h
  ⟨j, seq, e, f, bound.trans hn, rests, run⟩

/-- Port `p` of `t` is between two calls of its operation: the bus is free, the clock in its valid range, and the
parameters, the configuration, `WBUF` of the port and the chip's memory are these. -/
structure Between (p : Nat) (P : Params) (C : Cfg) (w : List Byte) (m : Memory) (t : State) : Prop where
  free : Free p t
  clocked : t.clocked = true
  params : t.params = P
  cfg : t.cfg = C
  wbuf : (t.port p).wbuf = w
  mem : t.mem = m

variable {P : Params} {C : Cfg} {w : List Byte} {m0 : Memory} (h : Between p P C w m0 s)
include h

/-- A chain, then another from the state it reaches. -/
theorem Between.trans (first : Leads p s u n frs m next)
    (second : ∀ t, Between p P C w m t → Leads p t (next t) n' frs' m' next') :
    Leads p s u (n + n') (frs' ++ frs) m' next' := by
  obtain ⟨j, seq, e, f, bound, rests, run⟩ := first
  have reached : Between p P C w m (ended p seq frs m e f s) :=
    ⟨h.free.ended rests, h.clocked, h.params, h.cfg,
      by rw [ended_port _ _ _ _ _ _ _ h.free.port]; exact h.wbuf, rfl⟩
  obtain ⟨j', seq', e', f', bound', rests', run'⟩ := second _ reached
  exact ⟨j + j', seq', e', f', Nat.add_le_add bound bound', rests', by rw [turns_add, run, run', ended_ended]⟩

variable {bsb : Bsb} {off : Word} {v : List Byte} {seq : Seq}

/-- A read call whose answer the spec gives. -/
theorem Between.readCall (args : xferArgsOk P off n = true) (tame : wild P bsb off n = false)
    (answer : ∀ t, (t.port p).seq = seq → proceed p (memRead m0 (chipAddr bsb off 0) n) t = next t) :
    Leads p s (readCall p bsb off n seq s) (n + 6) [readFrame P bsb off (memRead m0 (chipAddr bsb off 0) n)] m0
      next := by
  obtain ⟨free, clocked, rfl, rfl, rfl, rfl⟩ := h
  obtain ⟨e, f, rests, run⟩ := readCall_tame (seq := seq) free args clocked tame
  exact ⟨n + 6, seq, e, f, Nat.le_refl _, rests, run.trans (answer _ (by rw [ended_port _ _ _ _ _ _ _ free.port]))⟩

/-- A write call whose effect the spec gives. -/
theorem Between.writeCall (args : xferArgsOk P off v.length = true) (tame : wild P bsb off v.length = false)
    (answer : ∀ t, (t.port p).seq = seq → proceed p [] t = next t) :
    Leads p s (writeCall p bsb off v seq s) (v.length + 6) [writeFrame P bsb off v]
      (memWrite P m0 (chipAddr bsb off 0) v) next := by
  obtain ⟨free, clocked, rfl, rfl, rfl, rfl⟩ := h
  obtain ⟨e, f, rests, run⟩ := writeCall_tame (seq := seq) free args clocked tame
  exact ⟨v.length + 6, seq, e, f, Nat.le_refl _, rests,
    run.trans (answer _ (by rw [ended_port _ _ _ _ _ _ _ free.port]))⟩

/-- The usable parameters of a state between two calls. -/
theorem Between.ok : P.ok = true := h.params ▸ h.free.params

end Chains

/-! ### Operations that a chain brings to their end -/

section Ends

variable {L : CtrlLayout} {i : Instr} {opc : Byte} {bsb : Bsb} {off len aux : Word} {s : State} {k n : Nat}
  {rest : List Event} {frs : List Frame} {m : Memory} {next : State → State} {more0 more : Bool}
  {g after : Port → Port}
  (hd : encode L i = .cmd (descriptor opc bsb off len aux)) (hr : s.ready) (hP : s.params.ok = true)
  (he : s.events = .env (.turn s.sel k) :: rest) (hk : n ≤ k)
  (calls : Calls s.sel { issued (descriptor opc bsb off len aux) s with more := more0 }
    (start i s.sel (issued (descriptor opc bsb off len aux) s)))
  (leads : Leads s.sel { issued (descriptor opc bsb off len aux) s with more := more0 }
    (start i s.sel (issued (descriptor opc bsb off len aux) s)) n frs m next)
include hd hr hP he hk calls leads

/-- An operation that a chain of calls brings to its end within the turns listed next: `g` is what its last step makes
of the port's registers, `after` what they are then but for `LOCKWAIT`, and `more` what it leaves in `MORE`. -/
theorem exec_leads
    (last : ∀ t : State, SameConfig s t → t.more = more0 → next t = { t.modPort s.sel g with more := more })
    (idle : ∀ q, (g q).busy = false ∧ (g q).act = .rest)
    (registers : ∀ q seq, g { (latch opc bsb off len aux q).started with seq := seq, act := .rest, lockWait := 0 } =
      { after q with lockWait := 0 }) :
    ∃ e f o w, e.atRest ∧ exec i s = .next
      { s with
        ports := s.ports.modify s.sel (fun q => { after q with lockWait := w })
        more := more
        lock := ⟨false, o⟩
        eng := e
        mem := m
        trace := frs ++ s.trace
        events := rest
        free := f } := by
  obtain ⟨j, seq, e, f, bound, rests, run⟩ := leads
  have free : Free s.sel { issued (descriptor opc bsb off len aux) s with more := more0 } :=
    have ⟨port, en, ok, lock, still⟩ := issued_free (d := descriptor opc bsb off len aux) hr hP
    ⟨port, en, ok, lock, still⟩
  have busy : ((start i s.sel (issued (descriptor opc bsb off len aux) s)).port s.sel).busy = true := by
    obtain ⟨c, seq, hs, args⟩ := calls
    rw [hs]
    exact xcall_busy free args (issued_busy hr.1)
  replace run := run.trans (last _ ⟨rfl, rfl⟩ rfl)
  rw [modPort_ended] at run
  have port := port_modPort_same { issued (descriptor opc bsb off len aux) s with more := more0 } s.sel
    (fun q => g { q with seq := seq, act := .rest, lockWait := 0 }) free.port
  refine ⟨e, f, s.sel, 0, rests, ?_⟩
  rw [exec_run hd hr he (bound.trans hk) busy (start_portOnly _ _ _).events run rfl
    ((congrArg Port.act port).trans (idle _).2) ((congrArg Port.busy port).trans (idle _).1)]
  simp only [← registers _ seq, issued_descriptor, State.modPort, List.modify_modify_eq]
  rfl

/-- An operation that ends with an error passed on or found between two calls (60_exceptions.md R256). -/
theorem exec_leads_raise {err : Status}
    (last : ∀ t : State, SameConfig s t → t.more = more0 → next t = raise s.sel err t) :
    ∃ e f o w, e.atRest ∧ exec i s = .next
      { s with
        ports := s.ports.modify s.sel (fun q => { q.afterError opc bsb off len aux err with lockWait := w })
        more := more0
        lock := ⟨false, o⟩
        eng := e
        mem := m
        trace := frs ++ s.trace
        events := rest
        free := f } :=
  exec_leads hd hr hP he hk calls leads (g := Port.failed err) (more := more0)
    (fun t same more => (last t same more).trans (by rw [← more]; rfl)) (fun _ => ⟨rfl, rfl⟩) (fun _ _ => rfl)

/-- An operation that ends `OK` with results `results` (60_exceptions.md R256). -/
theorem exec_leads_finish {results : Port → Port}
    (last : ∀ t : State, SameConfig s t → t.more = more0 → next t = finish s.sel results t)
    (registers : ∀ q seq, (results { (latch opc bsb off len aux q).started with
      seq := seq, act := .rest, lockWait := 0 }).ended .ok = { after q with lockWait := 0 }) :
    ∃ e f o w, e.atRest ∧ exec i s = .next
      { s with
        ports := s.ports.modify s.sel (fun q => { after q with lockWait := w })
        more := more0
        lock := ⟨false, o⟩
        eng := e
        mem := m
        trace := frs ++ s.trace
        events := rest
        free := f } :=
  exec_leads hd hr hP he hk calls leads (g := fun q => (results q).ended .ok) (more := more0)
    (fun t same more => (last t same more).trans (by rw [← more]; rfl)) (fun _ => ⟨rfl, rfl⟩) registers

end Ends

/-! ### SOCK.CMD -/

/-- Settles O41: the command and one poll, then the end. -/
theorem sockCmdIssuesTheCommand : Obligations.SockCmdIssuesTheCommand := by
  intro s code tmo k rest hr hP clocked he hk
  have hd : encode .default (.sockCmd code tmo) = .cmd (descriptor 0x30 0 0 (code.setWidth 16) tmo) := by
    rw [BitVec.setWidth_eq_append (by decide)]; rfl
  have free := issued_free (d := descriptor 0x30 0 0 (code.setWidth 16) tmo) hr hP
  obtain ⟨seq, e, f, rests, run⟩ := cmd_run (code := code) (tmo := tmo.toNat) (k := .own) free clocked
  exact exec_leads_finish (results := id) (more0 := s.more) hd hr hP he hk
    (start_calls hd rfl nofun nofun nofun (by exact hP) hr.2.2.1) ⟨14, seq, e, f, Nat.le_refl _, rests, run⟩
    (fun _ _ _ => rfl) (fun _ _ => rfl)

/-! ### The chains that the two FIFO sequences share -/

section Shared

variable {p : Nat} {P : Params} {C : Cfg} {w : List Byte} {m : Memory} {s : State} (h : Between p P C w m s)
include h

/-- The double read of a size register (42_size_query.md R191). -/
theorem Between.size {reg : Word} (inBlock : reg.toNat + 2 ≤ 65536) (r : Nat) (k : SizeCont) :
    let d := memRead m (chipAddr P.bsbS0Reg reg 0) P.sizeLen
    Leads p s (sizeStart p reg r k s) 16 [readFrame P P.bsbS0Reg reg d, readFrame P P.bsbS0Reg reg d] m
      (sizeDone p k (numOf d)) := by
  obtain ⟨free, clocked, rfl, rfl, rfl, rfl⟩ := h
  exact size_run free clocked inBlock

/-- The socket command on a chip that accepts at once (43_fifo_sequences.md R211). -/
theorem Between.cmd (code : Byte) (tmo : Nat) (k : CmdCont) :
    Leads p s (cmdStart p code tmo k s) 14 [readFrame P P.bsbS0Reg P.regCr [0], writeFrame P P.bsbS0Reg P.regCr [code]]
      (chipStore P m (chipAddr P.bsbS0Reg P.regCr 0) code) (cmdDone p k) := by
  obtain ⟨free, clocked, rfl, rfl, rfl, rfl⟩ := h
  obtain ⟨seq, e, f, rests, run⟩ := cmd_run free clocked
  exact ⟨14, seq, e, f, Nat.le_refl _, rests, run⟩

/-- The read of a stored pointer. -/
theorem Between.ptrRead {reg : Word} (inBlock : reg.toNat + 2 ≤ 65536) {seq : Seq} {next : State → State}
    (answer : ∀ t, (t.port p).seq = seq → proceed p (memRead m (chipAddr P.bsbS0Reg reg 0) P.ptrLen) t = next t) :
    Leads p s (Machine.readCall p P.bsbS0Reg reg P.ptrLen seq s) 8
      [readFrame P P.bsbS0Reg reg (memRead m (chipAddr P.bsbS0Reg reg 0) P.ptrLen)] m next := by
  obtain ⟨⟨-, short⟩, -, -⟩ := Params.lengths_ok h.ok
  exact (h.readCall (xferArgsOk_ptr h.ok inBlock) (wild_s0Reg h.ok _ _).1 answer).mono (Nat.add_le_add_right short 6)

/-- The write of a pointer. -/
theorem Between.ptrWrite {reg : Word} (inBlock : reg.toNat + 2 ≤ 65536) (ptr : Word) {seq : Seq}
    {next : State → State} (answer : ∀ t, (t.port p).seq = seq → proceed p [] t = next t) :
    Leads p s (Machine.writeCall p P.bsbS0Reg reg (bytesOf P.ptrLen ptr) seq s) 8
      [writeFrame P P.bsbS0Reg reg (bytesOf P.ptrLen ptr)]
      (memWrite P m (chipAddr P.bsbS0Reg reg 0) (bytesOf P.ptrLen ptr)) next := by
  have bytes : (bytesOf P.ptrLen ptr).length = P.ptrLen := length_bytesOf _ _
  obtain ⟨⟨-, short⟩, -, -⟩ := Params.lengths_ok h.ok
  exact (h.writeCall (bytes.symm ▸ xferArgsOk_ptr h.ok inBlock) (wild_s0Reg h.ok _ _).1 answer).mono
    (by rw [bytes]; exact Nat.add_le_add_right short 6)

end Shared

/-! ### TX.ENQ -/

/-- `chipStore` of `IR_SENDOK` follows SEND: the interrupt-status register then has that bit (20_memory.md R73). -/
theorem chipStore_send_ir {P : Params} (m : Memory) :
    (chipStore P m (chipAddr P.bsbS0Reg P.regCr 0) P.cmdSend).read (chipAddr P.bsbS0Reg P.regIr 0) &&& P.irSendOk =
      P.irSendOk := by
  have absorbs : ∀ b c : Bool, ((b || c) && c) = c := by decide
  simp only [chipStore, if_true, Memory.read_set_same]
  apply BitVec.eq_of_getLsbD_eq
  intro i _
  rw [BitVec.getLsbD_and, BitVec.getLsbD_or, absorbs]

/-- The masks of usable parameters are not empty (00_scope.md R8). -/
theorem Params.irSendOk_ne {P : Params} (hP : P.ok = true) : P.irSendOk ≠ 0 := by
  simp only [Params.ok, Bool.and_eq_true, decide_eq_true_eq] at hP
  tauto

/-- `MemRead` of one byte. -/
theorem memRead_one (m : Memory) (a : Nat) : memRead m a 1 = [m.read a] := by
  simp [memRead]

section Tx

variable {p : Nat} {P : Params} {C : Cfg} {w : List Byte} {m : Memory} {s : State} (h : Between p P C w m s)
include h

/-- Step 1 of TX.ENQ with room: the write pointer is read (43_fifo_sequences.md R221, R222). -/
theorem Between.txFreeKnown {len free : Word} (room : len.toNat ≤ free.toNat) :
    let d := memRead m (chipAddr P.bsbS0Reg P.regTxWr 0) P.ptrLen
    Leads p s (txFreeKnown p len free s) 8 [readFrame P P.bsbS0Reg P.regTxWr d] m (txPtrKnown p len (numOf d)) := by
  rw [Machine.txFreeKnown, if_neg (Nat.not_lt.mpr room), h.params]
  exact h.ptrRead (Params.ptrRegs_ok h.ok).1 fun t pending => by rw [proceed, pending]

/-- Step 3: the frame goes into the ring (43_fifo_sequences.md R222). -/
theorem Between.txPtrKnown {len : Word} (nonempty : len ≠ 0) (fits : len.toNat ≤ P.window) (wr : Word) :
    let v := wbufBytes p w 0 len.toNat
    Leads p s (txPtrKnown p len wr s) (len.toNat + 12) (ringWrFrames P P.bsbS0Tx wr v)
      (ringWrite P m P.bsbS0Tx wr v) (txStorePtr p wr len) := by
  intro v
  obtain ⟨free, clocked, rfl, rfl, rfl, rfl⟩ := h
  have positive : len.toNat ≠ 0 := BitVec.toNat_ne_iff_ne.mpr nonempty
  have bytes : v.length = len.toNat := length_wbufBytes _ _ _ _
  have run := ringWr_run (off := wr) (v := v) (k := .tx wr len) (empty := txStorePtr p wr len) free clocked
    (windowOk_iff.mpr (.inl rfl)) (by omega) (by omega)
  rw [bytes] at run
  exact run

/-- Step 4: the advanced pointer is stored (43_fifo_sequences.md R222). -/
theorem Between.txStorePtr (wr len : Word) :
    let d := bytesOf P.ptrLen (ptrAdd P wr len.toNat)
    Leads p s (txStorePtr p wr len s) 8 [writeFrame P P.bsbS0Reg P.regTxWr d]
      (memWrite P m (chipAddr P.bsbS0Reg P.regTxWr 0) d) (txSend p) := by
  rw [Machine.txStorePtr, h.params]
  exact h.ptrWrite (Params.ptrRegs_ok h.ok).1 _ fun t pending => by rw [proceed, pending]

/-- Step 6 once the bit is set: it is seen and cleared (43_fifo_sequences.md R225, R226). -/
theorem Between.txPollCall (sent : m.read (chipAddr P.bsbS0Reg P.regIr 0) &&& P.irSendOk ≠ 0) (r : Nat) :
    let ir := chipAddr P.bsbS0Reg P.regIr 0
    Leads p s (txPollCall p r s) 14
      [writeFrame P P.bsbS0Reg P.regIr [P.irSendOk], readFrame P P.bsbS0Reg P.regIr [m.read ir]]
      (chipStore P m ir P.irSendOk) (finish p id) := by
  intro ir
  have args := xferArgsOk_byte h.ok P.regIr
  have tame := (wild_s0Reg h.ok P.regIr 1).1
  rw [Machine.txPollCall, h.params]
  have seen : Leads p s (Machine.readCall p P.bsbS0Reg P.regIr 1 (.txPoll r) s) 7
      [readFrame P P.bsbS0Reg P.regIr [m.read ir]] m (txPolled p r (m.read ir)) := by
    rw [← memRead_one]
    exact h.readCall args tame fun t pending => by rw [proceed_txPoll pending, memRead_one]; rfl
  refine h.trans (n' := 7) (frs' := [_]) seen fun t ht => ?_
  rw [txPolled, ht.params, if_pos sent]
  exact ht.writeCall (v := [P.irSendOk]) (seq := .txClear) args tame fun t pending => by rw [proceed, pending]

/-- Steps 5 and 6 on a chip that accepts and sends at once (43_fifo_sequences.md R223 to R226). -/
theorem Between.txSend :
    let ir := chipAddr P.bsbS0Reg P.regIr 0
    let m' := chipStore P m (chipAddr P.bsbS0Reg P.regCr 0) P.cmdSend
    Leads p s (txSend p s) 28
      [writeFrame P P.bsbS0Reg P.regIr [P.irSendOk], readFrame P P.bsbS0Reg P.regIr [m'.read ir],
        readFrame P P.bsbS0Reg P.regCr [0], writeFrame P P.bsbS0Reg P.regCr [P.cmdSend]]
      (chipStore P m' ir P.irSendOk) (finish p id) := by
  intro ir m'
  rw [Machine.txSend, h.params]
  refine h.trans (n' := 14) (frs' := [_, _]) (h.cmd P.cmdSend s.cfg.cmdTmo.toNat .tx) fun t ht => ht.txPollCall ?_ 0
  exact (chipStore_send_ir m).trans_ne (Params.irSendOk_ne h.ok)

/-- TX.ENQ with room, from the size query on (43_fifo_sequences.md R221 to R227). -/
theorem Between.txEnq {len : Word} (nonempty : len ≠ 0) (fits : len.toNat ≤ P.window)
    (room : len.toNat ≤ (numOf (memRead m (chipAddr P.bsbS0Reg P.regTxFsr 0) P.sizeLen)).toNat) :
    let reg := fun (r : Word) => chipAddr P.bsbS0Reg r 0
    let rdf := fun (r : Word) (d : List Byte) => readFrame P P.bsbS0Reg r d
    let wrf := fun (r : Word) (d : List Byte) => writeFrame P P.bsbS0Reg r d
    let wr := numOf (memRead m (reg P.regTxWr) P.ptrLen)
    let v := wbufBytes p w 0 len.toNat
    let wr' := ptrAdd P wr len.toNat
    let m1 := ringWrite P m P.bsbS0Tx wr v
    let m2 := memWrite P m1 (reg P.regTxWr) (bytesOf P.ptrLen wr')
    let m3 := chipStore P m2 (reg P.regCr) P.cmdSend
    Leads p s (sizeStart p P.regTxFsr 0 (.tx len) s) (len.toNat + 72)
      ([wrf P.regIr [P.irSendOk], rdf P.regIr [m3.read (reg P.regIr)], rdf P.regCr [0], wrf P.regCr [P.cmdSend],
          wrf P.regTxWr (bytesOf P.ptrLen wr')] ++ ringWrFrames P P.bsbS0Tx wr v ++
        [rdf P.regTxWr (memRead m (reg P.regTxWr) P.ptrLen), rdf P.regTxFsr (memRead m (reg P.regTxFsr) P.sizeLen),
          rdf P.regTxFsr (memRead m (reg P.regTxFsr) P.sizeLen)])
      (chipStore P m3 (reg P.regIr) P.irSendOk) (finish p id) := by
  intro reg rdf wrf wr v wr' m1 m2 m3
  have run := h.trans (h.size (Params.sizeRegs_ok h.ok).1 0 (.tx len)) fun t ht =>
    ht.trans (ht.txFreeKnown room) fun t ht =>
    ht.trans (ht.txPtrKnown nonempty fits wr) fun t ht =>
    ht.trans (ht.txStorePtr wr len) fun t ht => ht.txSend
  refine Leads.mono ?_ (show 16 + (8 + (len.toNat + 12 + (8 + 28))) ≤ len.toNat + 72 by omega)
  simpa only [List.append_assoc, List.cons_append, List.nil_append] using run

end Tx

/-- The state in which an operation starts, whatever it makes of `MORE`, is between two calls. -/
theorem issued_between (d : Descriptor) (more : Bool) {s : State} (hr : s.ready) (hP : s.params.ok = true)
    (clocked : s.clocked = true) :
    Between s.sel s.params s.cfg (s.port s.sel).wbuf s.mem { issued d s with more := more } := by
  obtain ⟨port, en, ok, lock, rest⟩ := issued_free (d := d) hr hP
  have wbuf : ((issued d s).port s.sel).wbuf = (s.port s.sel).wbuf := by
    rw [issued, port_modPort_same _ _ _ hr.1]; rfl
  exact ⟨⟨port, en, ok, lock, rest⟩, clocked, rfl, rfl, wbuf, rfl⟩

/-- A number above another is not zero. -/
theorem ne_zero_of_lt_toNat {v : Word} {n : Nat} (h : n < v.toNat) : v ≠ 0 := by
  rintro rfl; simp at h

section TxObligations

variable {s : State} {len : Word} (nonempty : len ≠ 0)
include nonempty

theorem start_txEnq (p : Nat) (s : State) : start (.txEnq len) p s = sizeStart p s.params.regTxFsr 0 (.tx len) s :=
  if_neg nonempty

/-- TX.ENQ of at least one byte starts with a call (43_fifo_sequences.md R220, R221). -/
theorem txEnq_calls (hr : s.ready) (hP : s.params.ok = true) :
    Calls s.sel (issued (descriptor 0x41 0 0 len 0) s)
      (start (.txEnq len) s.sel (issued (descriptor 0x41 0 0 len 0) s)) :=
  start_calls (L := .default) rfl (by simpa [Instr.wellFormed] using nonempty) nofun nofun nofun (by exact hP)
    (by exact hr.2.2.1)

end TxObligations

/-- Settles O43: the chain of TX.ENQ from its size query to the clear of `IR_SENDOK`. -/
theorem txEnqEnqueuesTheFrame : Obligations.TxEnqEnqueuesTheFrame := by
  intro s len k rest P reg rdf wrf wr v wr' m1 m2 m3 hr hP clocked nonempty fits room he hk
  have h := issued_between (descriptor 0x41 0 0 len 0) s.more hr hP clocked
  have run := h.txEnq nonempty fits room
  exact exec_leads_finish (L := .default) (results := id) rfl hr hP he hk (txEnq_calls nonempty hr hP)
    (by rw [start_txEnq nonempty]; exact run) (fun _ _ _ => rfl) (fun _ _ => rfl)

/-- Settles O44: the size query, and the comparison that follows it. -/
theorem txEnqWithoutRoomWritesNothing : Obligations.TxEnqWithoutRoomWritesNothing := by
  intro s len k rest fsr hr hP clocked noRoom he hk
  have nonempty := ne_zero_of_lt_toNat noRoom
  have h := issued_between (descriptor 0x41 0 0 len 0) s.more hr hP clocked
  have run := h.size (Params.sizeRegs_ok hP).1 0 (.tx len)
  exact exec_leads_raise (L := .default) rfl hr hP he hk (txEnq_calls nonempty hr hP)
    (by rw [start_txEnq nonempty]; exact run) (fun _ _ _ => if_pos noRoom)

/-- Settles O45: the check before the size query, and the length check of the ring write after the pointer is read. -/
theorem txEnqLengthChecks : Obligations.TxEnqLengthChecks := by
  intro s len k rest P fsr hr hP he
  refine ⟨fun zero => ?_, fun clocked long room hk => ?_⟩
  · exact exec_refused (L := .default) rfl hr.1 hr.2.1 fun _ => if_pos zero
  · have nonempty := ne_zero_of_lt_toNat long
    have h := issued_between (descriptor 0x41 0 0 len 0) s.more hr hP clocked
    have run := h.trans (h.size (Params.sizeRegs_ok hP).1 0 (.tx len)) fun t ht => ht.txFreeKnown room
    refine exec_leads_raise (L := .default) rfl hr hP he hk (txEnq_calls nonempty hr hP)
      (by rw [start_txEnq nonempty]; exact run) fun t same _ => ringWr_refused (.inr ?_)
    rw [lengthOk, length_wbufBytes, same.params]
    simpa using long

/-! ### RX.DEQ -/

section Rx

variable {p : Nat} {P : Params} {C : Cfg} {w : List Byte} {m : Memory} {s : State} (h : Between p P C w m s)
include h

/-- A ring read of at least one byte and at most a window (41_ring_accessor.md R176). -/
theorem Between.ringRd {win : Bsb} (window : windowOk P win = true) {n : Nat} (nonempty : 1 ≤ n)
    (fits : n ≤ P.window) (off : Word) (k : RdCont) (empty : State → State) :
    let d := ringRead P m win off n
    Leads p s (ringRd p win off n k empty s) (n + 12) (ringRdFrames P win off d) m (ringRdDone p k d) := by
  obtain ⟨free, clocked, rfl, rfl, rfl, rfl⟩ := h
  exact ringRd_run free clocked window nonempty fits

/-- Steps 1 and 2 of RX.DEQ with bytes waiting: the size, the read pointer and the frame-length header
(43_fifo_sequences.md R231, R232). -/
theorem Between.rxHeader (waiting : numOf (memRead m (chipAddr P.bsbS0Reg P.regRxRsr 0) P.sizeLen) ≠ 0) :
    let rsrB := memRead m (chipAddr P.bsbS0Reg P.regRxRsr 0) P.sizeLen
    let rdB := memRead m (chipAddr P.bsbS0Reg P.regRxRd 0) P.ptrLen
    let hvB := ringRead P m P.bsbS0Rx (numOf rdB) P.hdrLen
    Leads p s (sizeStart p P.regRxRsr 0 .rx s) 38
      (ringRdFrames P P.bsbS0Rx (numOf rdB) hvB ++ [readFrame P P.bsbS0Reg P.regRxRd rdB,
        readFrame P P.bsbS0Reg P.regRxRsr rsrB, readFrame P P.bsbS0Reg P.regRxRsr rsrB]) m
      (rxHeaderKnown p (numOf rsrB) (numOf rdB) (numOf hvB)) := by
  intro rsrB rdB hvB
  obtain ⟨-, -, least, most⟩ := Params.lengths_ok h.ok
  obtain ⟨wide, -⟩ := Params.window_ok h.ok
  have ptr (t : State) (ht : Between p P C w m t) :
      Leads p t (sizeDone p .rx (numOf rsrB) t) 8 [readFrame P P.bsbS0Reg P.regRxRd rdB] m
        (rxPtrKnown p (numOf rsrB) (numOf rdB)) := by
    rw [sizeDone, rxSizeKnown, if_neg waiting, ht.params]
    exact ht.ptrRead (Params.ptrRegs_ok h.ok).2 fun t pending => by rw [proceed, pending]
  have header (t : State) (ht : Between p P C w m t) :
      Leads p t (rxPtrKnown p (numOf rsrB) (numOf rdB) t) 14 (ringRdFrames P P.bsbS0Rx (numOf rdB) hvB) m
        (rxHeaderKnown p (numOf rsrB) (numOf rdB) (numOf hvB)) := by
    rw [rxPtrKnown, ht.params]
    exact (ht.ringRd (windowOk_iff.mpr (.inr rfl)) least (by omega) _ (.rxHeader _ _) _).mono (by omega)
  have run := h.trans (h.size (Params.sizeRegs_ok h.ok).2 0 .rx) fun t ht => ht.trans (ptr t ht) header
  rwa [List.append_assoc] at run

/-- Steps 3 to 5: a possible header, the payload after it, and the advanced pointer
(43_fifo_sequences.md R233 to R235). -/
theorem Between.rxHeaderKnown {rsr rd hv : Word} (possible : headerOk P C.maxFrame rsr hv = true)
    (fits : hv.toNat - P.hdrLen ≤ P.window) :
    let n := hv.toNat - P.hdrLen
    let payload := ringRead P m P.bsbS0Rx (ptrAdd P rd P.hdrLen) n
    let d := bytesOf P.ptrLen (ptrAdd P rd hv.toNat)
    Leads p s (rxHeaderKnown p rsr rd hv s) (n + 20)
      (writeFrame P P.bsbS0Reg P.regRxRd d :: ringRdFrames P P.bsbS0Rx (ptrAdd P rd P.hdrLen) payload)
      (memWrite P m (chipAddr P.bsbS0Reg P.regRxRd 0) d) (rxRecv p rsr hv payload) := by
  intro n payload d
  have whole : P.hdrLen + (hv.toNat - P.hdrLen) = hv.toNat := by
    simp only [headerOk, Bool.and_eq_true, decide_eq_true_eq] at possible; omega
  have window : windowOk P P.bsbS0Rx = true := windowOk_iff.mpr (.inr rfl)
  have store (v : List Byte) (t : State) (ht : Between p P C w m t) :
      Leads p t (rxStorePtr p rsr rd hv v t) 8 [writeFrame P P.bsbS0Reg P.regRxRd d]
        (memWrite P m (chipAddr P.bsbS0Reg P.regRxRd 0) d) (rxRecv p rsr hv v) := by
    rw [rxStorePtr, ht.params, whole]
    exact ht.ptrWrite (Params.ptrRegs_ok h.ok).2 _ fun t pending => by rw [proceed, pending]
  rw [Machine.rxHeaderKnown, h.params, h.cfg, if_pos possible]
  by_cases empty : n = 0
  · have nothing : payload = [] := List.length_eq_zero_iff.mp ((length_ringRead _ _ _ _ _).trans empty)
    rw [show hv.toNat - P.hdrLen = 0 from empty, ringRd_empty h.free.en (by rw [h.params]; exact window), nothing]
    exact (store [] s h).mono (by omega)
  · exact (h.trans (h.ringRd window (by omega) fits _ (.rxPayload rsr rd hv) _) (store payload)).mono (by omega)

/-- Step 6: RECV on a chip that accepts at once, with the results to deliver (43_fifo_sequences.md R235, R236). -/
theorem Between.rxRecv (rsr hv : Word) (payload : List Byte) :
    Leads p s (rxRecv p rsr hv payload s) 14
      [readFrame P P.bsbS0Reg P.regCr [0], writeFrame P P.bsbS0Reg P.regCr [P.cmdRecv]]
      (chipStore P m (chipAddr P.bsbS0Reg P.regCr 0) P.cmdRecv) (rxDone p rsr hv payload) := by
  rw [Machine.rxRecv, h.params]
  exact h.cmd P.cmdRecv s.cfg.cmdTmo.toNat (.rx rsr hv payload)

end Rx

/-- What RX.DEQ makes of `MORE` and the port's registers in the end, `MORE` being cleared since its start
(43_fifo_sequences.md R230, R236). -/
theorem rxDone_eq {p : Nat} {rsr hv : Word} {payload : List Byte} {t : State} (cleared : t.more = false) :
    rxDone p rsr hv payload t =
      { t.modPort p (fun q =>
          { q with lenOut := some (BitVec.ofNat 16 (hv.toNat - t.params.hdrLen)), rbuf := payload }.ended .ok) with
        more := decide (hv.toNat < rsr.toNat) } := by
  have more : (if hv.toNat < rsr.toNat then true else t.more) = decide (hv.toNat < rsr.toNat) := by
    rw [cleared]; split <;> simp_all
  rw [rxDone, more]
  rfl

/-- RX.DEQ starts with a call (43_fifo_sequences.md R230, R231). -/
theorem rxDeq_calls {s : State} (hP : s.params.ok = true) :
    Calls s.sel { issued (descriptor 0x42 0 0 0 0) s with more := false }
      (start .rxDeq s.sel (issued (descriptor 0x42 0 0 0 0) s)) :=
  rxStart_calls (by exact hP)

/-- Settles O48: the chain of RX.DEQ from its size query to its results. -/
theorem rxDeqDequeuesTheFrame : Obligations.RxDeqDequeuesTheFrame := by
  intro s k rest P reg rdf wrf rsrB rdB rd hvB hv n payload rd' m1 hr hP clocked fits least bounded short he hk
  obtain ⟨-, -, one, -⟩ := Params.lengths_ok hP
  have h := issued_between (descriptor 0x42 0 0 0 0) false hr hP clocked
  have possible : headerOk P s.cfg.maxFrame (numOf rsrB) hv = true := by
    simp only [headerOk, Bool.and_eq_true, decide_eq_true_eq]; exact ⟨⟨least, bounded⟩, short⟩
  have waiting : numOf rsrB ≠ 0 := ne_zero_of_lt_toNat (show 0 < (numOf rsrB).toNat by omega)
  have run := h.trans (h.rxHeader waiting) fun t ht => ht.trans (ht.rxHeaderKnown possible fits) fun t ht =>
    ht.rxRecv _ _ _
  have run := run.mono (show 38 + (n + 20 + 14) ≤ n + 72 by omega)
  have run := exec_leads (L := .default) (more := decide (hv.toNat < (numOf rsrB).toNat))
    (g := fun q => { q with lenOut := some (BitVec.ofNat 16 n), rbuf := payload }.ended .ok)
    (after := fun q => { q.after 0x42 0 0 0 0 .ok with lenOut := some (BitVec.ofNat 16 n), rbuf := payload })
    rfl hr hP he hk (rxDeq_calls hP) run (fun t same cleared => by rw [rxDone_eq cleared, same.params])
    (fun _ => ⟨rfl, rfl⟩) (fun _ _ => rfl)
  simpa only [List.append_assoc, List.cons_append, List.nil_append] using run

/-- Settles O49: the size query, and the end that follows a size of zero. -/
theorem rxDeqOfAnEmptyRing : Obligations.RxDeqOfAnEmptyRing := by
  intro s k rest rsrB hr hP clocked empty he hk
  have h := issued_between (descriptor 0x42 0 0 0 0) false hr hP clocked
  exact exec_leads_finish (L := .default) (results := fun q => { q with lenOut := some 0 })
    (after := fun q => { q.after 0x42 0 0 0 0 .ok with lenOut := some 0 }) rfl hr hP he hk (rxDeq_calls hP)
    (h.size (Params.sizeRegs_ok hP).2 0 .rx) (fun _ _ _ => if_pos empty) (fun _ _ => rfl)

/-- A state in which a port has the status `CorruptHeader` is faulted (43_fifo_sequences.md R233). -/
theorem faulted_of_modify {s t : State} {p : Nat} {f : Port → Port} (port : p < s.ports.length)
    (changed : t.ports = s.ports.modify p f) (err : (f (s.port p)).err = .corruptHeader) : t.faulted = true := by
  have exist : p < t.ports.length := by rw [changed, List.length_modify]; exact port
  rw [← port_of_modify port changed, State.port, List.getElem?_eq_getElem exist] at err
  exact List.any_eq_true.mpr ⟨_, List.getElem_mem exist, beq_iff_eq.mpr err⟩

/-- Settles O50: the header's check, and the stop of a faulted state. -/
theorem impossibleHeaderIsCorrupt : Obligations.ImpossibleHeaderIsCorrupt := by
  intro s k rest P rsrB rdB hvB hv hr hP clocked waiting impossible he hk
  have h := issued_between (descriptor 0x42 0 0 0 0) false hr hP clocked
  have bad : ¬ headerOk P s.cfg.maxFrame (numOf rsrB) hv = true := by
    simp only [headerOk, Bool.and_eq_true, decide_eq_true_eq]; omega
  obtain ⟨e, f, o, w, rests, run⟩ := exec_leads_raise (L := .default) (err := .corruptHeader) rfl hr hP he hk
    (rxDeq_calls hP) (h.rxHeader waiting) fun t same _ => by rw [rxHeaderKnown, same.params, same.cfg, if_neg bad]
  refine ⟨_, run, ?_, step_faulted ?_, e, f, o, w, rests, rfl⟩ <;> exact faulted_of_modify hr.1 rfl rfl

/-- Settles O51: the length check of the ring read. -/
theorem rxDeqPayloadBeyondAWindow : Obligations.RxDeqPayloadBeyondAWindow := by
  intro s k rest P rsrB rdB hvB hv hr hP clocked bounded short long he hk
  have h := issued_between (descriptor 0x42 0 0 0 0) false hr hP clocked
  have waiting : numOf rsrB ≠ 0 := ne_zero_of_lt_toNat (show 0 < (numOf rsrB).toNat by omega)
  have possible : headerOk P s.cfg.maxFrame (numOf rsrB) hv = true := by
    simp only [headerOk, Bool.and_eq_true, decide_eq_true_eq]; omega
  refine exec_leads_raise (L := .default) rfl hr hP he hk (rxDeq_calls hP) (h.rxHeader waiting) fun t same _ => ?_
  rw [rxHeaderKnown, same.params, same.cfg, if_pos possible]
  exact ringRd_refused (.inr (by rw [same.params]; exact decide_eq_false (Nat.not_le.mpr long)))

end Sys2Proof.Machine
end

section
/-! SUPPORT and the proof of O60: what TX.ENQ and RX.DEQ leave unchanged, complete or still running. Each has its
`Plan`: the steps it can have pending and what they leave alone, an invariant of every turn of its port. The ring
bytes that TX.ENQ writes depend on the pointer it reads; before that it only reads (`Quiet`). -/

namespace Sys2Proof.Machine

/-! ### Turns of one port alone -/

/-- A run that lists no moves but turns of one port is a number of these turns. -/
theorem drive_turns_of_solo {p : Nat} (going : State → Bool) {s : State} (solo : s.solo p) :
    ∃ k es, drive going s = { turns p k s with events := es } := by
  rw [drive]
  unfold State.solo at solo
  generalize s.events = l at solo
  induction l generalizing s with
  | nil => exact ⟨0, [], rfl⟩
  | cons ev l ih =>
    obtain ⟨⟨k, rfl⟩, others⟩ := List.forall_mem_cons.mp solo
    rw [driveList]
    split
    · obtain ⟨k', es, run⟩ := ih (s := applyEnv (.turn p k) s) others
      exact ⟨k + k', es, by rw [run, turns_add]; rfl⟩
    · exact ⟨0, _, rfl⟩

/-- An operation whose port alone moves is its start and a number of turns. -/
theorem exec_turns {i : Instr} {d : Descriptor} {s t : State} (hd : encode s.params.ctrl i = .cmd d) (hr : s.ready)
    (solo : s.solo s.sel) (ht : exec i s = .next t) :
    ∃ k es, t = { turns s.sel k (start i s.sel (issued d s)) with events := es } := by
  rw [exec_ready hd hr] at ht
  cases ht
  exact drive_turns_of_solo _ fun ev hev => solo ev ((start_portOnly i s.sel (issued d s)).events ▸ hev)

/-! ### A read call before its answer -/

/-- `t` is `s` but for what a call of port `p` moves before its answer is delivered, and no byte of the chip: the
port's step and wait, the lock, the engine and the wire. -/
def Quiet (p : Nat) (s t : State) : Prop :=
  ∃ seq act wait lock trace eng free,
    t = { s.modPort p (fun q => { q with seq := seq, act := act, lockWait := wait }) with
      lock := lock, trace := trace, eng := eng, free := free }

theorem Quiet.refl (p : Nat) (s : State) : Quiet p s s := by
  have ports : s.ports.modify p (fun q => { q with
      seq := (s.port p).seq, act := (s.port p).act, lockWait := (s.port p).lockWait }) = s.ports :=
    (modify_congr (g := fun q => q) rfl).trans (List.modify_id _ _)
  refine ⟨(s.port p).seq, (s.port p).act, (s.port p).lockWait, s.lock, s.trace, s.eng, s.free, ?_⟩
  simp only [State.modPort, ports]

theorem Quiet.trans {p : Nat} {s t u : State} (h : Quiet p s t) (h' : Quiet p t u) : Quiet p s u := by
  obtain ⟨_, _, _, _, _, _, _, rfl⟩ := h
  obtain ⟨seq, act, wait, lock, trace, eng, free, rfl⟩ := h'
  refine ⟨seq, act, wait, lock, trace, eng, free, ?_⟩
  simp only [State.modPort, List.modify_modify_eq]
  rfl

/-- The first header bytes of the owner's frame. -/
theorem header_steps {L : CtrlLayout} {dir : Dir} {bsb : Bsb} {off : Word} {n p : Nat} {data : List Byte} {s : State}
    (held : s.lock.held = true) (own : s.lock.owner = p) (carries : s.eng.Carries L dir bsb off n data)
    (ph : s.eng.ph = .hdr) (idx : s.eng.idx.toNat = 0) {j : Nat} (hj : j < 3) :
    ∃ e f, turns p j s = { s with eng := e, free := f } ∧ e.Carries L dir bsb off n data ∧ e.ph = .hdr ∧
      e.idx.toNat = j := by
  induction j with
  | zero => exact ⟨s.eng, s.free, rfl, carries, ph, idx⟩
  | succ j ih =>
    obtain ⟨e, f, run, carries', ph', idx'⟩ := ih (by omega)
    obtain ⟨e', f', step, carries'', ph'', idx'', -, -⟩ :=
      header_step (s := { s with eng := e, free := f }) held own carries' ph'
    have next : e.idx.toNat < 2 := by omega
    exact ⟨e', f', by rw [turns_succ', run, step], carries'', ph''.trans (if_pos next),
      idx''.trans ((if_pos next).trans (congrArg (· + 1) idx'))⟩

/-- The bytes of the owner's read frame, from its opening on, move the engine alone. -/
theorem readOpen_steps {bsb : Bsb} {off : Word} {n p K : Nat} {s : State} (held : s.lock.held = true)
    (own : s.lock.owner = p) (count : s.eng.count = n) (inline : s.params.inlineMax ≤ 4) (positive : 0 < n)
    (small : n ≤ 65535) (hK : K ≤ n + 3) :
    ∃ e f, turns p K (openFrame .rd bsb off s) =
      { s with mem := openMem s.params s.clocked s.mem s.free bsb off n, eng := e, free := f } := by
  obtain ⟨bit, sho, mosi, opened⟩ := openFrame_spec .rd bsb off s
  rw [count] at opened
  generalize openFrame .rd bsb off s = u at opened
  have carries : u.eng.Carries s.params.ctrl .rd bsb off n s.eng.data := by
    rw [opened]; exact ⟨rfl, rfl, rfl, rfl, count, rfl, rfl, rfl⟩
  obtain ⟨lock, params, ph, idx, sent, got⟩ : u.lock = s.lock ∧ u.params = s.params ∧ u.eng.ph = .hdr ∧
      u.eng.idx.toNat = 0 ∧ u.eng.sent = [] ∧ u.eng.got = [] := by
    rw [opened]; exact ⟨rfl, rfl, rfl, rfl, rfl, rfl⟩
  rw [← lock] at held own
  have moved : ∃ e f, turns p K u = { u with eng := e, free := f } := by
    by_cases inHeader : K < 3
    · obtain ⟨e, f, run, -⟩ := header_steps held own carries ph idx inHeader
      exact ⟨e, f, run⟩
    · obtain ⟨j, rfl⟩ := Nat.exists_eq_add_of_le (Nat.not_lt.mp inHeader)
      obtain ⟨e, f, header, carries', ph', idx', -, got'⟩ := header_run held own carries ph idx sent
      obtain ⟨e', payload, -⟩ := read_run (s := { u with eng := e, free := f }) held own carries' ph' idx'
        (got'.trans got) (params ▸ inline) j (by omega) positive small
      exact ⟨e', f, by rw [turns_add, header, payload]⟩
  obtain ⟨e, f, run⟩ := moved
  exact ⟨e, f, by rw [run, opened]⟩

/-- A read call whose answer the spec gives, before its last turn. -/
theorem readCall_quiet {p n K : Nat} {bsb : Bsb} {off : Word} {seq : Seq} {s : State} (h : Free p s)
    (clocked : s.clocked = true) (args : xferArgsOk s.params off n = true) (tame : wild s.params bsb off n = false)
    (hK : K < n + 6) : Quiet p s (turns p K (readCall p bsb off n seq s)) := by
  obtain ⟨positive, small, -⟩ := xferArgsOk_bounds args
  obtain ⟨layout, inline⟩ := Params.layout_ok h.params
  match K, hK with
  | 0, _ => exact ⟨_, _, _, _, _, _, _, xcall_ok h.en args⟩
  | 1, _ =>
    rw [turns_succ, readCall, xcall_granted h.port h.en args h.lock]
    exact ⟨_, _, _, _, _, _, _, rfl⟩
  | K + 2, hK =>
    rw [turns_succ, readCall, xcall_granted h.port h.en args h.lock, turns_succ,
      turn_opens (by rfl) (by rfl) (by exact h.rest.1) (by exact layout) (by rfl)]
    obtain ⟨e, f, run⟩ := readOpen_steps (bsb := bsb) (off := off) (n := n) (p := p) (K := K)
      (s := { calling p seq s with
        lock := ⟨true, p⟩
        eng := { s.eng with staged := some (header s.params.ctrl .rd bsb off), count := n, data := [] } })
      rfl rfl rfl inline positive small (by omega)
    have spared : openMem s.params s.clocked s.mem s.free bsb off n = s.mem := by rw [clocked, openMem_tame tame]
    refine ⟨seq, .rest, 0, ⟨true, p⟩, s.trace, e, f, run.trans ?_⟩
    exact congrArg (fun m => { calling p seq s with lock := ⟨true, p⟩, eng := e, free := f, mem := m }) spared

/-- From `u`, port `p` does nothing but read until, in a state where `I` holds, it goes on with `next`. -/
def ReadsUntil (p : Nat) (I : State → Prop) (s u : State) (next : State → State) : Prop :=
  ∀ k, Quiet p s (turns p k u) ∨ ∃ j t, I t ∧ Quiet p s t ∧ turns p k u = turns p j (next t)

/-- Reads, and then reads from there. -/
theorem ReadsUntil.trans {p : Nat} {I : State → Prop} {s u : State} {next next' : State → State}
    (first : ReadsUntil p I s u next) (second : ∀ t, I t → ReadsUntil p I t (next t) next') :
    ReadsUntil p I s u next' := by
  intro k
  obtain quiet | ⟨j, t, ht, quiet, run⟩ := first k
  · exact .inl quiet
  · rw [run]
    exact (second t ht j).imp quiet.trans fun ⟨i, v, hv, quiet', run'⟩ => ⟨i, v, hv, quiet.trans quiet', run'⟩

section Reads

variable {p : Nat} {P : Params} {C : Cfg} {w : List Byte} {m : Memory} {s : State} (h : Between p P C w m s)
include h

/-- A read call whose answer the spec gives. -/
theorem Between.readCall_until {n : Nat} {bsb : Bsb} {off : Word} {seq : Seq} {next : State → State}
    (args : xferArgsOk P off n = true) (tame : wild P bsb off n = false)
    (answer : ∀ t, (t.port p).seq = seq → proceed p (memRead m (chipAddr bsb off 0) n) t = next t) :
    ReadsUntil p (Between p P C w m) s (Machine.readCall p bsb off n seq s) next := by
  intro k
  obtain ⟨free, clocked, rfl, rfl, rfl, rfl⟩ := h
  by_cases early : k < n + 6
  · exact .inl (readCall_quiet free clocked args tame early)
  · obtain ⟨j, rfl⟩ := Nat.exists_eq_add_of_le (Nat.not_lt.mp early)
    obtain ⟨e, f, rests, run⟩ := readCall_tame (seq := seq) free args clocked tame
    have port := ended_port p seq [readFrame s.params bsb off (memRead s.mem (chipAddr bsb off 0) n)] s.mem e f s
      free.port
    refine .inr ⟨j, _, ⟨free.ended rests, clocked, rfl, rfl, by rw [port], rfl⟩,
      ⟨seq, .rest, 0, _, _, e, f, rfl⟩, ?_⟩
    rw [turns_add, run, answer _ (by rw [port])]

/-- The size query of TX.ENQ (43_fifo_sequences.md R221). -/
theorem Between.txSize_until (len : Word) :
    ReadsUntil p (Between p P C w m) s (sizeStart p P.regTxFsr 0 (.tx len) s)
      (Machine.txFreeKnown p len (numOf (memRead m (chipAddr P.bsbS0Reg P.regTxFsr 0) P.sizeLen))) := by
  have args := xferArgsOk_size h.ok (Params.sizeRegs_ok h.ok).1
  have tame := (wild_s0Reg h.ok P.regTxFsr P.sizeLen).1
  rw [sizeStart, h.params]
  refine (h.readCall_until args tame fun t pending => proceed_sizeFirst pending).trans fun t ht => ?_
  rw [sizeSecondCall, ht.params]
  refine ht.readCall_until args tame fun t pending => ?_
  rw [proceed_sizeSecond pending, if_pos rfl]
  rfl

/-- With room, the read of the write pointer follows (43_fifo_sequences.md R222). -/
theorem Between.txPtr_until {len : Word}
    (room : len.toNat ≤ (numOf (memRead m (chipAddr P.bsbS0Reg P.regTxFsr 0) P.sizeLen)).toNat) :
    ReadsUntil p (Between p P C w m) s (sizeStart p P.regTxFsr 0 (.tx len) s)
      (Machine.txPtrKnown p len (numOf (memRead m (chipAddr P.bsbS0Reg P.regTxWr 0) P.ptrLen))) := by
  refine (h.txSize_until len).trans fun t ht => ?_
  rw [Machine.txFreeKnown, if_neg (Nat.not_lt.mpr room), ht.params]
  exact ht.readCall_until (xferArgsOk_ptr h.ok (Params.ptrRegs_ok h.ok).1) (wild_s0Reg h.ok _ _).1
    fun t pending => by rw [proceed, pending]

end Reads

/-! ### What an operation leaves alone -/

/-- An operation as the steps it can have pending and what it leaves alone: the chip locations `stays`, and of its
port's registers what `keeps` says. -/
structure Plan where
  stays : Nat → Prop
  steps : Seq → Prop
  keeps : Port → Prop

/-- No turn of this call changes a location that the operation leaves alone. -/
def Plan.Permits (O : Plan) (P : Params) (c : Call) : Prop := ∀ a, O.stays a → c.Spares P a

/-- The operation makes this transport call, and it has passed its checks (40_transport.md R131). -/
def Plan.Makes (O : Plan) (P : Params) (c : Call) : Prop :=
  O.Permits P c ∧ xferArgsOk P c.off c.count = true

/-- The registers `q` of the port while the operation runs and after its end. -/
structure Plan.Within (O : Plan) (P : Params) (q : Port) : Prop where
  keeps : O.keeps q
  step : O.steps q.seq
  call : ∀ c, q.act = .asking c → O.Makes P c

/-- What the operation keeps depends on no step or wait, and an error leaves it (10_state.md R22). -/
structure Plan.Steady (O : Plan) (P : Params) : Prop where
  params : P.ok = true
  idle : O.steps .none
  pends : ∀ q seq act wait, O.keeps q → O.keeps { q with seq := seq, act := act, lockWait := wait }
  fails : ∀ q e, O.keeps q → O.keeps (q.failed e)

/-- And whatever the answer of its pending call, the operation goes on as planned (10_state.md R26). -/
structure Plan.Sound (O : Plan) (P : Params) : Prop extends O.Steady P where
  answers : ∀ p d s, s.params = P → p < s.ports.length → O.Within P (s.port p) →
    O.Within P ((proceed p d s).port p)

/-- A read whose answer the spec gives is permitted to every operation (20_memory.md R74). -/
theorem Plan.permits_read (O : Plan) {P : Params} {bsb : Bsb} {off : Word} {n : Nat} (tame : wild P bsb off n = false) :
    O.Permits P ⟨.rd, bsb, off, n, []⟩ := fun a _ => .read tame a

section Steady

variable {O : Plan} {P : Params} {s : State} {p : Nat} (h : O.Steady P) (hp : p < s.ports.length)
include h hp

/-- An end with an error (60_exceptions.md R256). -/
theorem Plan.Steady.raise (keeps : O.keeps (s.port p)) (e : Status) : O.Within P ((raise p e s).port p) :=
  port_modPort_of hp ⟨h.fails _ e keeps, h.idle, nofun⟩

/-- An end with the results `f`. -/
theorem Plan.Steady.finish {f : Port → Port} (keeps : O.keeps ((f (s.port p)).ended .ok)) :
    O.Within P ((finish p f s).port p) :=
  port_modPort_of hp ⟨keeps, h.idle, nofun⟩

/-- A permitted call with a step to follow, whether it passes its checks or not (40_transport.md R131). -/
theorem Plan.Steady.xcall (same : s.params = P) (keeps : O.keeps (s.port p)) {c : Call} {seq : Seq}
    (step : O.steps seq) (call : O.Permits P c) : O.Within P ((xcall p c seq s).port p) := by
  unfold Machine.xcall
  split
  · next ok =>
    refine port_modPort_of hp ⟨h.pends _ _ _ _ keeps, step, fun c' hc => ?_⟩
    cases hc
    exact ⟨call, same ▸ ((Bool.and_eq_true _ _).mp ok).2⟩
  · exact h.raise hp keeps _

/-- A read whose answer the spec gives, with a step to follow. -/
theorem Plan.Steady.readCall (same : s.params = P) (keeps : O.keeps (s.port p)) {bsb : Bsb} {off : Word} {n : Nat}
    {seq : Seq} (step : O.steps seq) (tame : wild P bsb off n = false) :
    O.Within P ((readCall p bsb off n seq s).port p) :=
  h.xcall hp same keeps step (O.permits_read tame)

/-- A read of a register of socket 0. -/
theorem Plan.Steady.regRead (same : s.params = P) (keeps : O.keeps (s.port p)) {off : Word} {n : Nat}
    {seq : Seq} (step : O.steps seq) :
    O.Within P ((Machine.readCall p s.params.bsbS0Reg off n seq s).port p) :=
  h.readCall hp same keeps step (same ▸ (wild_s0Reg h.params _ _).1)

/-- A pair that disagreed (42_size_query.md R193). -/
theorem Plan.Steady.sizeRetry (same : s.params = P) (keeps : O.keeps (s.port p)) {reg : Word} {r : Nat} {k : SizeCont}
    (step : O.steps (.sizeFirst reg (r + 1) k)) : O.Within P ((sizeRetry p reg r k s).port p) := by
  unfold Machine.sizeRetry
  split
  · exact h.regRead hp same keeps step
  · split
    · exact h.raise hp keeps _
    · exact h.regRead hp same keeps step

/-- A poll that did not read zero (43_fifo_sequences.md R211). -/
theorem Plan.Steady.cmdMissed (keeps : O.keeps (s.port p)) {n tmo : Nat} {k : CmdCont}
    (step : O.steps (.cmdPoll (n + s.cfg.pollInt.toNat) tmo k)) : O.Within P ((cmdMissed p n tmo k s).port p) := by
  unfold Machine.cmdMissed
  split
  · exact h.raise hp keeps _
  · exact port_modPort_of hp ⟨h.pends _ _ _ (s.port p).lockWait keeps, step, nofun⟩

/-- One tick of a port that asks for the lock (40_transport.md R133). -/
theorem Plan.Steady.askTurn (within : O.Within P (s.port p)) (c : Call) : O.Within P ((askTurn p c s).port p) := by
  unfold Machine.askTurn
  split_ifs
  · exact port_modPort_of hp ⟨h.pends _ _ .rest (s.port p).lockWait within.keeps, within.step, nofun⟩
  · exact h.raise hp within.keeps _
  · exact port_modPort_of hp ⟨h.pends _ _ (s.port p).act _ within.keeps, within.step, within.call⟩

/-- One tick of a port that waits between two polls (43_fifo_sequences.md R211). -/
theorem Plan.Steady.pauseTurn (same : s.params = P) (within : O.Within P (s.port p)) (left : Nat) :
    O.Within P ((pauseTurn p left s).port p) := by
  cases left with
  | succ left =>
    exact port_modPort_of hp ⟨h.pends _ _ (.pausing left) (s.port p).lockWait within.keeps, within.step, nofun⟩
  | zero =>
    unfold Machine.pauseTurn
    split
    · next impossible => exact nomatch impossible
    · split
      · next pending =>
        exact h.regRead hp same within.keeps (pending ▸ within.step)
      · exact within

end Steady

section Sound

variable {O : Plan} {P : Params} {s t : State} {p : Nat} (h : O.Sound P)
include h

/-- A turn of the port that runs the operation goes as planned. -/
theorem Plan.Sound.turn (same : s.params = P) (hp : p < s.ports.length) (within : O.Within P (s.port p)) :
    O.Within P ((turn p s).port p) := by
  by_cases own : s.lock.held = true ∧ s.lock.owner = p
  · rw [turn_owner own.1 own.2]
    obtain ports | ends := frameTurn_ports p s
    · rw [port_congr ports]; exact within
    · rw [ends]
      exact h.answers p _ (closeFrame true s) same hp within
  · rw [Machine.turn, if_neg (by simpa using own)]
    cases (s.port p).act with
    | rest => exact within
    | asking c => exact h.askTurn hp within c
    | pausing left => exact h.pauseTurn hp same within left

end Sound

/-- What a run of an operation of port `p` from `s` to `t` leaves alone. -/
structure Plan.Leaves (O : Plan) (p : Nat) (s t : State) : Prop where
  config : SameConfig s t
  more : (∀ n tmo rsr hv d, ¬ O.steps (.cmdPoll n tmo (.rx rsr hv d))) → t.more = s.more
  others : ∀ q, q ≠ p → t.port q = s.port q
  mem : s.clocked = true → ∀ a, O.stays a → t.mem.read a = s.mem.read a
  keeps : O.keeps (t.port p)

/-- The run of an operation of port `p` from `s` to `t`, with what is pending. -/
structure Plan.Runs (O : Plan) (p : Nat) (s t : State) : Prop extends O.Leaves p s t where
  port_lt : p < t.ports.length
  within : O.Within s.params (t.port p)
  bus : t.Bus (O.Makes s.params)

/-- Every turn of the port goes as planned. -/
theorem Plan.Runs.turn {O : Plan} {p : Nat} {s t : State} (sound : O.Sound s.params) (h : O.Runs p s t) :
    O.Runs p s (turn p t) := by
  have same := h.config.params
  have layout : t.params.ctrl.ok = true := same ▸ (Params.layout_ok sound.params).1
  have bounded : ∀ c, O.Makes s.params c → 0 < c.count ∧ c.count ≤ 65535 := fun c hc =>
    have ⟨h0, h1, _⟩ := xferArgsOk_bounds hc.2
    ⟨h0, h1⟩
  have within := sound.turn same h.port_lt h.within
  exact {
    config := h.config.trans (turn_sameConfig p t)
    more := fun quiet => by
      by_contra changed
      rw [← h.more quiet] at changed
      obtain ⟨-, -, -, _, _, _, _, _, pending, -⟩ := moreIsWrittenByRxDeqAlone.1 p t changed
      exact quiet _ _ _ _ _ (pending ▸ h.within.step)
    others := fun q hq => (turn_port_other t (Ne.symm hq)).trans (h.others q hq)
    mem := fun clocked a ha => by
      have clocked' : t.clocked = true := by rw [State.clocked, same, h.config.cfg]; exact clocked
      rw [h.bus.read_turn layout clocked' fun c hc => same ▸ hc.1 a ha]
      exact h.mem clocked a ha
    keeps := within.keeps
    port_lt := by rw [length_turn]; exact h.port_lt
    within := within
    bus := h.bus.turn layout bounded h.within.call }

/-- What waits for the answer of its reads leaves all of the chip alone. -/
theorem Quiet.leaves {O : Plan} {p : Nat} {s t : State} (h : Quiet p s t) (hp : p < s.ports.length)
    (steady : O.Steady s.params) (keeps : O.keeps (s.port p)) : O.Leaves p s t := by
  obtain ⟨seq, act, wait, lock, trace, eng, free, rfl⟩ := h
  exact {
    config := ⟨rfl, rfl⟩
    more := fun _ => rfl
    others := fun q hq => port_modPort_other s p q _ (Ne.symm hq)
    mem := fun _ _ _ => rfl
    keeps := port_modPort_of hp (steady.pends _ _ _ _ keeps) }

/-- An operation that goes on as planned after it has only waited for the answer of its reads. -/
theorem Quiet.runs {O : Plan} {p : Nat} {s t u : State} (h : Quiet p s t) (free : Free p t) (only : PortOnly p t u)
    (more : u.more = t.more) (within : O.Within s.params (u.port p)) : O.Runs p s u := by
  obtain ⟨seq, act, wait, lock, trace, eng, f, rfl⟩ := h
  obtain ⟨g, ports⟩ := only.ports
  exact {
    config := ⟨only.cfg, only.params⟩
    more := fun _ => more
    others := fun q hq => by
      rw [port_congr (t := (s.modPort p _).modPort p g) ports, port_modPort_other _ _ _ _ (Ne.symm hq),
        port_modPort_other _ _ _ _ (Ne.symm hq)]
    mem := fun _ a _ => congrArg (Memory.read · a) only.mem
    keeps := within.keeps
    port_lt := by rw [ports, List.length_modify]; exact free.port
    within := within
    bus := .free (only.lock ▸ free.lock) (only.eng ▸ free.rest.1) }

/-! ### The plan of RX.DEQ -/

/-- The location is no byte of the pointer register `reg`, nor the command or the interrupt-status register. -/
def NoFifoReg (P : Params) (reg : Word) (a : Nat) : Prop :=
  (∀ j < P.ptrLen, a ≠ chipAddr P.bsbS0Reg reg j) ∧
    a ≠ chipAddr P.bsbS0Reg P.regCr 0 ∧ a ≠ chipAddr P.bsbS0Reg P.regIr 0

section Writes

variable {P : Params} (hP : P.ok = true) {reg : Word} {a : Nat} (ha : NoFifoReg P reg a)
include hP ha

/-- A write of the pointer leaves such a location alone. -/
theorem NoFifoReg.spares_ptr (v : Word) :
    Call.Spares P ⟨.wr, P.bsbS0Reg, reg, (bytesOf P.ptrLen v).length, bytesOf P.ptrLen v⟩ a :=
  .write (wild_s0Reg hP _ _).1 fun j hj => ⟨ha.1 j (by simpa using hj), fun _ => ha.2.2⟩

/-- So does a command. -/
theorem NoFifoReg.spares_cmd (code : Byte) :
    Call.Spares P ⟨.wr, P.bsbS0Reg, P.regCr, [code].length, [code]⟩ a :=
  .write (wild_s0Reg hP _ _).1 fun j hj => by
    rw [Nat.lt_one_iff.mp hj]
    exact ⟨ha.2.1, fun _ => ha.2.2⟩

/-- And a write of the interrupt-status register. -/
theorem NoFifoReg.spares_ir (mask : Byte) :
    Call.Spares P ⟨.wr, P.bsbS0Reg, P.regIr, [mask].length, [mask]⟩ a :=
  .write (wild_s0Reg hP _ _).1 fun j hj => by
    rw [Nat.lt_one_iff.mp hj]
    exact ⟨ha.2.2, fun _ => ha.2.2⟩

end Writes

/-- The steps of RX.DEQ (43_fifo_sequences.md R230 to R236). -/
inductive RxStep (P : Params) : Seq → Prop
  | none : RxStep P .none
  | sizeFirst {reg : Word} {r : Nat} : RxStep P (.sizeFirst reg r .rx)
  | sizeSecond {reg : Word} {a : List Byte} {r : Nat} : RxStep P (.sizeSecond reg a r .rx)
  | ptr {rsr : Word} : RxStep P (.rxPtr rsr)
  | ringWhole {k : RdCont} (inside : k ≠ .own) : RxStep P (.ringRdWhole k)
  | ringTail {win : Bsb} {rest : Nat} {k : RdCont} (inside : k ≠ .own) (tame : wild P win 0 rest = false) :
      RxStep P (.ringRdTail win rest k)
  | ringHead {tail : List Byte} {k : RdCont} (inside : k ≠ .own) : RxStep P (.ringRdHead tail k)
  | store {rsr hv : Word} {payload : List Byte} : RxStep P (.rxStore rsr hv payload)
  | cmdWrite {tmo : Nat} {rsr hv : Word} {payload : List Byte} : RxStep P (.cmdWrite tmo (.rx rsr hv payload))
  | cmdPoll {n tmo : Nat} {rsr hv : Word} {payload : List Byte} : RxStep P (.cmdPoll n tmo (.rx rsr hv payload))

/-- RX.DEQ writes the read pointer and the command register (43_fifo_sequences.md R235), and leaves the operands and
`RESULT` that the port's registers `q0` hold at its start. -/
def rxPlan (P : Params) (q0 : Port) : Plan where
  stays := NoFifoReg P P.regRxRd
  steps := RxStep P
  keeps q := q.operands = q0.operands ∧ q.result ∈ [q0.result, none]

theorem rxPlan_steady {P : Params} (hP : P.ok = true) (q0 : Port) : (rxPlan P q0).Steady P where
  params := hP
  idle := .none
  pends _ _ _ _ keeps := keeps
  fails _ _ keeps := ⟨keeps.1, by simp [Port.failed]⟩

section RxPlan

variable {s : State} {p : Nat} {q0 : Port} (hP : s.params.ok = true) (hp : p < s.ports.length)
  (keeps : (rxPlan s.params q0).keeps (s.port p))
include hP hp keeps

/-- A ring read of RX.DEQ, whole or split (41_ring_accessor.md R174, R177). -/
theorem rxPlan_ringRd {win : Bsb} {off : Word} {n : Nat} {k : RdCont} {empty : State → State} (inside : k ≠ .own)
    (nothing : (rxPlan s.params q0).Within s.params ((empty s).port p)) :
    (rxPlan s.params q0).Within s.params ((ringRd p win off n k empty s).port p) := by
  have h := rxPlan_steady hP q0
  unfold ringRd
  split_ifs with en hw hl zero crossing
  · exact h.raise hp keeps _
  · exact h.raise hp keeps _
  · exact h.raise hp keeps _
  · exact nothing
  all_goals
    have window : windowOk s.params win = true := by simpa using hw
    have fits : n ≤ s.params.window := by simpa [lengthOk] using hl
    obtain ⟨tail, -, sum⟩ := tailLen_ringOff hP off
  · rw [tail]
    exact h.readCall hp rfl keeps (.ringTail inside (wild_window window (by simp; omega))) (wild_window window sum.le)
  · exact h.readCall hp rfl keeps (.ringWhole inside) (wild_window window (by simpa [crosses] using crossing))

/-- The advanced pointer is stored (43_fifo_sequences.md R235). -/
theorem rxPlan_storePtr (rsr rd hv : Word) (payload : List Byte) :
    (rxPlan s.params q0).Within s.params ((rxStorePtr p rsr rd hv payload s).port p) :=
  (rxPlan_steady hP q0).xcall hp rfl keeps .store fun _ ha => NoFifoReg.spares_ptr hP ha _

/-- A header is refused or its payload is read (43_fifo_sequences.md R233, R234). -/
theorem rxPlan_headerKnown (rsr rd hv : Word) :
    (rxPlan s.params q0).Within s.params ((rxHeaderKnown p rsr rd hv s).port p) := by
  unfold rxHeaderKnown
  split
  · exact rxPlan_ringRd hP hp keeps nofun (rxPlan_storePtr hP hp keeps _ _ _ _)
  · exact (rxPlan_steady hP q0).raise hp keeps _

/-- What follows a ring read of RX.DEQ. -/
theorem rxPlan_ringRdDone {k : RdCont} (inside : k ≠ .own) (d : List Byte) :
    (rxPlan s.params q0).Within s.params ((ringRdDone p k d s).port p) := by
  cases k with
  | own => exact absurd rfl inside
  | rxHeader rsr rd => exact rxPlan_headerKnown hP hp keeps _ _ _
  | rxPayload rsr rd hv => exact rxPlan_storePtr hP hp keeps _ _ _ _

end RxPlan

/-- RX.DEQ goes as planned, whatever it is answered. -/
theorem rxPlan_sound {P : Params} (hP : P.ok = true) (q0 : Port) : (rxPlan P q0).Sound P where
  toSteady := rxPlan_steady hP q0
  answers p d s same hp within := by
    have h := rxPlan_steady hP q0
    have keeps := within.keeps
    have step : RxStep P (s.port p).seq := within.step
    subst same
    rw [proceed]
    generalize (s.port p).seq = seq at step ⊢
    cases step with
    | none => exact within
    | sizeFirst => exact h.regRead hp rfl keeps .sizeSecond
    | sizeSecond =>
      dsimp only [sizeDone, rxSizeKnown]
      split_ifs
      · exact h.finish hp keeps
      · exact h.regRead hp rfl keeps .ptr
      · exact h.sizeRetry hp rfl keeps .sizeFirst
    | ptr => exact rxPlan_ringRd hP hp keeps nofun (rxPlan_headerKnown hP hp keeps _ _ _)
    | ringWhole inside => exact rxPlan_ringRdDone hP hp keeps inside _
    | ringTail inside tame => exact h.readCall hp rfl keeps (.ringHead inside) tame
    | ringHead inside => exact rxPlan_ringRdDone hP hp keeps inside _
    | store => exact h.xcall hp rfl keeps .cmdWrite fun _ ha => NoFifoReg.spares_cmd hP ha _
    | cmdWrite => exact h.regRead hp rfl keeps .cmdPoll
    | cmdPoll =>
      dsimp only
      split_ifs
      · exact h.finish (s := { s with more := _ }) hp keeps
      · exact h.cmdMissed hp keeps .cmdPoll

/-! ### The plan of TX.ENQ -/

/-- A piece of a ring write leaves a location alone that is none of the span's `n` locations (41_ring_accessor.md R173);
`m` is the place of its first byte. -/
theorem ringPiece_spares {P : Params} {win : Bsb} {off o : Word} {a n : Nat} {v : List Byte} (m : Nat)
    (window : windowOk P win = true) (fits : o.toNat + v.length ≤ P.window)
    (place : ∀ j < v.length, m + j < n ∧ chipAddr win o j = ringAddr P win off (m + j))
    (other : ∀ j < n, a ≠ ringAddr P win off j) (noIr : a ≠ chipAddr P.bsbS0Reg P.regIr 0) :
    Call.Spares P ⟨.wr, win, o, v.length, v⟩ a :=
  .write (wild_window window fits) fun j hj => ⟨(place j hj).2 ▸ other _ (place j hj).1, fun _ => noIr⟩

/-- The steps of TX.ENQ (43_fifo_sequences.md R221 to R226). What it is going to write is
not known before the pointer: those steps are for a plan that leaves nothing of the chip alone. -/
inductive TxStep (P : Params) (len : Word) (stays : Nat → Prop) : Seq → Prop
  | none : TxStep P len stays .none
  | sizeFirst {reg : Word} {r : Nat} (unknown : ∀ a, ¬ stays a) : TxStep P len stays (.sizeFirst reg r (.tx len))
  | sizeSecond {reg : Word} {a : List Byte} {r : Nat} (unknown : ∀ a, ¬ stays a) :
      TxStep P len stays (.sizeSecond reg a r (.tx len))
  | ptr (unknown : ∀ a, ¬ stays a) : TxStep P len stays (.txPtr len)
  | ringWhole {wr : Word} : TxStep P len stays (.ringWrWhole (.tx wr len))
  | ringTail {win : Bsb} {rest : List Byte} {wr : Word}
      (head : ∀ a, stays a → Call.Spares P ⟨.wr, win, 0, rest.length, rest⟩ a) :
      TxStep P len stays (.ringWrTail win rest (.tx wr len))
  | ringHead {wr : Word} : TxStep P len stays (.ringWrHead (.tx wr len))
  | store : TxStep P len stays .txStore
  | cmdWrite {tmo : Nat} : TxStep P len stays (.cmdWrite tmo .tx)
  | cmdPoll {n tmo : Nat} : TxStep P len stays (.cmdPoll n tmo .tx)
  | poll {r : Nat} : TxStep P len stays (.txPoll r)
  | live {r : Nat} : TxStep P len stays (.txLive r)
  | clear : TxStep P len stays .txClear

/-- TX.ENQ writes the write pointer, the command and the interrupt-status register and a span of the ring
(43_fifo_sequences.md R222 to R226), and leaves the operands and results that the port's registers `q0` hold at its
start, `RBUF` being emptied there. -/
def txPlan (P : Params) (len : Word) (stays : Nat → Prop) (q0 : Port) : Plan where
  stays := stays
  steps := TxStep P len stays
  keeps q := q.operands = q0.operands ∧ q.result ∈ [q0.result, none] ∧
    q.lenOut ∈ [q0.lenOut, none] ∧ q.rbuf = []

theorem txPlan_steady {P : Params} (hP : P.ok = true) (len : Word) (stays : Nat → Prop) (q0 : Port) :
    (txPlan P len stays q0).Steady P where
  params := hP
  idle := .none
  pends _ _ _ _ keeps := keeps
  fails _ _ keeps := ⟨keeps.1, by simp [Port.failed], by simp [Port.failed], rfl⟩

section TxPlan

variable {s : State} {p : Nat} {q0 : Port} {len : Word} {stays : Nat → Prop} (hP : s.params.ok = true)
  (hp : p < s.ports.length) (regs : ∀ a, stays a → NoFifoReg s.params s.params.regTxWr a)
  (keeps : (txPlan s.params len stays q0).keeps (s.port p))
include hP hp regs keeps

/-- The advanced pointer is stored (43_fifo_sequences.md R222). -/
theorem txPlan_storePtr (wr : Word) :
    (txPlan s.params len stays q0).Within s.params ((txStorePtr p wr len s).port p) :=
  (txPlan_steady hP len stays q0).xcall hp rfl keeps .store fun a ha => (regs a ha).spares_ptr hP _

/-- The frame goes into the ring at a pointer whose span is no location that stays (43_fifo_sequences.md R222). -/
theorem txPlan_ptrKnown {wr : Word}
    (span : ∀ a, stays a → ∀ j < len.toNat, a ≠ ringAddr s.params s.params.bsbS0Tx wr j) :
    (txPlan s.params len stays q0).Within s.params ((txPtrKnown p len wr s).port p) := by
  have h := txPlan_steady hP len stays q0
  unfold txPtrKnown
  have bytes : (wbufBytes p (s.port p).wbuf 0 len.toNat).length = len.toNat := length_wbufBytes _ _ _ _
  generalize wbufBytes p (s.port p).wbuf 0 len.toNat = v at bytes
  unfold ringWr
  split_ifs with en hw hl zero crossing
  · exact h.raise hp keeps _
  · exact h.raise hp keeps _
  · exact h.raise hp keeps _
  · exact txPlan_storePtr hP hp regs keeps _
  all_goals
    have window : windowOk s.params s.params.bsbS0Tx = true := by simpa using hw
    have fits : v.length ≤ s.params.window := by simpa [lengthOk] using hl
    obtain ⟨tail, -, sum⟩ := tailLen_ringOff hP wr
    rw [crosses_ringOff hP, decide_eq_true_eq] at crossing
  · rw [tail]
    refine h.xcall hp rfl keeps (.ringTail fun a ha => ?_) fun a ha => ?_
    · refine ringPiece_spares (ringTail s.params wr) window (by simp; omega) (fun j hj => ?_) (span a ha)
        (regs a ha).2.2
      rw [List.length_drop] at hj
      exact ⟨by omega, chipAddr_head hP _ wr (by omega)⟩
    · refine ringPiece_spares 0 window (by simp; omega) (fun j hj => ?_) (span a ha) (regs a ha).2.2
      rw [List.length_take] at hj
      exact ⟨by omega, by rw [Nat.zero_add]; exact chipAddr_tail hP _ wr (by omega)⟩
  · refine h.xcall hp rfl keeps .ringWhole fun a ha =>
      ringPiece_spares 0 window (by omega) (fun j hj => ?_) (span a ha) (regs a ha).2.2
    rw [Nat.zero_add]
    exact ⟨by omega, chipAddr_tail hP _ wr (by omega)⟩

/-- What the interrupt-status byte leads to (43_fifo_sequences.md R225, R226). -/
theorem txPlan_polled (r : Nat) (v : Byte) :
    (txPlan s.params len stays q0).Within s.params ((txPolled p r v s).port p) := by
  have h := txPlan_steady hP len stays q0
  unfold txPolled
  split_ifs
  · exact h.xcall hp rfl keeps .clear fun a ha => (regs a ha).spares_ir hP _
  · exact h.raise hp keeps _
  · exact h.readCall hp rfl keeps .live (wild_s0Reg hP _ _).2
  · exact h.regRead hp rfl keeps .poll

end TxPlan

/-- TX.ENQ goes as planned, whatever it is answered. -/
theorem txPlan_sound {P : Params} (hP : P.ok = true) (len : Word) {stays : Nat → Prop}
    (regs : ∀ a, stays a → NoFifoReg P P.regTxWr a) (q0 : Port) : (txPlan P len stays q0).Sound P where
  toSteady := txPlan_steady hP len stays q0
  answers p d s same hp within := by
    have h := txPlan_steady hP len stays q0
    have keeps := within.keeps
    have step : TxStep P len stays (s.port p).seq := within.step
    subst same
    rw [proceed]
    generalize (s.port p).seq = seq at step ⊢
    cases step with
    | none => exact within
    | sizeFirst unknown => exact h.regRead hp rfl keeps (.sizeSecond unknown)
    | sizeSecond unknown =>
      dsimp only [sizeDone, txFreeKnown]
      split_ifs
      · exact h.raise hp keeps _
      · exact h.regRead hp rfl keeps (.ptr unknown)
      · exact h.sizeRetry hp rfl keeps (.sizeFirst unknown)
    | ptr unknown => exact txPlan_ptrKnown hP hp regs keeps fun a ha => absurd ha (unknown a)
    | ringWhole => exact txPlan_storePtr hP hp regs keeps _
    | ringTail head => exact h.xcall hp rfl keeps .ringHead head
    | ringHead => exact txPlan_storePtr hP hp regs keeps _
    | store => exact h.xcall hp rfl keeps .cmdWrite fun a ha => (regs a ha).spares_cmd hP _
    | cmdWrite => exact h.regRead hp rfl keeps .cmdPoll
    | cmdPoll =>
      dsimp only
      split_ifs
      · exact h.regRead hp rfl keeps .poll
      · exact h.cmdMissed hp keeps .cmdPoll
    | poll => exact txPlan_polled hP hp regs keeps _ _
    | live =>
      dsimp only [txLived]
      split_ifs
      · exact h.regRead hp rfl keeps .poll
      · exact h.raise hp keeps _
    | clear => exact h.finish hp keeps

/-! ### The two operations -/

/-- The registers with which an operation starts (30_encoding.md R108, 10_state.md R22; log 24). -/
theorem issued_port {d : Descriptor} {s : State} (hp : s.sel < s.ports.length) :
    (issued d s).port s.sel = (latch (opcOf d) (bsbOf d) (offOf d) (lenOf d) (auxOf d) (s.port s.sel)).started :=
  port_modPort_same _ _ _ hp

/-- Once an operation goes as planned, it does so for any number of turns. -/
theorem Plan.Runs.turns {O : Plan} {p : Nat} {s t : State} (sound : O.Sound s.params) (h : O.Runs p s t) (k : Nat) :
    O.Leaves p s (turns p k t) :=
  (turns_keeps (fun _ h => h.turn sound) k h).toLeaves

/-- What TX.ENQ leaves alone of the chip in the valid range of the clock: all but the registers of the sequence and the
ring bytes at the pointer that the chip holds at its start (43_fifo_sequences.md R222). -/
def TxStays (s : State) (len : Word) (a : Nat) : Prop :=
  s.clocked = true ∧ NoFifoReg s.params s.params.regTxWr a ∧
    ∀ j < len.toNat, a ≠ ringAddr s.params s.params.bsbS0Tx
      (numOf (memRead s.mem (chipAddr s.params.bsbS0Reg s.params.regTxWr 0) s.params.ptrLen)) j

section Runs

variable {s : State} {p : Nat} (free : Free p s)
include free

/-- An operation whose start goes as planned. -/
theorem Plan.Sound.leaves_start {O : Plan} (sound : O.Sound s.params) {u : State} (only : PortOnly p s u)
    (more : u.more = s.more) (within : O.Within s.params (u.port p)) (k : Nat) : O.Leaves p s (turns p k u) :=
  Plan.Runs.turns sound ((Quiet.refl p s).runs free only more within) k

/-- TX.ENQ from its start on. Where the chip's answers are known it first only reads, and then either writes at the
pointer it has read or ends without room (43_fifo_sequences.md R220 to R222). -/
theorem txEnq_leaves (len : Word) (empty : (s.port p).rbuf = []) (k : Nat) :
    (txPlan s.params len (TxStays s len) (s.port p)).Leaves p s (turns p k (start (.txEnq len) p s)) := by
  have hP := free.params
  have sound := txPlan_sound hP len (stays := TxStays s len) (fun _ ha => ha.2.1) (s.port p)
  have keeps : (txPlan s.params len (TxStays s len) (s.port p)).keeps (s.port p) := ⟨rfl, by simp, by simp, empty⟩
  by_cases zero : len = 0
  · rw [show start (.txEnq len) p s = raise p .invalidArgument s from if_pos zero]
    exact sound.leaves_start free (.raise _ _ _) rfl (sound.raise free.port keeps _) k
  rw [start_txEnq zero]
  cases clocked : s.clocked with
  | false =>
    have unknown : ∀ a, ¬ TxStays s len a := fun a ha => nomatch clocked.symm.trans ha.1
    exact sound.leaves_start free (.xcall _ _ _ _) (xcall_more _ _ _ _)
      (sound.regRead free.port rfl keeps (.sizeFirst unknown)) k
  | true =>
    have h : Between p s.params s.cfg (s.port p).wbuf s.mem s := ⟨free, clocked, rfl, rfl, rfl, rfl⟩
    by_cases room : len.toNat ≤
        (numOf (memRead s.mem (chipAddr s.params.bsbS0Reg s.params.regTxFsr 0) s.params.sizeLen)).toNat
    · obtain quiet | ⟨j, t, ht, quiet, run⟩ := h.txPtr_until room k
      · exact quiet.leaves free.port sound.toSteady keeps
      · have keeps' := (quiet.leaves free.port sound.toSteady keeps).keeps
        rw [run]
        refine Plan.Runs.turns sound (quiet.runs ht.free (.ringWr _ _ _ _ _ _ _ (.xcall _ _ _ _))
          (ringWr_more _ _ (writeCall_more _ _ _ _ _ _)) ?_) j
        rw [← ht.params] at hP keeps' ⊢
        exact txPlan_ptrKnown hP ht.free.port (ht.params ▸ fun _ ha => ha.2.1) keeps'
          (ht.params ▸ fun _ ha => ha.2.2)
    · obtain quiet | ⟨j, t, ht, quiet, run⟩ := h.txSize_until len k
      · exact quiet.leaves free.port sound.toSteady keeps
      · have keeps' := (quiet.leaves free.port sound.toSteady keeps).keeps
        rw [run, txFreeKnown, if_pos (Nat.not_le.mp room)]
        exact Plan.Runs.turns sound (quiet.runs ht.free (.raise _ _ _) rfl (sound.raise ht.free.port keeps' _)) j

/-- RX.DEQ from its start on, where `MORE` is cleared (43_fifo_sequences.md R230). -/
theorem rxDeq_leaves (k : Nat) :
    (rxPlan s.params (s.port p)).Leaves p { s with more := false } (turns p k (start .rxDeq p s)) := by
  have sound := rxPlan_sound free.params (s.port p)
  have free' : Free p { s with more := false } := ⟨free.port, free.en, free.params, free.lock, free.rest⟩
  exact sound.leaves_start free' (.xcall _ _ _ _) (xcall_more _ _ _ _)
    (sound.regRead free'.port rfl ⟨rfl, List.mem_cons_self⟩ .sizeFirst) k

end Runs

/-- The operand registers that a port keeps which keeps those of the start (30_encoding.md R108). -/
theorem operands_of_issued {opc : Byte} {bsb : Bsb} {off len aux : Word} {s : State} {q : Port} (hr : s.ready)
    (keeps : q.operands = ((issued (descriptor opc bsb off len aux) s).port s.sel).operands) :
    q.opc = opc ∧ q.bsb = bsb ∧ q.off = off ∧ q.len = len ∧ q.aux = aux ∧ q.wbuf = (s.port s.sel).wbuf := by
  rw [issued_port hr.1, opcOf_descriptor, bsbOf_descriptor, offOf_descriptor, lenOf_descriptor,
    auxOf_descriptor] at keeps
  simpa only [Port.operands, Port.started, latch, Prod.mk.injEq] using keeps

/-- Settles O60: the plan of each of the two operations is kept by every turn of its port. -/
theorem fifoOperationsFrame : Obligations.FifoOperationsFrame := by
  unfold Obligations.FifoOperationsFrame
  intro s t hr hP solo operands
  refine ⟨fun len ht => ?_, fun ht => ?_⟩
  · obtain ⟨k, es, rfl⟩ := exec_turns (d := descriptor 0x41 0 0 len 0) rfl hr solo ht
    have port := issued_port (d := descriptor 0x41 0 0 len 0) hr.1
    have leaves := txEnq_leaves (issued_free hr hP) len (by rw [port]; rfl) k
    obtain ⟨same, result, lenOut, rbuf⟩ := leaves.keeps
    rw [port] at result lenOut
    exact ⟨fun clocked a span ptr cr ir => leaves.mem clocked a ⟨clocked, ⟨ptr, cr, ir⟩, span⟩,
      leaves.more (fun _ _ _ _ _ step => nomatch step), leaves.config.cfg, leaves.config.params,
      fun q hq => (leaves.others q hq).trans (issued_port_other _ _ hq), operands_of_issued hr same, result, lenOut,
      rbuf⟩
  · obtain ⟨k, es, rfl⟩ := exec_turns (d := descriptor 0x42 0 0 0 0) rfl hr solo ht
    have leaves := rxDeq_leaves (issued_free (d := descriptor 0x42 0 0 0 0) hr hP) k
    obtain ⟨same, result⟩ := leaves.keeps
    rw [issued_port hr.1] at result
    exact ⟨fun clocked a ptr cr ir => leaves.mem clocked a ⟨ptr, cr, ir⟩, leaves.config.cfg, leaves.config.params,
      fun q hq => (leaves.others q hq).trans (issued_port_other _ _ hq), operands_of_issued hr same, result⟩

end Sys2Proof.Machine
end

section
/-! SUPPORT and the proof of O55: what a turn leaves unchanged beside the registers of other ports, the
configuration and the parameters, which `turn_port_other` and `turn_sameConfig` cover: the list of events. -/

namespace Sys2Proof.Machine

/-- The moves of requesters and environment are taken by the fetch and by `drive`, never by a turn (log 2). -/
theorem turn_events (p : Nat) (s : State) : (turn p s).events = s.events := by
  have ht := turn_turned p s
  generalize turn p s = t at ht ⊢
  cases ht with
  | nothing => rfl
  | opens held own ph staged target => rfl
  | header held own ph => simp only [headerTurn]
  | reads held own ph dir => simp only [readTurn]
  | writes held own ph dir => simp only [writeTurn]
  | closes held own ph => exact proceed_events _ _ _
  | grants free asks => rfl
  | waits waiting only more => exact only.events

/-- Settles O55: the frame of a turn, component by component. -/
theorem turnTouchesNoOtherPort : Obligations.TurnTouchesNoOtherPort := by
  unfold Obligations.TurnTouchesNoOtherPort
  intro p q s other
  obtain ⟨cfg, params⟩ := turn_sameConfig p s
  exact ⟨turn_port_other s other, cfg, params, turn_events p s, length_turn p s⟩

end Sys2Proof.Machine
end
